-- ==== Sys2Proof/Word.lean ====
section
/-! DEFINITION. Word.lean: the value types of 00_scope.md R9 and the two widths of R6 that are the source's own. The third,
`REG_WIDTH`, is a parameter of the machine (Config.lean). -/

namespace Sys2Proof

/-- `PRESCALE_W` (R6): the width of ClockPrescale. -/
abbrev Config.prescaleW : Nat := 16

/-- `ADDR_W` (R6): the width of a slave address. -/
abbrev Config.addrW : Nat := 7

/-- `Byte` of R9: 8 bits, unsigned. -/
abbrev Byte := BitVec 8

/-- `Word` of R9: an unsigned value of `REG_WIDTH` bits. `REG_WIDTH` is an argument of the machine (R6), so the width is no
part of the type: a word is the number it stands for, below 2^`REG_WIDTH`, and the Register Interface's values are
brought within it where the device gives them (`fitWord`, log entry 1). -/
abbrev Word := Nat

/-- `Prescale` of R9: `Config.prescaleW` bits. -/
abbrev Prescale := BitVec Config.prescaleW

/-- `Addr7` of R9: `Config.addrW` bits. -/
abbrev Addr7 := BitVec Config.addrW

/-- `Name` of R9: a device name; names compare as exact strings (D21). -/
abbrev DevName := String

/-- A `targetFrequencyRatio` (R60, R80), of the type `PRESCALE_OF` takes (log entry 3). -/
abbrev Ratio := Nat

end Sys2Proof
end

