-- ==== Sys2Proof/Config.lean ====
section
/-! DEFINITION. Config.lean: the device's register names, the implementation parameters of 00_scope.md R6, and the
values the spec leaves OPEN, as constants without a body. -/

namespace Sys2Proof

/-- The seven logical registers of the device (10_state.md R28). -/
inductive Reg where
  | psHi | psLo | ctrl | data | cmd | status | rxdata
deriving DecidableEq, Repr, Inhabited

/-- One register operation as the device sees it when a commit applies it (20_memory.md R43). -/
inductive Access where
  /-- the write of `v` to `r` was applied -/
  | wrote (r : Reg) (v : Word)
  /-- a read of `r` was answered with `v` -/
  | answered (r : Reg) (v : Word)
deriving DecidableEq, Repr, Inhabited

/-- What the Register Interface calls one logical register: an address-table name and an offset (20_memory.md R47). -/
structure PortName where
  name   : String
  offset : Nat
deriving DecidableEq, Repr, Inhabited

/-- `REG_NAME_OF` (R6): the map from the seven logical names, written out as data. -/
structure RegNames where
  psHi   : PortName
  psLo   : PortName
  ctrl   : PortName
  data   : PortName
  cmd    : PortName
  status : PortName
  rxdata : PortName
deriving DecidableEq, Repr, Inhabited

/-- The parameters of R6 that take a value (the source's two widths are in Word.lean, `PRESCALE_OF` is below). -/
structure Params where
  /-- `REG_WIDTH`: the width of a value the Register Interface carries, at least 8 (D2, U21) -/
  regWidth       : Nat
  /-- `MAX_RETRY` -/
  maxRetry       : Nat
  /-- `SCAN_LAST` -/
  scanLast       : Addr7
  /-- `ADDR_MASK` -/
  addrMask       : Nat
  /-- `POLL_INTERVAL`, which no rule reads -/
  pollInterval   : Nat
  /-- `CMD_STA` -/
  cmdSta         : Byte
  /-- `CMD_STO` -/
  cmdSto         : Byte
  /-- `CMD_RD` -/
  cmdRd          : Byte
  /-- `CMD_WR` -/
  cmdWr          : Byte
  /-- `CMD_ACK` -/
  cmdAck         : Byte
  /-- `ST_RXACK` -/
  stRxack        : Byte
  /-- `ST_BUSY` -/
  stBusy         : Byte
  /-- `ST_AL` -/
  stAl           : Byte
  /-- `ST_TIP` -/
  stTip          : Byte
  /-- `CTRL_DISABLE` -/
  ctrlDisable    : Byte
  /-- `CTRL_ENABLE` -/
  ctrlEnable     : Byte
  /-- `READ_IDLE_ON_STOP` -/
  readIdleOnStop : Bool
  /-- `MASTER_ID` -/
  masterId       : Nat
  /-- `REG_NAME_OF` -/
  regNames       : RegNames
deriving DecidableEq, Repr, Inhabited

namespace Config

/-- `MASTER_ID` (R6, R132, D24): OPEN, any value. -/
opaque masterId : Nat

/-- `POLL_INTERVAL` (R6, R160, D32): OPEN, any value. -/
opaque pollInterval : Nat

/-- `PRESCALE_OF` (R6, R80, D8): OPEN, a total function to a 16-bit prescale. -/
opaque prescaleOf : Ratio → Prescale

/-- `config.targetFrequencyRatio`, the constructor's argument (70_reset_and_hazards.md R150): any value. -/
opaque targetFrequencyRatio : Ratio

/-- The constructor's mapping (42_registry.md R115), each address string already parsed: any list (log entry 9). -/
opaque parsedMapping : List (DevName × Nat)

/-- The engine's `attempt` outside `waitUntilFinished`, where it is undefined (10_state.md R24, R37; U30): any value, a
fresh one each time it becomes undefined. -/
opaque freeAttempt : Nat → Nat

/-- The engine's `status` outside `waitUntilFinished`, where it is undefined (10_state.md R24, R37; U30): any value, a
fresh one each time it becomes undefined. -/
opaque freeStatus : Nat → Nat

/-- The device oracle (10_state.md R30, D26): the answer to a read of a register, a function of the whole history of
applied register operations and of a free choice; the word is its `REG_WIDTH` bits. -/
opaque deviceAnswer : List Access → Reg → Nat → Nat

/-- The value of a deferred handle that no commit has resolved (20_memory.md R42: undefined). -/
opaque unresolvedValue : Nat → Nat

/-- The general-knowledge default of `REG_NAME_OF` (20_memory.md R47, G3). -/
def defaultRegNames : RegNames :=
  { psHi := ⟨"ps_hi", 1⟩, psLo := ⟨"ps_lo", 0⟩, ctrl := ⟨"ctrl", 2⟩, data := ⟨"data", 3⟩, cmd := ⟨"cmd_stat", 4⟩,
    status := ⟨"cmd_stat", 4⟩, rxdata := ⟨"data", 3⟩ }

/-- The values and defaults of R6. -/
def defaults : Params :=
  { regWidth := 32, maxRetry := 20, scanLast := 0x7E, addrMask := 0x7F, pollInterval := pollInterval,
    cmdSta := 0x80, cmdSto := 0x40, cmdRd := 0x20, cmdWr := 0x10, cmdAck := 0x08,
    stRxack := 0x80, stBusy := 0x40, stAl := 0x20, stTip := 0x02,
    ctrlDisable := 0x00, ctrlEnable := 0x80, readIdleOnStop := true,
    masterId := masterId, regNames := defaultRegNames }

end Config

end Sys2Proof
end

