-- ==== Sys2Proof/Syntax.lean ====
section
/-! DEFINITION. Syntax.lean: the operations of spec/opcode_table.json as one inductive: the thirteen requests of
30_encoding.md R61 with the typed arguments R60 gives them, and the three command-byte forms of R65. -/

namespace Sys2Proof

/-- `Flags` of R9: a set of the five command flags (R31); no other bit can be expressed (D20). -/
structure Flags where
  sta : Bool := false
  sto : Bool := false
  rd  : Bool := false
  wr  : Bool := false
  ack : Bool := false
deriving DecidableEq, Repr, Inhabited

/-- A slave handle: the pair (master, address) of 10_state.md R26; the master is named by its `MASTER_ID`. -/
structure SlaveHandle where
  master : Nat
  addr   : Addr7
deriving DecidableEq, Repr, Inhabited

/-- One constructor per row of spec/opcode_table.json. An address argument is a number, since a caller can give one
above 0x7F and the operation then faults (30_encoding.md R72). -/
inductive Instr where
  /-- `CONFIGURE`, code 0x01 (R80) -/
  | configure (ratio : Ratio)
  /-- `RESET`, code 0x02 (R81) -/
  | reset
  /-- `SEND_WRITE`, code 0x03 (R86) -/
  | sendWrite (cmd : Flags) (data : Byte)
  /-- `SEND_READ`, code 0x04 (R87) -/
  | sendRead (cmd : Flags)
  /-- `WAIT`, code 0x05 (R88) -/
  | wait (reqAck reqIdle : Bool)
  /-- `WRITE_BLOCK`, code 0x06 (R100) -/
  | writeBlock (addr : Nat) (bytes : List Byte) (sendStop : Bool)
  /-- `READ_BLOCK`, code 0x07 (R101) -/
  | readBlock (addr count : Nat)
  /-- `PING`, code 0x08 (R102) -/
  | ping (addr : Nat)
  /-- `SCAN`, code 0x09 (R103) -/
  | scan
  /-- `GET_SLAVE_ADDRESS`, code 0x0A (R119) -/
  | getSlaveAddress (name : DevName)
  /-- `GET_SLAVE`, code 0x0B (R120) -/
  | getSlave (name : DevName)
  /-- `SLAVE_WRITE_BLOCK`, code 0x0C (R122) -/
  | slaveWriteBlock (handle : SlaveHandle) (bytes : List Byte) (sendStop : Bool)
  /-- `SLAVE_READ_BLOCK`, code 0x0D (R122) -/
  | slaveReadBlock (handle : SlaveHandle) (count : Nat)
  /-- `CMD_ZERO`: the command byte 0 (R65, R81) -/
  | cmdZero
  /-- `CMD_WRITE`: a write-to-slave command byte (R63, R65) -/
  | cmdWrite (sta sto ack : Bool)
  /-- `CMD_READ`: a read-from-slave command byte (R64, R65) -/
  | cmdRead (sta sto ack : Bool)
deriving DecidableEq, Repr, Inhabited

end Sys2Proof
end

