-- ==== Sys2Proof/Decode.lean ====
section
/-! DEFINITION. Decode.lean: the two encoded objects of 30_encoding.md, read and written: requests (a code byte with typed
arguments, R60 and R61) and command bytes (R62 to R65). The decoder is total and refuses by name; the encoder after it
is written from the same tables. -/

namespace Sys2Proof

/-- One argument of a request, carried out of band as a typed value: the nine types of R60. -/
inductive Arg where
  | flags (f : Flags)
  | byte (b : Byte)
  | addr (a : Nat)
  | bytes (bs : List Byte)
  | count (n : Nat)
  | bool (b : Bool)
  | name (n : DevName)
  | handle (h : SlaveHandle)
  | ratio (r : Ratio)
deriving DecidableEq, Repr, Inhabited

/-- What can be presented to the engine: a request (R60), or a bare command byte for the register `CMD` (R65; log
entry 5 says how a command byte comes to be presented). -/
inductive Presented where
  | request (code : Byte) (args : List Arg)
  | command (v : Byte)
deriving DecidableEq, Repr, Inhabited

/-- Why the decoder refuses. -/
inductive DecodeError where
  /-- the code names no request: 0x00 or 0x0E to 0xFF (R61) -/
  | badCode (code : Byte)
  /-- the arguments are not of the types R61 gives the code -/
  | mistypedArguments (code : Byte)
  /-- the byte is none of the forms of R65 -/
  | notACommandByte (v : Byte)
deriving DecidableEq, Repr, Inhabited

/-! ## Command bytes -/

/-- A mask if the flag is set, else 0. -/
def maskIf (on : Bool) (m : Byte) : Byte := if on then m else 0

/-- The byte that ors the masks of the flags in the set (R9, R31, R62). -/
def flagsByte (p : Params) (f : Flags) : Byte :=
  maskIf f.sta p.cmdSta ||| maskIf f.sto p.cmdSto ||| maskIf f.rd p.cmdRd ||| maskIf f.wr p.cmdWr ||| maskIf f.ack p.cmdAck

/-- The flags whose masks a byte carries (R62). -/
def flagsOfByte (p : Params) (v : Byte) : Flags :=
  { sta := v &&& p.cmdSta != 0, sto := v &&& p.cmdSto != 0, rd := v &&& p.cmdRd != 0, wr := v &&& p.cmdWr != 0,
    ack := v &&& p.cmdAck != 0 }

/-- Write-path composition: the write flag forced on (R63). -/
def writeCommand (p : Params) (cmd : Flags) : Byte := flagsByte p cmd ||| p.cmdWr

/-- Read-path composition: the read flag forced on (R64). -/
def readCommand (p : Params) (cmd : Flags) : Byte := flagsByte p cmd ||| p.cmdRd

/-- Reads a command byte: 0, or an or of masks with exactly one of read and write and no other bit (R65, R72). -/
def decodeCommand (p : Params) (v : Byte) : Except DecodeError Instr :=
  if v = 0 then .ok .cmdZero
  else
    let f := flagsOfByte p v
    if flagsByte p f = v then
      match f.rd, f.wr with
      | false, true => .ok (.cmdWrite f.sta f.sto f.ack)
      | true, false => .ok (.cmdRead f.sta f.sto f.ack)
      | _, _ => .error (.notACommandByte v)
    else .error (.notACommandByte v)

/-! ## Requests -/

/-- Reads a request: the table of R61; a `sendStop` left out is true (R61, R76). -/
def decodeRequest (code : Byte) (args : List Arg) : Except DecodeError Instr :=
  match code.toNat, args with
  | 0x01, [.ratio r] => .ok (.configure r)
  | 0x02, [] => .ok .reset
  | 0x03, [.flags f, .byte b] => .ok (.sendWrite f b)
  | 0x04, [.flags f] => .ok (.sendRead f)
  | 0x05, [.bool a, .bool i] => .ok (.wait a i)
  | 0x06, [.addr a, .bytes bs, .bool stop] => .ok (.writeBlock a bs stop)
  | 0x06, [.addr a, .bytes bs] => .ok (.writeBlock a bs true)
  | 0x07, [.addr a, .count n] => .ok (.readBlock a n)
  | 0x08, [.addr a] => .ok (.ping a)
  | 0x09, [] => .ok .scan
  | 0x0A, [.name n] => .ok (.getSlaveAddress n)
  | 0x0B, [.name n] => .ok (.getSlave n)
  | 0x0C, [.handle h, .bytes bs, .bool stop] => .ok (.slaveWriteBlock h bs stop)
  | 0x0C, [.handle h, .bytes bs] => .ok (.slaveWriteBlock h bs true)
  | 0x0D, [.handle h, .count n] => .ok (.slaveReadBlock h n)
  | c, _ => if 1 ≤ c ∧ c ≤ 0x0D then .error (.mistypedArguments code) else .error (.badCode code)

/-- The decoder: total on everything that can be presented. -/
def decode (p : Params) : Presented → Except DecodeError Instr
  | .request code args => decodeRequest code args
  | .command v => decodeCommand p v

/-- The encoder: the code and arguments R61 gives a request; the byte R65 gives a command form. -/
def encode (p : Params) : Instr → Presented
  | .configure r => .request 0x01 [.ratio r]
  | .reset => .request 0x02 []
  | .sendWrite f b => .request 0x03 [.flags f, .byte b]
  | .sendRead f => .request 0x04 [.flags f]
  | .wait a i => .request 0x05 [.bool a, .bool i]
  | .writeBlock a bs stop => .request 0x06 [.addr a, .bytes bs, .bool stop]
  | .readBlock a n => .request 0x07 [.addr a, .count n]
  | .ping a => .request 0x08 [.addr a]
  | .scan => .request 0x09 []
  | .getSlaveAddress n => .request 0x0A [.name n]
  | .getSlave n => .request 0x0B [.name n]
  | .slaveWriteBlock h bs stop => .request 0x0C [.handle h, .bytes bs, .bool stop]
  | .slaveReadBlock h n => .request 0x0D [.handle h, .count n]
  | .cmdZero => .command 0
  | .cmdWrite sta sto ack => .command (writeCommand p { sta := sta, sto := sto, ack := ack })
  | .cmdRead sta sto ack => .command (readCommand p { sta := sta, sto := sto, ack := ack })

/-! ## The opcode table's own bits -/

/-- The operands a table row stands for, which gives them no bits: every operand zero, a list one zero byte long and a
count of one, since neither may be empty (R72, log entry 6). -/
def zeroArgs (code : Byte) : List Arg :=
  match code.toNat with
  | 0x01 => [.ratio 0]
  | 0x03 => [.flags {}, .byte 0]
  | 0x04 => [.flags {}]
  | 0x05 => [.bool false, .bool false]
  | 0x06 => [.addr 0, .bytes [0], .bool false]
  | 0x07 => [.addr 0, .count 1]
  | 0x08 => [.addr 0]
  | 0x0A => [.name ""]
  | 0x0B => [.name ""]
  | 0x0C => [.handle ⟨0, 0⟩, .bytes [0], .bool false]
  | 0x0D => [.handle ⟨0, 0⟩, .count 1]
  | _ => []

/-- What a table word presents: a byte from 0x01 to 0x0F is a request code, any other a command byte (the rows of the
two formats of the table do not overlap). -/
def presentedOfTable (w : Nat) : Presented :=
  let b := BitVec.ofNat 8 w
  if 1 ≤ b.toNat ∧ b.toNat ≤ 0x0F then .request b (zeroArgs b) else .command b

/-- The instruction the decoder reads from a word numbered as spec/opcode_table.json numbers it, with the default masks
the table's command rows are written in. Every row has 8 bits. -/
def decodeTableWord (nbits w : Nat) : Option Instr :=
  if nbits = 8 ∧ w < 256 then (decode Config.defaults (presentedOfTable w)).toOption else none

end Sys2Proof
end

