-- ==== Sys2Proof/Machine/Operands.lean ====
section
/-! DEFINITION. Machine/Operands.lean: the bytes and words the engine puts together and takes apart (30_encoding.md R68 to
R71, 20_memory.md R51), and the registers' numbers and access. -/

namespace Sys2Proof.Machine

/-- The `REG_WIDTH` bits of a value, as the Register Interface carries it (00_scope.md R6, R9; 20_memory.md R51). -/
def fitWord (p : Params) (n : Nat) : Word := n % 2 ^ p.regWidth

/-- A byte as the word that carries it: zero-extended, whatever `REG_WIDTH` is (20_memory.md R51). -/
def wordOfByte (b : Byte) : Word := b.toNat

/-- Bits [7:0] of a word, the only significant ones (R51; R71 for a received byte). -/
def lowByte (w : Word) : Byte := BitVec.ofNat 8 w

/-- The direction bit of an address byte: 1 for read. -/
def directionBit (read : Bool) : Byte := if read then 1 else 0

/-- `ADDR_BYTE(a, rw)` (30_encoding.md R68): the address shifted left by one, with the direction bit. -/
def addrByte (a : Addr7) (read : Bool) : Byte := a.setWidth 8 <<< 1 ||| directionBit read

/-- An address argument is a 7-bit address (30_encoding.md R72, D18). -/
def addrFits (a : Nat) : Bool := decide (a ≤ 0x7F)

/-- An address argument that has passed its range check, as an address. -/
def addrOfArg (a : Nat) : Addr7 := BitVec.ofNat 7 a

/-- Prescale bits [15:8], for `PS_HI` (R69, 20_memory.md R49). -/
def prescaleHigh (ps : Prescale) : Byte := ps.extractLsb' 8 8

/-- Prescale bits [7:0], for `PS_LO` (R69). -/
def prescaleLow (ps : Prescale) : Byte := ps.extractLsb' 0 8

/-- The latched prescale from the two words read back (R70): bits above bit 7 of either are discarded. -/
def latchedPrescale (hi lo : Word) : Prescale := (lowByte hi).setWidth 16 <<< 8 ||| (lowByte lo).setWidth 16

/-- The number of a register in the device's register memory, in the order of 10_state.md R28. -/
def regNumber : Reg → Nat
  | .psHi => 0
  | .psLo => 1
  | .ctrl => 2
  | .data => 3
  | .cmd => 4
  | .status => 5
  | .rxdata => 6

/-- The registers the engine may read (R28, column Engine access). -/
def engineReads : Reg → Bool
  | .psHi | .psLo | .ctrl | .status | .rxdata => true
  | .data | .cmd => false

/-- The registers the engine may write (R28). -/
def engineWrites : Reg → Bool
  | .psHi | .psLo | .ctrl | .data | .cmd => true
  | .status | .rxdata => false

/-- `REG_NAME_OF` (00_scope.md R6, 20_memory.md R47). -/
def portName (p : Params) : Reg → PortName
  | .psHi => p.regNames.psHi
  | .psLo => p.regNames.psLo
  | .ctrl => p.regNames.ctrl
  | .data => p.regNames.data
  | .cmd => p.regNames.cmd
  | .status => p.regNames.status
  | .rxdata => p.regNames.rxdata

/-- An applied operation as the Register Interface carries it, under the name it knows the register by (20_memory.md
R40, 92_eei_decisions.md D1). -/
def busView (p : Params) : Access → PortName × Option Word
  | .wrote r v => (portName p r, some v)
  | .answered r _ => (portName p r, none)

end Sys2Proof.Machine
end

