-- ==== Sys2Proof/Machine/Registry.lean ====
section
/-! DEFINITION. Machine/Registry.lean: the construction of the slave address registry (42_registry.md R115 to R118) and
of the slave handles (R121), on plain lists, before there is a machine. -/

namespace Sys2Proof.Machine

/-- The value of a list of decimal digits, read left to right after `acc`; none at the first character that is no
digit. -/
def digitsValue : List Char → Nat → Option Nat
  | [], acc => some acc
  | c :: cs, acc => if '0' ≤ c ∧ c ≤ '9' then digitsValue cs (10 * acc + (c.toNat - '0'.toNat)) else none

/-- `PARSE_UNSIGNED` (R116): a non-empty string of decimal digits whose value is below 2^32. -/
def parseUnsigned (s : String) : Option Nat :=
  match s.toList with
  | [] => none
  | cs =>
    match digitsValue cs 0 with
    | some v => if v < 2 ^ 32 then some v else none
    | none => none

/-- The parsed value masked and taken as an address: truncated, not rejected (R117). -/
def maskAddress (p : Params) (v : Nat) : Addr7 := BitVec.ofNat 7 (v &&& p.addrMask)

/-- The value a finite map holds for a key (a name, R119; a handle, 20_memory.md R44). -/
def lookup {κ α : Type} [DecidableEq κ] (k : κ) : List (κ × α) → Option α
  | [] => none
  | (m, a) :: rest => if m = k then some a else lookup k rest

/-- `reg[n] <- a`: a later entry of the same name overwrites (R118, 90_conflicts.md C2). -/
def insertEntry {α : Type} (n : DevName) (a : α) : List (DevName × α) → List (DevName × α)
  | [] => [(n, a)]
  | (m, b) :: rest => if m = n then (n, a) :: rest else (m, b) :: insertEntry n a rest

/-- The loop of `BUILD_REGISTRY` (R115) over parsed values, in the mapping's order. -/
def buildFrom (p : Params) (reg : List (DevName × Addr7)) : List (DevName × Nat) → List (DevName × Addr7)
  | [] => reg
  | (n, v) :: rest => buildFrom p (insertEntry n (maskAddress p v) reg) rest

/-- The registry of a mapping whose address strings have been parsed (R115). -/
def buildRegistry (p : Params) (mapping : List (DevName × Nat)) : List (DevName × Addr7) := buildFrom p [] mapping

/-- The address strings of a mapping parsed, or none at the first one R116 refuses. -/
def parseMapping : List (DevName × String) → Option (List (DevName × Nat))
  | [] => some []
  | (n, s) :: rest =>
    match parseUnsigned s, parseMapping rest with
    | some v, some more => some ((n, v) :: more)
    | _, _ => none

/-- One handle per registry entry, holding the Master and the entry's address (R115, R121). -/
def buildSlaves (p : Params) (reg : List (DevName × Addr7)) : List (DevName × SlaveHandle) :=
  reg.map fun e => (e.1, { master := p.masterId, addr := e.2 })

end Sys2Proof.Machine
end

