-- ==== Sys2Proof/Machine/State.lean ====
section
/-! DEFINITION. Machine/State.lean: every piece of state the spec gives the machine (10_state.md R20, R28), the outcomes
of an operation (00_scope.md R11), the faults and refusals of a step, and the state after construction (R37). -/

namespace Sys2Proof.Machine

/-! ## Outcomes and events -/

/-- The five error kinds (60_exceptions.md R125). -/
inductive ErrorKind where
  | arbitrationLost | transactionTimeout | noAcknowledgeReceived | transferFinishedBusStillBusy | deviceNotFound
deriving DecidableEq, Repr, Inhabited

/-- An error with its context: the device/bus identifier, and the requested name for DeviceNotFound (R132). -/
structure Err where
  kind   : ErrorKind
  master : Nat
  name   : Option DevName
deriving DecidableEq, Repr, Inhabited

/-- The result value of an operation (30_encoding.md R61, column Result). -/
inductive Val where
  | unit
  | byte (b : Byte)
  | bytes (bs : List Byte)
  | bool (b : Bool)
  | addrs (as : List Addr7)
  | addr (a : Addr7)
  | handle (h : SlaveHandle)
deriving DecidableEq, Repr, Inhabited

/-- What the caller receives at the response port: `Ok(v)` or `Err(kind, ctx)` (R11). The third outcome of R11,
`Fault(reason)`, ends the step itself. -/
inductive Reply where
  | ok (v : Val)
  | err (e : Err)
deriving DecidableEq, Repr, Inhabited

/-- One event of the trace (00_scope.md R12). -/
inductive Event where
  /-- `W(r, v)`: a `MemWrite` was enqueued (20_memory.md R41) -/
  | w (r : Reg) (v : Word)
  /-- `R(r) -> h`: a `MemRead` was enqueued (R42) -/
  | r (r : Reg) (h : Nat)
  /-- `C`: a `Commit`, with the values it resolved (R43) -/
  | c (resolved : List (Nat × Word))
  /-- `S`: a `Sleep` (70_reset_and_hazards.md R160) -/
  | s
deriving DecidableEq, Repr, Inhabited

/-- A pending Register Interface operation (10_state.md R20, field `queue`). -/
inductive QueueOp where
  | write (r : Reg) (v : Word)
  | read (r : Reg) (h : Nat)
deriving DecidableEq, Repr, Inhabited

/-! ## The sequencer position -/

/-- One operation in progress: the operation with its arguments, the line of its pseudocode about to execute, and the
locals that pseudocode binds (10_state.md R22). -/
structure Frame where
  op       : Instr
  line     : Nat
  /-- the handles the operation's `MemRead`s have bound, first first -/
  handles  : List Nat
  /-- `latched` of `RESET` -/
  latched  : Prescale
  /-- `i` of a block loop, `a` of `SCAN` -/
  index    : Nat
  /-- `c` of a block loop -/
  cmd      : Flags
  /-- `out` of `READ_BLOCK` -/
  outBytes : List Byte
  /-- `out` of `SCAN` -/
  outAddrs : List Addr7
  /-- what the operation called last has returned -/
  returned : Val
deriving DecidableEq, Repr, Inhabited

/-- `seq` (R22): idle, or an operation in progress with the stack of its callers, innermost first. -/
inductive Seq where
  | idle
  | running (top : Frame) (callers : List Frame)
deriving DecidableEq, Repr, Inhabited

/-- How much one step does: a whole request, or one line of the operation in progress (the model's own choice of
granularity, log entry 4). -/
inductive Pace where
  | whole | line
deriving DecidableEq, Repr, Inhabited

/-- What a caller presents at the request port, and whether the caller waits for the engine to be idle, as it must
(20_memory.md R57, 70_reset_and_hazards.md R158). -/
structure Presentation where
  what       : Presented
  serialized : Bool
deriving DecidableEq, Repr, Inhabited

/-- The device's registers: the byte last applied to each, by register number; strictly rising, nothing listed for a
register nothing has written. -/
abbrev Memory := List Host.Cell

/-! ## Why a step stops -/

/-- The model faults of 60_exceptions.md R137. Each stops the machine for good (R138), and each is safe: the model stops
where the source gives the case no meaning. -/
inductive Fault where
  /-- `F_PRECOND_WRITE_HAS_RD`: raised by `SEND_WRITE` when its flags hold read; safe -/
  | precondWriteHasRd
  /-- `F_PRECOND_READ_HAS_WR`: raised by `SEND_READ` when its flags hold write; safe -/
  | precondReadHasWr
  /-- `F_ADDR_RANGE`: raised by `WRITE_BLOCK`, `READ_BLOCK` and `PING` for an address above 0x7F; safe -/
  | addrRange
  /-- `F_EMPTY_BLOCK`: raised by `WRITE_BLOCK` for no bytes and `READ_BLOCK` for a count of 0; safe -/
  | emptyBlock
  /-- `F_BAD_REQUEST`: raised at the request port for a code outside R61; safe -/
  | badRequest
  /-- `F_BAD_ADDRESS_STRING`: raised by construction for a string R116 refuses; safe -/
  | badAddressString
  /-- `F_DEFERRED_READ`: raised by a line that uses a handle no commit has resolved; safe -/
  | deferredRead
  /-- `F_CONCURRENT_REQUEST`: raised at the request port when the sequencer is not idle; safe -/
  | concurrentRequest
  /-- `F_BAD_PARAMETER`: raised before anything runs for parameters R7 or R93 refuses; safe -/
  | badParameter
deriving DecidableEq, Repr, Inhabited

/-- Why a step has no meaning: none of these is an outcome of an operation the spec describes. -/
inductive Refusal where
  /-- an instruction whose arm in Dispatch.lean has no meaning yet; safe -/
  | notModelled (mnemonic : String)
  /-- raised at the request port when the arguments are not of the types R61 gives the code, which no typed caller can
  present; safe -/
  | mistypedArguments (code : Byte)
  /-- raised at the request port for a bare command byte that is none of the forms of R65; safe -/
  | notACommandByte (v : Byte)
  /-- raised by the sequencer at a position that is no line of any pseudocode, which no accepted request reaches; safe -/
  | noSuchLine (line : Nat)
deriving DecidableEq, Repr, Inhabited

/-! ## State -/

structure State where
  /-- the parameters of 00_scope.md R6, fixed for the machine -/
  params     : Params
  /-- `prescale` (10_state.md R21) -/
  prescale   : Prescale
  /-- `registry` (R25): names in order of first appearance, each once -/
  registry   : List (DevName × Addr7)
  /-- `slaves` (R26) -/
  slaves     : List (DevName × SlaveHandle)
  /-- `seq` (R22) -/
  seq        : Seq
  /-- `attempt` (R24) -/
  attempt    : Nat
  /-- `status` (R24) -/
  status     : Word
  /-- `queue` (R20): index 0 first -/
  queue      : List QueueOp
  /-- the values commits have resolved for this operation's handles (20_memory.md R42 to R44) -/
  resolved   : List (Nat × Word)
  /-- the next fresh handle of this operation (R42) -/
  nextHandle : Nat
  /-- the device's registers (10_state.md R28): the byte last applied to each -/
  regs       : Memory
  /-- every register operation the device has seen applied, oldest first (R30, 20_memory.md R43) -/
  history    : List Access
  /-- the trace of the operation in progress, or of the last one (00_scope.md R12), oldest event first -/
  trace      : List Event
  /-- the response port: the outcome of the last operation, none while none has been delivered (R11) -/
  response   : Option Reply
  /-- the request port: what callers will present, next first (92_eei_decisions.md D1; the model's own) -/
  port       : List Presentation
  /-- answers the device will give, next first, of which the Register Interface carries `REG_WIDTH` bits (R30; the model's
  own, log entry 2) -/
  answers    : List Nat
  /-- how many answers have been drawn beyond `answers` (the model's own counter) -/
  draws      : Nat
  /-- how many times `attempt` and `status` have become undefined (R24; the model's own counter, log entry 8) -/
  frees      : Nat
  /-- how much one step does (the model's own, log entry 4) -/
  pace       : Pace
deriving DecidableEq, Repr

/-- A free value of `attempt`, within the range R20 gives the field: 1 to `MAX_RETRY` + 1. -/
def freeAttempt (p : Params) (k : Nat) : Nat := 1 + Config.freeAttempt k % (p.maxRetry + 1)

/-- A free value of `status`: a word of `REG_WIDTH` bits. -/
def freeStatus (p : Params) (k : Nat) : Word := fitWord p (Config.freeStatus k)

/-- The engine constructed with a prescale and a registry (R37, R150): no register operation (R151). -/
def State.constructed (p : Params) (prescale : Prescale) (registry : List (DevName × Addr7)) : State :=
  { params := p, prescale := prescale, registry := registry, slaves := buildSlaves p registry, seq := .idle,
    attempt := freeAttempt p 0, status := freeStatus p 0, queue := [], resolved := [],
    nextHandle := 1, regs := [], history := [], trace := [], response := none, port := [], answers := [], draws := 0,
    frees := 1, pace := .whole }

/-- The machine right after construction with the default parameters, any ratio and any mapping (R37, R150). -/
def State.reset : State :=
  State.constructed Config.defaults (Config.prescaleOf Config.targetFrequencyRatio)
    (buildRegistry Config.defaults Config.parsedMapping)

end Sys2Proof.Machine
end

