-- ==== Sys2Proof/Machine/Flags.lean ====
section
/-! DEFINITION. Machine/Flags.lean: the four status flags (10_state.md R33), the properties the masks must have (00_scope.md
R7), and the codes of the error kinds (60_exceptions.md R125). -/

namespace Sys2Proof.Machine

/-- A status word has a bit of a mask set (the masks lie in its low 8 bits, R7). -/
def statusBit (w : Word) (mask : Byte) : Bool := w &&& wordOfByte mask != 0

/-- `receivedAck(s)`, of inverted polarity: the bit clear means ACK received (R33). -/
def receivedAck (p : Params) (w : Word) : Bool := !statusBit w p.stRxack

/-- `busy(s)` (R33). -/
def busBusy (p : Params) (w : Word) : Bool := statusBit w p.stBusy

/-- `arbLost(s)` (R33). -/
def arbLost (p : Params) (w : Word) : Bool := statusBit w p.stAl

/-- `inProgress(s)` (R33). -/
def inProgress (p : Params) (w : Word) : Bool := statusBit w p.stTip

/-- A mask is a single bit of its byte. -/
def isSingleBit (m : Byte) : Bool := m != 0 && m &&& (m - 1) == 0

/-- No mask stands twice in the list. -/
def allDistinct : List Byte → Bool
  | [] => true
  | m :: ms => !ms.contains m && allDistinct ms

/-- The masks of one register: single bits, pairwise distinct (R7). -/
def goodMasks (ms : List Byte) : Bool := ms.all isSingleBit && allDistinct ms

/-- The parameters a model may take: the masks as R7 requires, `MAX_RETRY` at least 1 (40_primitives.md R93), and
`REG_WIDTH` at least 8 (92_eei_decisions.md D2; log entry 1). -/
def paramsValid (p : Params) : Bool :=
  goodMasks [p.cmdSta, p.cmdSto, p.cmdRd, p.cmdWr, p.cmdAck] && goodMasks [p.stRxack, p.stBusy, p.stAl, p.stTip] &&
    decide (1 ≤ p.maxRetry) && decide (8 ≤ p.regWidth)

/-- The spec's code of an error kind; 0 means no error (R125). -/
def errorCode : ErrorKind → Nat
  | .arbitrationLost => 1
  | .transactionTimeout => 2
  | .noAcknowledgeReceived => 3
  | .transferFinishedBusStillBusy => 4
  | .deviceNotFound => 5

/-- The kinds that are bus errors (R125, 90_conflicts.md C4). -/
def isBusError : ErrorKind → Bool
  | .deviceNotFound => false
  | .arbitrationLost | .transactionTimeout | .noAcknowledgeReceived | .transferFinishedBusStillBusy => true

/-- The code a response carries: 0 for a success. -/
def replyCode : Reply → Nat
  | .ok _ => 0
  | .err e => errorCode e.kind

end Sys2Proof.Machine
end

