-- ==== Sys2Proof/Machine/Ops.lean ====
section
/-! DEFINITION. Machine/Ops.lean: the operations every instruction is made of: the device's register memory, the Register
Interface primitives of 20_memory.md, the sleep, accepting a request, raising an error and catching it (60_exceptions.md
R130, R134), and delivering an outcome. -/

namespace Sys2Proof.Machine

/-! ## The device's register memory -/

/-- The byte listed for an address; none where nothing is listed. -/
def Memory.read : Memory → Nat → Option Byte
  | [], _ => none
  | (b, v) :: rest, a => if b = a then some v else Memory.read rest a

/-- Lists a byte for an address, keeping the addresses strictly rising. -/
def Memory.write : Memory → Nat → Byte → Memory
  | [], a, v => [(a, v)]
  | (b, w) :: rest, a, v =>
    if a < b then (a, v) :: (b, w) :: rest
    else if a = b then (a, v) :: rest
    else (b, w) :: Memory.write rest a v

/-- Every address of the list is above a bound. -/
def Memory.above : Memory → Nat → Bool
  | [], _ => true
  | (b, _) :: rest, a => decide (a < b) && Memory.above rest a

/-- The canonical form: addresses strictly rising. (An unlisted address reads as no value, so no entry can equal it.) -/
def Memory.wf : Memory → Bool
  | [] => true
  | (b, _) :: rest => Memory.above rest b && Memory.wf rest

/-- The byte last applied to a register of the device (10_state.md R28); none if nothing has been applied (R38). -/
def State.regByte (s : State) (r : Reg) : Option Byte := Memory.read s.regs (regNumber r)

/-! ## The Register Interface -/

/-- `MemWrite(r, 1, v)` (20_memory.md R41): enqueues, records, and has no other effect. -/
def State.memWrite (s : State) (r : Reg) (v : Word) : State :=
  { s with queue := s.queue ++ [.write r v], trace := s.trace ++ [.w r v] }

/-- `h <- MemRead(r, 1)` (R42): the state after (a handle is a number); the fresh handle it binds is `s.nextHandle`. -/
def State.memRead (s : State) (r : Reg) : State :=
  { s with queue := s.queue ++ [.read r s.nextHandle], trace := s.trace ++ [.r r s.nextHandle],
           nextHandle := s.nextHandle + 1 }

/-- The device applies the write of `v` to `r` (R43): it latches the significant byte (R51). -/
def State.applyWrite (s : State) (r : Reg) (v : Word) : State :=
  { s with regs := Memory.write s.regs (regNumber r) (lowByte v), history := s.history ++ [.wrote r v] }

/-- What the device answers to a read of `r` now: any word (10_state.md R30) of `REG_WIDTH` bits (20_memory.md R51), never
the byte last written. -/
def State.nextAnswer (s : State) (r : Reg) : Word :=
  fitWord s.params
    (match s.answers with
     | w :: _ => w
     | [] => Config.deviceAnswer s.history r s.draws)

/-- The device has answered a read of `r` (R43). -/
def State.takeAnswer (s : State) (r : Reg) : State :=
  { s with answers := s.answers.tail, draws := if s.answers.isEmpty then s.draws + 1 else s.draws,
           history := s.history ++ [.answered r (s.nextAnswer r)] }

/-- The loop of `Commit` (R43): applies operations in order; the state after, and the values resolved in order. -/
def applyAll : List QueueOp → State → State × List (Nat × Word)
  | [], s => (s, [])
  | .write r v :: ops, s => applyAll ops (s.applyWrite r v)
  | .read r h :: ops, s =>
    ((applyAll ops (s.takeAnswer r)).1, (h, s.nextAnswer r) :: (applyAll ops (s.takeAnswer r)).2)

/-- `Commit()` (R43), the only ordering point (R56). -/
def State.commit (s : State) : State :=
  { (applyAll s.queue s).1 with
    queue := [],
    resolved := (applyAll s.queue s).1.resolved ++ (applyAll s.queue s).2,
    trace := (applyAll s.queue s).1.trace ++ [.c (applyAll s.queue s).2] }

/-- `val(h)` (R44): the word a commit has resolved for the handle, none before that commit. -/
def State.resolvedValue (s : State) (h : Nat) : Option Word := lookup h s.resolved

/-- `val(h)` where the operation's own order has the commit before the use (R156). A handle no commit has resolved would
give an uninterpreted word here; the sequencer faults on it (Machine/Sequencer.lean). -/
def State.val (s : State) (h : Nat) : Word :=
  (s.resolvedValue h).getD (fitWord s.params (Config.unresolvedValue h))

/-- `Sleep()` (70_reset_and_hazards.md R160): records its event and has no other effect. -/
def State.sleep (s : State) : State := { s with trace := s.trace ++ [.s] }

/-- A write of a byte, committed at once. -/
def State.writeCommitted (s : State) (r : Reg) (b : Byte) : State := (s.memWrite r (wordOfByte b)).commit

/-! ## The engine's own fields -/

/-- `x.prescale <- v` (10_state.md R21). -/
def State.setPrescale (s : State) (v : Prescale) : State := { s with prescale := v }

/-- `x.attempt <- n` (R24). -/
def State.setAttempt (s : State) (n : Nat) : State := { s with attempt := n }

/-- `x.status <- w` (R24). -/
def State.setStatus (s : State) (w : Word) : State := { s with status := w }

/-- `attempt` and `status` become undefined (R24): a fresh free value each. -/
def State.undefine (s : State) : State :=
  { s with attempt := freeAttempt s.params s.frees, status := freeStatus s.params s.frees, frees := s.frees + 1 }

/-- `seq <- q` (R22). -/
def State.setSeq (s : State) (q : Seq) : State := { s with seq := q }

/-! ## Accepting a request and delivering its outcome -/

/-- `seq == Idle`. -/
def Seq.isIdle : Seq → Bool
  | .idle => true
  | .running _ _ => false

/-- A request is accepted (10_state.md R23): its trace, its handles and its response begin empty; nothing of the
operation before it persists, `attempt` and `status` neither (R20, R24). -/
def State.accept (s : State) : State :=
  { s.undefine with trace := [], resolved := [], nextHandle := 1, response := none }

/-- A request runs only on a configuration the model takes (R7, R93) and an idle sequencer (R23). -/
def whenReady (s : State) (k : State → Host.Outcome State Fault Refusal) : Host.Outcome State Fault Refusal :=
  if paramsValid s.params then
    if s.seq.isIdle then k s.accept else .fault .concurrentRequest
  else .fault .badParameter

/-- The outcome is delivered on the response port and the sequencer is idle (R22, 60_exceptions.md R140). -/
def State.finish (s : State) (reply : Reply) : State := { s with seq := .idle, response := some reply }

/-! ## Operations that may raise -/

/-- An operation in progress: the state, and its value or the error it has raised. -/
abbrev Run (α : Type) := State × Except Err α

/-- `return v` of an operation. -/
def returning {α : Type} (s : State) (a : α) : Run α := (s, .ok a)

/-- `raise E(MASTER_ID)` (60_exceptions.md R130, R132): the operation ends here; nothing else changes (R136). -/
def raising {α : Type} (s : State) (kind : ErrorKind) : Run α :=
  (s, .error { kind := kind, master := s.params.masterId, name := none })

/-- `raise DeviceNotFound(MASTER_ID, n)` (R131, R132). -/
def raisingNotFound {α : Type} (s : State) (n : DevName) : Run α :=
  (s, .error { kind := .deviceNotFound, master := s.params.masterId, name := some n })

/-- What follows an operation called: an error it raised ends the caller too (R130). -/
def andThen {α β : Type} (r : Run α) (k : State → α → Run β) : Run β :=
  match r with
  | (s, .ok a) => k s a
  | (s, .error e) => (s, .error e)

/-- `waitUntilFinished` is left, by its return or by a raise: `attempt` and `status` are undefined outside it (R24). -/
def leavingWait {α : Type} (r : Run α) : Run α := (r.1.undefine, r.2)

/-- `try … catch BusError` (R134): the four bus errors stop here and the handler runs; any other passes through. -/
def catchBusError {α : Type} (r : Run α) (handler : State → Run α) : Run α :=
  match r with
  | (s, .error e) => if isBusError e.kind then handler s else (s, .error e)
  | (s, .ok a) => (s, .ok a)

/-- The outcome of an operation as the caller receives it (00_scope.md R11). -/
def replyOf {α : Type} (wrap : α → Val) : Except Err α → Reply
  | .ok a => .ok (wrap a)
  | .error e => .err e

/-- The outermost operation ends: its outcome is delivered. -/
def respond {α : Type} (wrap : α → Val) (r : Run α) : State := r.1.finish (replyOf wrap r.2)

/-- The result value of an operation that returns nothing. -/
def unitVal (_ : Unit) : Val := .unit

/-! ## What the device has seen -/

/-- A word written to `CMD` starts a bus operation: it has the read or the write mask set (20_memory.md R53). -/
def startsBusOperation (p : Params) (v : Word) : Bool := statusBit v p.cmdRd || statusBit v p.cmdWr

/-- The command words applied to `CMD` that started a bus operation, oldest first. -/
def busOperations (p : Params) (history : List Access) : List Word :=
  history.filterMap fun a =>
    match a with
    | .wrote .cmd v => if startsBusOperation p v then some v else none
    | _ => none

/-- Whether the last transaction begun has not been ended: it begins with the command carrying start and ends with the
command carrying stop (41_transactions.md R104). The engine keeps no such record (10_state.md R20). DESIGN CHOICE (log
entry 39): it is ended once the command carrying stop is written, though that command itself ends in an error, after which
70_reset_and_hazards.md R159 has the device perhaps still hold the bus. -/
def transactionOpen (p : Params) (history : List Access) : Bool :=
  (busOperations p history).foldl
    (fun isOpen v => if statusBit v p.cmdSto then false else if statusBit v p.cmdSta then true else isOpen) false

/-- The core-enable state as the engine last wrote it (10_state.md R29); none if it never has. -/
def coreEnabled (s : State) : Option Bool := (s.regByte .ctrl).map fun b => decide (b = s.params.ctrlEnable)

end Sys2Proof.Machine
end

