-- ==== Sys2Proof/Machine/Commands.lean ====
section
/-! DEFINITION. Machine/Commands.lean: the meanings of the three command-byte rows, CMD_ZERO, CMD_WRITE and CMD_READ: the
byte reaches the device's command register by one committed write (10_state.md R31, 20_memory.md R53). A command byte is
no request: it has no outcome (log entry 5). -/

namespace Sys2Proof.Machine

/-- One command byte written to `CMD` and committed. -/
def commandOp (v : Byte) (s : State) : State := s.writeCommitted .cmd v

/-- The meaning of `CMD_ZERO`: the byte 0, which starts no bus operation (30_encoding.md R65, 20_memory.md R53). -/
def execCmdZero (s : State) : Host.Outcome State Fault Refusal := whenReady s fun s => .next (commandOp 0 s)

/-- The meaning of `CMD_WRITE`: start, stop and ack as given, write forced on (30_encoding.md R63). -/
def execCmdWrite (sta sto ack : Bool) (s : State) : Host.Outcome State Fault Refusal :=
  whenReady s fun s => .next (commandOp (writeCommand s.params { sta := sta, sto := sto, ack := ack }) s)

/-- The meaning of `CMD_READ`: start, stop and ack as given, read forced on (30_encoding.md R64). -/
def execCmdRead (sta sto ack : Bool) (s : State) : Host.Outcome State Fault Refusal :=
  whenReady s fun s => .next (commandOp (readCommand s.params { sta := sta, sto := sto, ack := ack }) s)

end Sys2Proof.Machine
end

