-- ==== Sys2Proof/Machine/Primitives.lean ====
section
/-! DEFINITION. Machine/Primitives.lean: the operations of 40_primitives.md and the meanings of their requests:
CONFIGURE, RESET, SEND_WRITE, SEND_READ, WAIT. -/

namespace Sys2Proof.Machine

/-! ## configure -/

/-- `CONFIGURE(ratio)` (R80): stores the prescale; no register operation. -/
def configureOp (ratio : Ratio) (s : State) : Run Unit :=
  returning (s.setPrescale (Config.prescaleOf ratio)) ()

/-- The meaning of `CONFIGURE` (R80). -/
def execConfigure (ratio : Ratio) (s : State) : Host.Outcome State Fault Refusal :=
  whenReady s fun s => .next (respond unitVal (configureOp ratio s))

/-! ## reset -/

/-- Zeroes the data register, then the command register, in one commit (R83 step 3, R84). -/
def zeroDataAndCommand (s : State) : State := ((s.memWrite .data 0).memWrite .cmd 0).commit

/-- The FULL path (R83, R155): disable, prescale high and low, zero, enable, a commit after each step. -/
def fullReset (s : State) : State :=
  let s := s.writeCommitted .ctrl s.params.ctrlDisable
  let s := ((s.memWrite .psHi (wordOfByte (prescaleHigh s.prescale))).memWrite .psLo
    (wordOfByte (prescaleLow s.prescale))).commit
  let s := zeroDataAndCommand s
  s.writeCommitted .ctrl s.params.ctrlEnable

/-- The three reads of `RESET`, in one batched commit (R81): prescale high, prescale low, control. -/
def resetReads (s : State) : State := (((s.memRead .psHi).memRead .psLo).memRead .ctrl).commit

/-- `RESET()` (R81): FULL if and only if the latched prescale differs (R82); the word read from `CTRL` is not used. -/
def resetOp (s : State) : Run Unit :=
  let r := resetReads s
  let latched := latchedPrescale (r.val s.nextHandle) (r.val (s.nextHandle + 1))
  returning (if latched = r.prescale then zeroDataAndCommand r else fullReset r) ()

/-- The meaning of `RESET` (R81). -/
def execReset (s : State) : Host.Outcome State Fault Refusal :=
  whenReady s fun s => .next (respond unitVal (resetOp s))

/-! ## waitUntilFinished -/

/-- One attempt's sleep and status read (R88): the word read is in `status`. -/
def pollOnce (s : State) : State :=
  let r := (s.sleep.memRead .status).commit
  r.setStatus (r.val s.nextHandle)

/-- The poll loop (R88 to R90) with a number of attempts left: arbitration lost is tested first (R89), then progress;
no attempt left is a timeout (R90). -/
def pollLoop : Nat → State → Run Unit
  | 0, s => raising s .transactionTimeout
  | left + 1, s =>
    let r := pollOnce s
    if arbLost r.params r.status then raising r .arbitrationLost
    else if inProgress r.params r.status then pollLoop left (r.setAttempt (r.attempt + 1))
    else returning r ()

/-- The post-conditions, on the status of the last poll (R91): acknowledge first, then bus idle. -/
def postConditions (reqAck reqIdle : Bool) (s : State) : Run Unit :=
  if reqAck && !receivedAck s.params s.status then raising s .noAcknowledgeReceived
  else if reqIdle && busBusy s.params s.status then raising s .transferFinishedBusStillBusy
  else returning s ()

/-- The lines of `WAIT` (R88): the poll loop from attempt 1, then the post-conditions. -/
def waitBody (reqAck reqIdle : Bool) (s : State) : Run Unit :=
  andThen (pollLoop s.params.maxRetry (s.setAttempt 1)) fun s _ => postConditions reqAck reqIdle s

/-- `WAIT(reqAck, reqIdle)` (R88): its lines; what they leave in `attempt` and `status` is undefined after them (10_state.md
R24). -/
def waitOp (reqAck reqIdle : Bool) (s : State) : Run Unit := leavingWait (waitBody reqAck reqIdle s)

/-- The meaning of `WAIT` (R88). -/
def execWait (reqAck reqIdle : Bool) (s : State) : Host.Outcome State Fault Refusal :=
  whenReady s fun s => .next (respond unitVal (waitOp reqAck reqIdle s))

/-! ## sendCommandAndWriteData -/

/-- `SEND_WRITE(cmd, data)` after its precondition (R86): data, then command, one commit, then the wait. -/
def sendWriteOp (cmd : Flags) (data : Byte) (s : State) : Run Unit :=
  waitOp true cmd.sto
    ((s.memWrite .data (wordOfByte data)).memWrite .cmd (wordOfByte (writeCommand s.params cmd))).commit

/-- The meaning of `SEND_WRITE` (R86): the read flag is refused before any register operation (R72). -/
def execSendWrite (cmd : Flags) (data : Byte) (s : State) : Host.Outcome State Fault Refusal :=
  whenReady s fun s =>
    if cmd.rd then .fault .precondWriteHasRd else .next (respond unitVal (sendWriteOp cmd data s))

/-! ## sendCommandAndReadData -/

/-- The received byte, read after the wait (R87, 30_encoding.md R71). -/
def readReceived (s : State) : Run Byte :=
  let r := (s.memRead .rxdata).commit
  returning r (lowByte (r.val s.nextHandle))

/-- `SEND_READ(cmd)` after its precondition (R87): no acknowledge is required; bus idle is required when the command
carries stop and `READ_IDLE_ON_STOP` holds (D12). -/
def sendReadOp (cmd : Flags) (s : State) : Run Byte :=
  andThen
    (waitOp false (s.params.readIdleOnStop && cmd.sto) (s.writeCommitted .cmd (readCommand s.params cmd)))
    fun s _ => readReceived s

/-- The meaning of `SEND_READ` (R87): the write flag is refused before any register operation (R72). -/
def execSendRead (cmd : Flags) (s : State) : Host.Outcome State Fault Refusal :=
  whenReady s fun s =>
    if cmd.wr then .fault .precondReadHasWr else .next (respond Val.byte (sendReadOp cmd s))

end Sys2Proof.Machine
end

