-- ==== Sys2Proof/Machine/Transactions.lean ====
section
/-! DEFINITION. Machine/Transactions.lean: the operations of 41_transactions.md and the meanings of their requests:
WRITE_BLOCK, READ_BLOCK, PING, SCAN. -/

namespace Sys2Proof.Machine

/-- `CMD_STA` alone: the command of every address byte. -/
def startFlags : Flags := { sta := true }

/-- `CMD_STO | CMD_ACK`: the command of the last byte of a read. -/
def lastReadFlags : Flags := { sto := true, ack := true }

/-! ## writeBlock -/

/-- The command of a data byte: stop on the last one only, and only if `sendStop` (R100). -/
def writeByteFlags (isLast sendStop : Bool) : Flags := { sto := isLast && sendStop }

/-- The loop of `WRITE_BLOCK` (R100) over the bytes left, index 0 first (20_memory.md R50). -/
def writeBytes (sendStop : Bool) : List Byte → State → Run Unit
  | [], s => returning s ()
  | b :: rest, s => andThen (sendWriteOp (writeByteFlags rest.isEmpty sendStop) b s) fun s _ => writeBytes sendStop rest s

/-- `WRITE_BLOCK(a, bytes, sendStop)` after its argument checks (R100). -/
def writeBlockOp (a : Addr7) (bytes : List Byte) (sendStop : Bool) (s : State) : Run Unit :=
  andThen (resetOp s) fun s _ =>
    andThen (sendWriteOp startFlags (addrByte a false) s) fun s _ => writeBytes sendStop bytes s

/-- The argument checks of a block request (60_exceptions.md R133): the address first, then the length. -/
def whenBlockArgs (addr : Nat) (isEmpty : Bool) (k : Addr7 → Host.Outcome State Fault Refusal) :
    Host.Outcome State Fault Refusal :=
  if addrFits addr then if isEmpty then .fault .emptyBlock else k (addrOfArg addr) else .fault .addrRange

/-- The meaning of `WRITE_BLOCK` (R100). -/
def execWriteBlock (addr : Nat) (bytes : List Byte) (sendStop : Bool) (s : State) : Host.Outcome State Fault Refusal :=
  whenReady s fun s =>
    whenBlockArgs addr bytes.isEmpty fun a => .next (respond unitVal (writeBlockOp a bytes sendStop s))

/-! ## readBlock -/

/-- The command of a byte read: stop and ack on the last one only (R101). -/
def readByteFlags (isLast : Bool) : Flags := if isLast then lastReadFlags else {}

/-- The loop of `READ_BLOCK` (R101) with a number of bytes left and the bytes read so far; the i-th byte received stands
at index i (20_memory.md R50). -/
def readBytes : Nat → List Byte → State → Run (List Byte)
  | 0, out, s => returning s out
  | left + 1, out, s => andThen (sendReadOp (readByteFlags (left == 0)) s) fun s b => readBytes left (out ++ [b]) s

/-- `READ_BLOCK(a, count)` after its argument checks (R101). -/
def readBlockOp (a : Addr7) (count : Nat) (s : State) : Run (List Byte) :=
  andThen (resetOp s) fun s _ =>
    andThen (sendWriteOp startFlags (addrByte a true) s) fun s _ => readBytes count [] s

/-- The meaning of `READ_BLOCK` (R101). -/
def execReadBlock (addr count : Nat) (s : State) : Host.Outcome State Fault Refusal :=
  whenReady s fun s => whenBlockArgs addr (count == 0) fun a => .next (respond Val.bytes (readBlockOp a count s))

/-! ## ping -/

/-- The body of `PING`'s `try` (R102): the byte read is discarded. -/
def pingBody (a : Addr7) (s : State) : Run Bool :=
  andThen (sendWriteOp startFlags (addrByte a true) s) fun s _ =>
    andThen (sendReadOp lastReadFlags s) fun s _ => returning s true

/-- `PING(a)` after its argument check (R102): every bus error becomes false, and the handler runs nothing (R141). -/
def pingOp (a : Addr7) (s : State) : Run Bool := catchBusError (pingBody a s) fun s => returning s false

/-- The meaning of `PING` (R102). -/
def execPing (addr : Nat) (s : State) : Host.Outcome State Fault Refusal :=
  whenReady s fun s =>
    if addrFits addr then .next (respond Val.bool (pingOp (addrOfArg addr) s)) else .fault .addrRange

/-! ## scan -/

/-- The loop of `SCAN` (R103) over the addresses left and those found so far; a failed ping is not repeated
(60_exceptions.md R135). -/
def scanLoop : List Nat → List Addr7 → State → Run (List Addr7)
  | [], out, s => returning s out
  | a :: rest, out, s =>
    andThen (pingOp (addrOfArg a) s) fun s found => scanLoop rest (if found then out ++ [addrOfArg a] else out) s

/-- `SCAN()` (R103): the addresses 0 to `SCAN_LAST`, ascending. -/
def scanOp (s : State) : Run (List Addr7) := scanLoop (List.range (s.params.scanLast.toNat + 1)) [] s

/-- The meaning of `SCAN` (R103). -/
def execScan (s : State) : Host.Outcome State Fault Refusal :=
  whenReady s fun s => .next (respond Val.addrs (scanOp s))

end Sys2Proof.Machine
end

