-- ==== Sys2Proof/Machine/Lookups.lean ====
section
/-! DEFINITION. Machine/Lookups.lean: the registry lookups and the slave handles of 42_registry.md, and the meanings of
GET_SLAVE_ADDRESS, GET_SLAVE, SLAVE_WRITE_BLOCK and SLAVE_READ_BLOCK. -/

namespace Sys2Proof.Machine

/-- `GET_SLAVE_ADDRESS(n)` (R119): the registered address, or DeviceNotFound; no register operation (R124). -/
def getSlaveAddressOp (n : DevName) (s : State) : Run Addr7 :=
  match lookup n s.registry with
  | some a => returning s a
  | none => raisingNotFound s n

/-- The meaning of `GET_SLAVE_ADDRESS` (R119). -/
def execGetSlaveAddress (n : DevName) (s : State) : Host.Outcome State Fault Refusal :=
  whenReady s fun s => .next (respond Val.addr (getSlaveAddressOp n s))

/-- `GET_SLAVE(n)` (R120): the handle of the entry, or DeviceNotFound; no register operation (R124). -/
def getSlaveOp (n : DevName) (s : State) : Run SlaveHandle :=
  match lookup n s.slaves with
  | some h => returning s h
  | none => raisingNotFound s n

/-- The meaning of `GET_SLAVE` (R120). -/
def execGetSlave (n : DevName) (s : State) : Host.Outcome State Fault Refusal :=
  whenReady s fun s => .next (respond Val.handle (getSlaveOp n s))

/-- The meaning of `SLAVE_WRITE_BLOCK` (R122): the write block at the handle's address. -/
def execSlaveWriteBlock (h : SlaveHandle) (bytes : List Byte) (sendStop : Bool) (s : State) :
    Host.Outcome State Fault Refusal :=
  execWriteBlock h.addr.toNat bytes sendStop s

/-- The meaning of `SLAVE_READ_BLOCK` (R122): the read block at the handle's address. -/
def execSlaveReadBlock (h : SlaveHandle) (count : Nat) (s : State) : Host.Outcome State Fault Refusal :=
  execReadBlock h.addr.toNat count s

end Sys2Proof.Machine
end

