-- ==== Sys2Proof/Machine/Dispatch.lean ====
section
/-! DEFINITION. Machine/Dispatch.lean: one arm per instruction. -/

namespace Sys2Proof.Machine

def exec (i : Instr) (s : State) : Host.Outcome State Fault Refusal :=
  match i with
  -- 40_primitives.md
  | .configure ratio => Sys2Proof.Machine.execConfigure ratio s
  | .reset => Sys2Proof.Machine.execReset s
  | .sendWrite cmd data => Sys2Proof.Machine.execSendWrite cmd data s
  | .sendRead cmd => Sys2Proof.Machine.execSendRead cmd s
  | .wait reqAck reqIdle => Sys2Proof.Machine.execWait reqAck reqIdle s
  -- 41_transactions.md
  | .writeBlock addr bytes sendStop => Sys2Proof.Machine.execWriteBlock addr bytes sendStop s
  | .readBlock addr count => Sys2Proof.Machine.execReadBlock addr count s
  | .ping addr => Sys2Proof.Machine.execPing addr s
  | .scan => Sys2Proof.Machine.execScan s
  -- 42_registry.md
  | .getSlaveAddress name => Sys2Proof.Machine.execGetSlaveAddress name s
  | .getSlave name => Sys2Proof.Machine.execGetSlave name s
  | .slaveWriteBlock handle bytes sendStop => Sys2Proof.Machine.execSlaveWriteBlock handle bytes sendStop s
  | .slaveReadBlock handle count => Sys2Proof.Machine.execSlaveReadBlock handle count s
  -- 30_encoding.md R65
  | .cmdZero => Sys2Proof.Machine.execCmdZero s
  | .cmdWrite sta sto ack => Sys2Proof.Machine.execCmdWrite sta sto ack s
  | .cmdRead sta sto ack => Sys2Proof.Machine.execCmdRead sta sto ack s

end Sys2Proof.Machine
end

