-- ==== Sys2Proof/Machine/Sequencer.lean ====
section
/-! DEFINITION. Machine/Sequencer.lean: the same operations one line of pseudocode at a time (10_state.md R22): a line
moves the sequencer position, a call pushes the callee at its first line, a return pops it, an error unwinds to the
nearest catch (60_exceptions.md R130, R141). Line numbers count the lines of each operation's pseudocode from 0. -/

namespace Sys2Proof.Machine

/-! ## Moving the position -/

/-- An operation at its first line. -/
def startFrame (op : Instr) : Frame :=
  { op := op, line := 0, handles := [], latched := 0, index := 0, cmd := {}, outBytes := [], outAddrs := [],
    returned := .unit }

/-- The operation goes on at a line. -/
def State.goTo (s : State) (f : Frame) (callers : List Frame) (line : Nat) : State :=
  s.setSeq (.running { f with line := line } callers)

/-- The operation calls another and will go on at `line` when it returns. -/
def State.callOp (s : State) (f : Frame) (callers : List Frame) (line : Nat) (op : Instr) : State :=
  s.setSeq (.running (startFrame op) ({ f with line := line } :: callers))

/-- `return v`: to the caller's frame, or, from the outermost operation, to the response port (R22). -/
def State.returnTo (s : State) (v : Val) : List Frame → State
  | [] => s.finish (.ok v)
  | f :: callers => s.setSeq (.running { f with returned := v } callers)

/-- The line of `PING` its catch handler stands at. -/
def pingHandlerLine : Nat := 4

/-- A caller that catches an error: `PING`, whose calls all stand in its `try`, for a bus error (R134). -/
def catches (e : Err) (f : Frame) : Bool :=
  match f.op with
  | .ping _ => isBusError e.kind
  | _ => false

/-- `raise E` (R130): every level ends up to the nearest one that catches; if none does, the caller receives it. -/
def State.unwind (s : State) (e : Err) : List Frame → State
  | [] => s.finish (.err e)
  | f :: callers => if catches e f then s.goTo f callers pingHandlerLine else s.unwind e callers

/-- `raise E(MASTER_ID)` at a line. -/
def State.raiseAt (s : State) (kind : ErrorKind) (callers : List Frame) : State :=
  s.unwind { kind := kind, master := s.params.masterId, name := none } callers

/-- `val(h)` at a line: a handle no commit has resolved is fault `F_DEFERRED_READ` (20_memory.md R44). -/
def withVal (s : State) (h : Nat) (k : Word → Host.Outcome State Fault Refusal) : Host.Outcome State Fault Refusal :=
  match s.resolvedValue h with
  | some w => k w
  | none => .fault .deferredRead

/-- A `MemRead` at a line: the handle is bound in the frame. -/
def State.readAt (s : State) (f : Frame) (callers : List Frame) (line : Nat) (r : Reg) : State :=
  (s.memRead r).goTo { f with handles := f.handles ++ [s.nextHandle] } callers line

/-- A position that is no line of the operation. -/
def noLine (f : Frame) : Host.Outcome State Fault Refusal := .refused (.noSuchLine f.line)

/-! ## The lines of each operation -/

/-- `CONFIGURE` (40_primitives.md R80). -/
def lineConfigure (ratio : Ratio) (f : Frame) (cs : List Frame) (s : State) : Host.Outcome State Fault Refusal :=
  match f.line with
  | 0 => .next ((s.setPrescale (Config.prescaleOf ratio)).goTo f cs 1)
  | 1 => .next (s.returnTo .unit cs)
  | _ => noLine f

/-- `RESET` (R81): 0 to 3 the batched reads, 4 `latched`, 5 the choice of path, 6 to 15 FULL, 16 to 18 LIGHT, 19 return. -/
def lineReset (f : Frame) (cs : List Frame) (s : State) : Host.Outcome State Fault Refusal :=
  match f.line with
  | 0 => .next (s.readAt f cs 1 .psHi)
  | 1 => .next (s.readAt f cs 2 .psLo)
  | 2 => .next (s.readAt f cs 3 .ctrl)
  | 3 => .next (s.commit.goTo f cs 4)
  | 4 =>
    match f.handles with
    | hHi :: hLo :: _ =>
      withVal s hHi fun hi => withVal s hLo fun lo => .next (s.goTo { f with latched := latchedPrescale hi lo } cs 5)
    | _ => noLine f
  | 5 => .next (s.goTo f cs (if f.latched = s.prescale then 16 else 6))
  | 6 => .next ((s.memWrite .ctrl (wordOfByte s.params.ctrlDisable)).goTo f cs 7)
  | 7 => .next (s.commit.goTo f cs 8)
  | 8 => .next ((s.memWrite .psHi (wordOfByte (prescaleHigh s.prescale))).goTo f cs 9)
  | 9 => .next ((s.memWrite .psLo (wordOfByte (prescaleLow s.prescale))).goTo f cs 10)
  | 10 => .next (s.commit.goTo f cs 11)
  | 11 => .next ((s.memWrite .data 0).goTo f cs 12)
  | 12 => .next ((s.memWrite .cmd 0).goTo f cs 13)
  | 13 => .next (s.commit.goTo f cs 14)
  | 14 => .next ((s.memWrite .ctrl (wordOfByte s.params.ctrlEnable)).goTo f cs 15)
  | 15 => .next (s.commit.goTo f cs 19)
  | 16 => .next ((s.memWrite .data 0).goTo f cs 17)
  | 17 => .next ((s.memWrite .cmd 0).goTo f cs 18)
  | 18 => .next (s.commit.goTo f cs 19)
  | 19 => .next (s.returnTo .unit cs)
  | _ => noLine f

/-- `SEND_WRITE` (R86). -/
def lineSendWrite (cmd : Flags) (data : Byte) (f : Frame) (cs : List Frame) (s : State) :
    Host.Outcome State Fault Refusal :=
  match f.line with
  | 0 => if cmd.rd then .fault .precondWriteHasRd else .next (s.goTo f cs 1)
  | 1 => .next ((s.memWrite .data (wordOfByte data)).goTo f cs 2)
  | 2 => .next ((s.memWrite .cmd (wordOfByte (writeCommand s.params cmd))).goTo f cs 3)
  | 3 => .next (s.commit.goTo f cs 4)
  | 4 => .next (s.callOp f cs 5 (.wait true cmd.sto))
  | 5 => .next (s.returnTo .unit cs)
  | _ => noLine f

/-- `SEND_READ` (R87). -/
def lineSendRead (cmd : Flags) (f : Frame) (cs : List Frame) (s : State) : Host.Outcome State Fault Refusal :=
  match f.line with
  | 0 => if cmd.wr then .fault .precondReadHasWr else .next (s.goTo f cs 1)
  | 1 => .next ((s.memWrite .cmd (wordOfByte (readCommand s.params cmd))).goTo f cs 2)
  | 2 => .next (s.commit.goTo f cs 3)
  | 3 => .next (s.callOp f cs 4 (.wait false (s.params.readIdleOnStop && cmd.sto)))
  | 4 => .next (s.readAt f cs 5 .rxdata)
  | 5 => .next (s.commit.goTo f cs 6)
  | 6 =>
    match f.handles with
    | h :: _ => withVal s h fun w => .next (s.returnTo (.byte (lowByte w)) cs)
    | _ => noLine f
  | _ => noLine f

/-- `WAIT` (R88): 1 the loop's test, 2 to 8 one attempt, 9 to 11 the checks after the loop, 12 return; leaving
it, `attempt` and `status` become undefined (10_state.md R24). -/
def lineWait (reqAck reqIdle : Bool) (f : Frame) (cs : List Frame) (s : State) : Host.Outcome State Fault Refusal :=
  match f.line with
  | 0 => .next ((s.setAttempt 1).goTo f cs 1)
  | 1 => .next (s.goTo f cs (if s.attempt ≤ s.params.maxRetry then 2 else 9))
  | 2 => .next (s.sleep.goTo f cs 3)
  | 3 => .next ((s.memRead .status).goTo { f with handles := [s.nextHandle] } cs 4)
  | 4 => .next (s.commit.goTo f cs 5)
  | 5 =>
    match f.handles with
    | h :: _ => withVal s h fun w => .next ((s.setStatus w).goTo f cs 6)
    | _ => noLine f
  | 6 => .next (if arbLost s.params s.status then s.undefine.raiseAt .arbitrationLost cs else s.goTo f cs 7)
  | 7 => .next (s.goTo f cs (if inProgress s.params s.status then 8 else 9))
  | 8 => .next ((s.setAttempt (s.attempt + 1)).goTo f cs 1)
  | 9 => .next (if s.params.maxRetry < s.attempt then s.undefine.raiseAt .transactionTimeout cs else s.goTo f cs 10)
  | 10 =>
    .next
      (if reqAck && !receivedAck s.params s.status then s.undefine.raiseAt .noAcknowledgeReceived cs else s.goTo f cs 11)
  | 11 =>
    .next
      (if reqIdle && busBusy s.params s.status then s.undefine.raiseAt .transferFinishedBusStillBusy cs
       else s.goTo f cs 12)
  | 12 => .next (s.undefine.returnTo .unit cs)
  | _ => noLine f

/-- `WRITE_BLOCK` (41_transactions.md R100): 4 the loop's test, 5 the choice of `c`, 6 the call, 7 the next byte. -/
def lineWriteBlock (addr : Nat) (bytes : List Byte) (sendStop : Bool) (f : Frame) (cs : List Frame) (s : State) :
    Host.Outcome State Fault Refusal :=
  match f.line with
  | 0 => if addrFits addr then .next (s.goTo f cs 1) else .fault .addrRange
  | 1 => if bytes.isEmpty then .fault .emptyBlock else .next (s.goTo f cs 2)
  | 2 => .next (s.callOp f cs 3 .reset)
  | 3 => .next (s.callOp f cs 4 (.sendWrite startFlags (addrByte (addrOfArg addr) false)))
  | 4 => .next (s.goTo f cs (if f.index < bytes.length then 5 else 8))
  | 5 => .next (s.goTo { f with cmd := writeByteFlags (f.index + 1 == bytes.length) sendStop } cs 6)
  | 6 =>
    match bytes[f.index]? with
    | some b => .next (s.callOp f cs 7 (.sendWrite f.cmd b))
    | none => noLine f
  | 7 => .next (s.goTo { f with index := f.index + 1 } cs 4)
  | 8 => .next (s.returnTo .unit cs)
  | _ => noLine f

/-- `READ_BLOCK` (R101): 4 `out <- []`, 5 the loop's test, 6 the choice of `c`, 7 the call, 8 the byte appended. -/
def lineReadBlock (addr count : Nat) (f : Frame) (cs : List Frame) (s : State) : Host.Outcome State Fault Refusal :=
  match f.line with
  | 0 => if addrFits addr then .next (s.goTo f cs 1) else .fault .addrRange
  | 1 => if count == 0 then .fault .emptyBlock else .next (s.goTo f cs 2)
  | 2 => .next (s.callOp f cs 3 .reset)
  | 3 => .next (s.callOp f cs 4 (.sendWrite startFlags (addrByte (addrOfArg addr) true)))
  | 4 => .next (s.goTo { f with outBytes := [] } cs 5)
  | 5 => .next (s.goTo f cs (if f.index < count then 6 else 9))
  | 6 => .next (s.goTo { f with cmd := readByteFlags (f.index + 1 == count) } cs 7)
  | 7 => .next (s.callOp f cs 8 (.sendRead f.cmd))
  | 8 =>
    match f.returned with
    | .byte b => .next (s.goTo { f with outBytes := f.outBytes ++ [b], index := f.index + 1 } cs 5)
    | _ => noLine f
  | 9 => .next (s.returnTo (.bytes f.outBytes) cs)
  | _ => noLine f

/-- `PING` (R102): 1 and 2 the calls of its `try`, 3 `return Ok(true)`, 4 the handler's `return Ok(false)`. -/
def linePing (addr : Nat) (f : Frame) (cs : List Frame) (s : State) : Host.Outcome State Fault Refusal :=
  match f.line with
  | 0 => if addrFits addr then .next (s.goTo f cs 1) else .fault .addrRange
  | 1 => .next (s.callOp f cs 2 (.sendWrite startFlags (addrByte (addrOfArg addr) true)))
  | 2 => .next (s.callOp f cs 3 (.sendRead lastReadFlags))
  | 3 => .next (s.returnTo (.bool true) cs)
  | 4 => .next (s.returnTo (.bool false) cs)
  | _ => noLine f

/-- `SCAN` (R103): 0 `out <- []`, 1 the loop's test, 2 the call, 3 the address appended if it answered. -/
def lineScan (f : Frame) (cs : List Frame) (s : State) : Host.Outcome State Fault Refusal :=
  match f.line with
  | 0 => .next (s.goTo { f with outAddrs := [] } cs 1)
  | 1 => .next (s.goTo f cs (if f.index ≤ s.params.scanLast.toNat then 2 else 4))
  | 2 => .next (s.callOp f cs 3 (.ping f.index))
  | 3 =>
    .next (s.goTo
      { f with index := f.index + 1,
               outAddrs := if f.returned = .bool true then f.outAddrs ++ [addrOfArg f.index] else f.outAddrs } cs 1)
  | 4 => .next (s.returnTo (.addrs f.outAddrs) cs)
  | _ => noLine f

/-- `GET_SLAVE_ADDRESS` (42_registry.md R119): 0 the test, 1 the return. -/
def lineGetSlaveAddress (n : DevName) (f : Frame) (cs : List Frame) (s : State) : Host.Outcome State Fault Refusal :=
  match f.line, lookup n s.registry with
  | 0, none => .next (s.unwind { kind := .deviceNotFound, master := s.params.masterId, name := some n } cs)
  | 0, some _ => .next (s.goTo f cs 1)
  | 1, some a => .next (s.returnTo (.addr a) cs)
  | _, _ => noLine f

/-- `GET_SLAVE` (R120): 0 the test, 1 the return. -/
def lineGetSlave (n : DevName) (f : Frame) (cs : List Frame) (s : State) : Host.Outcome State Fault Refusal :=
  match f.line, lookup n s.slaves with
  | 0, none => .next (s.unwind { kind := .deviceNotFound, master := s.params.masterId, name := some n } cs)
  | 0, some _ => .next (s.goTo f cs 1)
  | 1, some h => .next (s.returnTo (.handle h) cs)
  | _, _ => noLine f

/-- The slave operations (R122): 0 the delegated call, 1 the return of its value. -/
def lineSlave (delegated : Instr) (f : Frame) (cs : List Frame) (s : State) : Host.Outcome State Fault Refusal :=
  match f.line with
  | 0 => .next (s.callOp f cs 1 delegated)
  | 1 => .next (s.returnTo f.returned cs)
  | _ => noLine f

/-- The line about to execute of the operation on top. -/
def lineOf (f : Frame) (cs : List Frame) (s : State) : Host.Outcome State Fault Refusal :=
  match f.op with
  | .configure ratio => lineConfigure ratio f cs s
  | .reset => lineReset f cs s
  | .sendWrite cmd data => lineSendWrite cmd data f cs s
  | .sendRead cmd => lineSendRead cmd f cs s
  | .wait reqAck reqIdle => lineWait reqAck reqIdle f cs s
  | .writeBlock addr bytes sendStop => lineWriteBlock addr bytes sendStop f cs s
  | .readBlock addr count => lineReadBlock addr count f cs s
  | .ping addr => linePing addr f cs s
  | .scan => lineScan f cs s
  | .getSlaveAddress n => lineGetSlaveAddress n f cs s
  | .getSlave n => lineGetSlave n f cs s
  | .slaveWriteBlock h bytes sendStop => lineSlave (.writeBlock h.addr.toNat bytes sendStop) f cs s
  | .slaveReadBlock h count => lineSlave (.readBlock h.addr.toNat count) f cs s
  | .cmdZero => noLine f
  | .cmdWrite _ _ _ => noLine f
  | .cmdRead _ _ _ => noLine f

/-- One line of the operation in progress; an idle sequencer stays as it is. -/
def tick (s : State) : Host.Outcome State Fault Refusal :=
  match s.seq with
  | .idle => .next s
  | .running f cs => if paramsValid s.params then lineOf f cs s else .fault .badParameter

/-- A number of lines, stopping at the first fault or refusal. -/
def ticks : Nat → State → Host.Outcome State Fault Refusal
  | 0, s => .next s
  | n + 1, s =>
    match tick s with
    | .next s' => ticks n s'
    | .fault r => .fault r
    | .refused r => .refused r

/-- A request accepted at its first line (R22, R23). -/
def startRequest (i : Instr) (s : State) : Host.Outcome State Fault Refusal :=
  whenReady s fun s => .next (s.setSeq (.running (startFrame i) []))

end Sys2Proof.Machine
end

