-- ==== Sys2Proof/Machine/Port.lean ====
section
/-! DEFINITION. Machine/Port.lean: the request port (92_eei_decisions.md D1): taking what a caller presents, decoding it, and
one step of the machine. -/

namespace Sys2Proof.Machine

/-- What the request port gives an idle engine. -/
inductive Fetched where
  /-- nothing is presented: the engine waits for its next request (70_reset_and_hazards.md R152) -/
  | waiting
  /-- an instruction, and the state with its presentation taken from the port -/
  | instr (i : Instr) (s : State)
  /-- the presentation faults -/
  | fault (r : Fault)
  /-- the presentation has no meaning -/
  | refused (r : Refusal)
deriving DecidableEq, Repr

/-- Takes and decodes the next presentation. -/
def fetch (s : State) : Fetched :=
  match s.port with
  | [] => .waiting
  | p :: rest =>
    match decode s.params p.what with
    | .ok i => .instr i { s with port := rest }
    | .error (.badCode _) => .fault .badRequest
    | .error (.mistypedArguments code) => .refused (.mistypedArguments code)
    | .error (.notACommandByte v) => .refused (.notACommandByte v)

/-- A caller presents something without waiting for the engine to be idle (20_memory.md R57, R158). -/
def intruded (s : State) : Bool :=
  match s.port with
  | [] => false
  | p :: _ => !p.serialized

/-- A request of R61, which takes the sequencer; a bare command byte does not. -/
def isRequest : Instr → Bool
  | .cmdZero | .cmdWrite _ _ _ | .cmdRead _ _ _ => false
  | .configure _ | .reset | .sendWrite _ _ | .sendRead _ | .wait _ _ | .writeBlock _ _ _ | .readBlock _ _ | .ping _ | .scan
  | .getSlaveAddress _ | .getSlave _ | .slaveWriteBlock _ _ _ | .slaveReadBlock _ _ => true

/-- Runs a fetched instruction: a request whole, or its acceptance when a step is one line; a presentation made while
the request is in progress is fault `F_CONCURRENT_REQUEST` (10_state.md R23). -/
def runFetched (i : Instr) (s : State) : Host.Outcome State Fault Refusal :=
  if isRequest i then
    match s.pace with
    | .whole => if intruded s then .fault .concurrentRequest else exec i s
    | .line => startRequest i s
  else exec i s

/-- One step: the next presentation when idle, one line of the operation in progress otherwise. -/
def advance (s : State) : Host.Outcome State Fault Refusal :=
  if paramsValid s.params then
    match s.seq with
    | .running _ _ => if intruded s then .fault .concurrentRequest else tick s
    | .idle =>
      match fetch s with
      | .waiting => .next s
      | .instr i s' => runFetched i s'
      | .fault r => .fault r
      | .refused r => .refused r
  else .fault .badParameter

/-- The request port holding one word of spec/opcode_table.json, presented by a caller that waits, to an idle engine that
takes a whole request a step (log entry 6). -/
def presentTableWord (s : State) (nbits w : Nat) : State :=
  { s with port := [{ what := presentedOfTable (w % 2 ^ nbits), serialized := true }], seq := .idle, pace := .whole }

/-! ## Pseudo-requests -/

/-- The expansion of the pseudo-requests `slave_write n` and `slave_read n` (30_encoding.md R76): the handle of a name,
then a request at the handle's address; a lookup that fails is the whole outcome. -/
def throughName (n : DevName) (k : SlaveHandle → Instr) (s : State) : Host.Outcome State Fault Refusal :=
  match exec (.getSlave n) s with
  | .next t =>
    match t.response with
    | some (.ok (.handle h)) => exec (k h) t
    | _ => .next t
  | .fault r => .fault r
  | .refused r => .refused r

/-- `slave_write n, bs [, stop=s]` (R76). -/
def slaveWriteByName (n : DevName) (bytes : List Byte) (sendStop : Bool) (s : State) :
    Host.Outcome State Fault Refusal :=
  throughName n (fun h => .writeBlock h.addr.toNat bytes sendStop) s

/-- `slave_read n, k` (R76). -/
def slaveReadByName (n : DevName) (count : Nat) (s : State) : Host.Outcome State Fault Refusal :=
  throughName n (fun h => .readBlock h.addr.toNat count) s

end Sys2Proof.Machine
end

