-- ==== Sys2Proof/Machine/Construct.lean ====
section
/-! DEFINITION. Machine/Construct.lean: construction (70_reset_and_hazards.md R150), which is no request. -/

namespace Sys2Proof.Machine

/-- `CONSTRUCT(config, mapping)` (R150): parameters R7 or R93 refuses, and an address string R116 refuses, give no engine;
otherwise the state of 10_state.md R37, with no register operation (R151). -/
def construct (p : Params) (ratio : Ratio) (mapping : List (DevName × String)) : Host.Outcome State Fault Refusal :=
  if paramsValid p then
    match parseMapping mapping with
    | some parsed => .next (State.constructed p (Config.prescaleOf ratio) (buildRegistry p parsed))
    | none => .fault .badAddressString
  else .fault .badParameter

end Sys2Proof.Machine
end

