-- ==== Sys2Proof/Safety.lean ====
section
/-! DEFINITION. Safety.lean: what counts as a safe run, in the terms claims use: no fault (60_exceptions.md R138), the
register memory in its form, the registry's own invariant (10_state.md R25, R26), and the queue and the deferred reads
as 20_memory.md R54 and 70_reset_and_hazards.md R156 want them at every sequencer position. -/

namespace Sys2Proof.Machine

/-- An outcome that lets the run go on. -/
def isNext (o : Host.Outcome State Fault Refusal) : Bool :=
  match o with
  | .next _ => true
  | .fault _ | .refused _ => false

/-- The machine accepts a request: parameters it takes, sequencer idle (10_state.md R23, 40_primitives.md R93). -/
structure State.Ready (s : State) : Prop where
  params : paramsValid s.params = true
  idle   : s.seq = .idle

/-- The machine between two requests: it accepts one, and nothing is pending (20_memory.md R54). -/
structure State.AtRest (s : State) : Prop extends s.Ready where
  queue : s.queue = []

/-- The state after an operation that makes no register operation: an empty trace and the outcome delivered. -/
def State.withReply (s : State) (reply : Reply) : State :=
  { s.undefine with trace := [], resolved := [], nextHandle := 1, response := some reply }

/-- A run has ended: the last outcome has been delivered and the sequencer is idle (70_reset_and_hazards.md R166). DESIGN
CHOICE (log entry 40): a run of no request, and one whose last presentation was a bare command byte, has not ended, since
no outcome stands at the response port. -/
def runEnded (s : State) : Bool := s.seq.isIdle && s.response.isSome && s.port.isEmpty

/-! ## Sequencer positions -/

/-- How many handles an operation has bound at a line; none where no later line of it reads that. -/
def handlesBound : Instr → Nat → Option Nat
  | .reset, 0 => some 0
  | .reset, 1 => some 1
  | .reset, 2 => some 2
  | .reset, 3 => some 3
  | .reset, 4 => some 3
  | .sendRead _, 5 => some 1
  | .sendRead _, 6 => some 1
  | .sendRead _, _ => some 0
  | .wait _ _, 4 => some 1
  | .wait _ _, 5 => some 1
  | _, _ => none

/-- The operations pending when an operation is at a line: what its lines have enqueued since its last commit (R54). -/
def pendingAt (p : Params) (prescale : Prescale) (f : Frame) : List QueueOp :=
  match f.op, f.line with
  | .reset, 1 => [.read .psHi (f.handles.getD 0 0)]
  | .reset, 2 => [.read .psHi (f.handles.getD 0 0), .read .psLo (f.handles.getD 1 0)]
  | .reset, 3 =>
    [.read .psHi (f.handles.getD 0 0), .read .psLo (f.handles.getD 1 0), .read .ctrl (f.handles.getD 2 0)]
  | .reset, 7 => [.write .ctrl (wordOfByte p.ctrlDisable)]
  | .reset, 9 => [.write .psHi (wordOfByte (prescaleHigh prescale))]
  | .reset, 10 => [.write .psHi (wordOfByte (prescaleHigh prescale)), .write .psLo (wordOfByte (prescaleLow prescale))]
  | .reset, 12 => [.write .data 0]
  | .reset, 13 => [.write .data 0, .write .cmd 0]
  | .reset, 15 => [.write .ctrl (wordOfByte p.ctrlEnable)]
  | .reset, 17 => [.write .data 0]
  | .reset, 18 => [.write .data 0, .write .cmd 0]
  | .sendWrite _ data, 2 => [.write .data (wordOfByte data)]
  | .sendWrite cmd data, 3 => [.write .data (wordOfByte data), .write .cmd (wordOfByte (writeCommand p cmd))]
  | .sendRead cmd, 2 => [.write .cmd (wordOfByte (readCommand p cmd))]
  | .sendRead _, 5 => [.read .rxdata (f.handles.getD 0 0)]
  | .wait _ _, 4 => [.read .status (f.handles.getD 0 0)]
  | _, _ => []

/-- The handles whose values the line about to execute uses (R156). -/
def usedAt (f : Frame) : List Nat :=
  match f.op, f.line with
  | .reset, 4 => [f.handles.getD 0 0, f.handles.getD 1 0]
  | .sendRead _, 6 => [f.handles.getD 0 0]
  | .wait _ _, 5 => [f.handles.getD 0 0]
  | _, _ => []

/-- The frame has the handles its next lines expect. -/
def handlesRight (f : Frame) : Prop :=
  match handlesBound f.op f.line with
  | some n => f.handles.length = n
  | none => True

/-- The operation is `WAIT`, which calls nothing. -/
def isWait : Instr → Bool
  | .wait _ _ => true
  | .configure _ | .reset | .sendWrite _ _ | .sendRead _ | .writeBlock _ _ _ | .readBlock _ _ | .ping _ | .scan
  | .getSlaveAddress _ | .getSlave _ | .slaveWriteBlock _ _ _ | .slaveReadBlock _ _ | .cmdZero | .cmdWrite _ _ _
  | .cmdRead _ _ _ => false

/-- A caller waits at a line that has nothing pending and uses no handle, and is no `WAIT`. -/
def callerRight (p : Params) (prescale : Prescale) (f : Frame) : Prop :=
  handlesRight f ∧ pendingAt p prescale f = [] ∧ usedAt f = [] ∧ isWait f.op = false

/-- Nothing is pending between operations; in one, exactly what its lines have enqueued since the last commit is pending,
and every handle the next line uses has been resolved. -/
def positionRight (s : State) : Prop :=
  match s.seq with
  | .idle => s.queue = []
  | .running f callers =>
    handlesRight f ∧ s.queue = pendingAt s.params s.prescale f ∧ (∀ h ∈ usedAt f, (s.resolvedValue h).isSome) ∧
      ∀ c ∈ callers, callerRight s.params s.prescale c

/-! ## Ranges -/

/-- `attempt` lies in 1 to `MAX_RETRY` + 1 (10_state.md R20), and an attempt in progress (lines 2 to 8 of `WAIT`) is one of
the budget's. -/
def attemptRight (s : State) : Prop :=
  1 ≤ s.attempt ∧ s.attempt ≤ s.params.maxRetry + 1 ∧
    match s.seq with
    | .idle => True
    | .running f _ => isWait f.op = true → 2 ≤ f.line → f.line ≤ 8 → s.attempt ≤ s.params.maxRetry

/-- A value has at most `REG_WIDTH` bits (00_scope.md R9). -/
abbrev isWord (p : Params) (w : Word) : Prop := w < 2 ^ p.regWidth

/-- The word of an access. -/
def accessWord : Access → Word
  | .wrote _ v => v
  | .answered _ v => v

/-- Every word the machine holds has at most `REG_WIDTH` bits: in `status`, pending, resolved, and seen by the device. -/
structure WordsFit (s : State) : Prop where
  status   : isWord s.params s.status
  queue    : ∀ r v, QueueOp.write r v ∈ s.queue → isWord s.params v
  resolved : ∀ e ∈ s.resolved, isWord s.params e.2
  history  : ∀ a ∈ s.history, isWord s.params (accessWord a)

/-- `attempt` and `status` are undefined, as outside `waitUntilFinished` (10_state.md R24): free values, of which only the
range is known. -/
def Undefined (s : State) : Prop :=
  ∃ k, s.attempt = freeAttempt s.params k ∧ s.status = freeStatus s.params k

/-! ## The invariant -/

/-- The registry names each device once, and every entry has its handle (10_state.md R25, R26). -/
structure RegistryRight (s : State) : Prop where
  unique  : (s.registry.map Prod.fst).Nodup
  handles : s.slaves = buildSlaves s.params s.registry

/-- What every reachable state satisfies. -/
structure State.Inv (s : State) : Prop where
  memory   : s.regs.wf = true
  registry : RegistryRight s
  position : positionRight s
  attempt  : attemptRight s
  words    : WordsFit s

end Sys2Proof.Machine
end

