-- ==== Sys2Proof/Safety/Traces.lean ====
section
/-! DEFINITION. Safety/Traces.lean: the traces the rules allow, as relations between events, the status words read and the
outcome, written from the rules' own counts and orders; and what a trace says the device has seen. -/

namespace Sys2Proof.Machine

/-! ## What a trace says -/

/-- The accesses of one commit: its queue with the values it resolved (20_memory.md R43). -/
def appliedBy (queue : List QueueOp) (vals : List (Nat × Word)) : List Access :=
  queue.filterMap fun op =>
    match op with
    | .write r v => some (.wrote r v)
    | .read r h => (lookup h vals).map (Access.answered r)

/-- The accesses a trace makes, from a queue of operations already pending: each commit applies what was enqueued since
the one before, in that order (20_memory.md R55). -/
def accessesFrom : List QueueOp → List Event → List Access
  | _, [] => []
  | q, .w r v :: es => accessesFrom (q ++ [.write r v]) es
  | q, .r r h :: es => accessesFrom (q ++ [.read r h]) es
  | q, .c vals :: es => appliedBy q vals ++ accessesFrom [] es
  | q, .s :: es => accessesFrom q es

/-- What a trace leaves pending. -/
def pendingAfter : List QueueOp → List Event → List QueueOp
  | q, [] => q
  | q, .w r v :: es => pendingAfter (q ++ [.write r v]) es
  | q, .r r h :: es => pendingAfter (q ++ [.read r h]) es
  | _, .c _ :: es => pendingAfter [] es
  | q, .s :: es => pendingAfter q es

/-- The words the device answered with, in order. -/
def answersIn (accesses : List Access) : List Word :=
  accesses.filterMap fun a =>
    match a with
    | .answered _ v => some v
    | .wrote _ _ => none

/-- The words written to a register, in order. -/
def writesTo (r : Reg) (trace : List Event) : List Word :=
  trace.filterMap fun e =>
    match e with
    | .w q v => if q = r then some v else none
    | _ => none

/-- The status words a trace's polls read, in order. -/
def statusWords (trace : List Event) : List Word :=
  (accessesFrom [] trace).filterMap fun a =>
    match a with
    | .answered .status v => some v
    | _ => none

/-- The number of sleeps of a trace. -/
def sleepsIn (trace : List Event) : Nat := trace.countP (· = Event.s)

/-- The number of commits of a trace. -/
def commitsIn (trace : List Event) : Nat :=
  trace.countP fun e =>
    match e with
    | .c _ => true
    | _ => false

/-! ## The poll -/

/-- The events of the polls that read the given status words, handles counting from `h`: `S R C` each (40_primitives.md
R92). -/
def pollEvents : Nat → List Word → List Event
  | _, [] => []
  | h, w :: ws => [.s, .r .status h, .c [(h, w)]] ++ pollEvents (h + 1) ws

/-- A status that does not end the loop: in progress, and arbitration not lost (R89). -/
def pollsOn (p : Params) (w : Word) : Bool := inProgress p w && !arbLost p w

/-- The status words a `WAIT` may read (R89, R90, R92): at least one and at most `MAX_RETRY`; every one but the last lets
the loop go on; the last ends it unless the budget is spent. -/
def PollWords (p : Params) (ws : List Word) : Prop :=
  ∃ before last, ws = before ++ [last] ∧ ws.length ≤ p.maxRetry ∧ (∀ w ∈ before, pollsOn p w = true) ∧
    (pollsOn p last = true → ws.length = p.maxRetry)

/-- A bus error of this engine (60_exceptions.md R132). -/
def busErr (p : Params) (kind : ErrorKind) : Err := { kind := kind, master := p.masterId, name := none }

/-- What the last status word read decides (60_exceptions.md R133): arbitration, then timeout, then acknowledge, then bus
idle. -/
def verdictOf (p : Params) (reqAck reqIdle : Bool) (last : Word) : Except Err Unit :=
  if arbLost p last then .error (busErr p .arbitrationLost)
  else if inProgress p last then .error (busErr p .transactionTimeout)
  else if reqAck && !receivedAck p last then .error (busErr p .noAcknowledgeReceived)
  else if reqIdle && busBusy p last then .error (busErr p .transferFinishedBusStillBusy)
  else .ok ()

/-- What a `WAIT` that has read the given status words ends with. -/
def waitVerdict (p : Params) (reqAck reqIdle : Bool) (ws : List Word) : Except Err Unit :=
  verdictOf p reqAck reqIdle (ws.getLastD 0)

/-! ## One byte -/

/-- The events of a `SEND_WRITE` whose polls read the given status words (40_primitives.md R86). -/
def sendWriteEvents (p : Params) (cmd : Flags) (data : Byte) (h : Nat) (ws : List Word) : List Event :=
  [.w .data (wordOfByte data), .w .cmd (wordOfByte (writeCommand p cmd)), .c []] ++ pollEvents h ws

/-- The events of a `SEND_READ` up to the end of its polls (R87). -/
def sendReadEvents (p : Params) (cmd : Flags) (h : Nat) (ws : List Word) : List Event :=
  [.w .cmd (wordOfByte (readCommand p cmd)), .c []] ++ pollEvents h ws

/-- The events of the read of the received byte (R87). -/
def receiveEvents (h : Nat) (w : Word) : List Event := [.r .rxdata h, .c [(h, w)]]

/-- Whether a `SEND_READ` requires bus idle at the end (R87, D12). -/
def readNeedsIdle (p : Params) (cmd : Flags) : Bool := p.readIdleOnStop && cmd.sto

/-! ## The reset -/

/-- The four events that read the latched prescale and the control register (R81). -/
def resetReadEvents (h : Nat) (hi lo ctrl : Word) : List Event :=
  [.r .psHi h, .r .psLo (h + 1), .r .ctrl (h + 2), .c [(h, hi), (h + 1, lo), (h + 2, ctrl)]]

/-- The events of the LIGHT path after the reads (R84). -/
def lightEvents : List Event := [.w .data 0, .w .cmd 0, .c []]

/-- The events of the FULL path after the reads (R83). -/
def fullEvents (p : Params) (prescale : Prescale) : List Event :=
  [.w .ctrl (wordOfByte p.ctrlDisable), .c [],
   .w .psHi (wordOfByte (prescaleHigh prescale)), .w .psLo (wordOfByte (prescaleLow prescale)), .c [],
   .w .data 0, .w .cmd 0, .c [],
   .w .ctrl (wordOfByte p.ctrlEnable), .c []]

/-- The events of a `RESET` that read the given words (R81 to R84). -/
def resetEvents (p : Params) (prescale : Prescale) (h : Nat) (hi lo ctrl : Word) : List Event :=
  resetReadEvents h hi lo ctrl ++ if latchedPrescale hi lo = prescale then lightEvents else fullEvents p prescale

/-! ## Blocks -/

/-- The bytes of a write transaction with their commands: the address byte, then the data (41_transactions.md R100). -/
def dataBytes (sendStop : Bool) : List Byte → List (Flags × Byte)
  | [] => []
  | b :: rest => ({ sto := rest.isEmpty && sendStop }, b) :: dataBytes sendStop rest

/-- The commands of a read transaction's data bytes (R101): stop and ack on the last, no flag on the others. -/
def readFlags : Nat → List Flags
  | 0 => []
  | 1 => [{ sto := true, ack := true }]
  | n + 2 => {} :: readFlags (n + 1)

/-- The events and the outcome of a sequence of bytes written, handles counting from `h`: the first error ends it and no
later byte is sent (60_exceptions.md R130, R133). -/
def WriteSequence (p : Params) : List (Flags × Byte) → Nat → List Event → Except Err Unit → Prop
  | [], _, trace, out => trace = [] ∧ out = .ok ()
  | (cmd, b) :: rest, h, trace, out =>
    ∃ ws more, PollWords p ws ∧ trace = sendWriteEvents p cmd b h ws ++ more ∧
      match waitVerdict p true cmd.sto ws with
      | .error e => more = [] ∧ out = .error e
      | .ok _ => WriteSequence p rest (h + ws.length) more out

/-- The events and the outcome of a sequence of bytes read after those in `got`: a byte is read only after its command
completes, and an error discards the bytes already read (R101, D39). -/
def ReadSequence (p : Params) : List Flags → List Byte → Nat → List Event → Except Err (List Byte) → Prop
  | [], got, _, trace, out => trace = [] ∧ out = .ok got
  | cmd :: rest, got, h, trace, out =>
    ∃ ws more, PollWords p ws ∧ trace = sendReadEvents p cmd h ws ++ more ∧
      match waitVerdict p false (readNeedsIdle p cmd) ws with
      | .error e => more = [] ∧ out = .error e
      | .ok _ => ∃ w after, more = receiveEvents (h + ws.length) w ++ after ∧
          ReadSequence p rest (got ++ [lowByte w]) (h + ws.length + 1) after out

/-- The events and the answer of one `PING` (R102), handles counting from `h`, and the handle after them. -/
def PingTrace (p : Params) (a : Addr7) (h : Nat) (trace : List Event) (answer : Bool) (next : Nat) : Prop :=
  ∃ ws more, PollWords p ws ∧ trace = sendWriteEvents p { sta := true } (addrByte a true) h ws ++ more ∧
    match waitVerdict p true false ws with
    | .error _ => more = [] ∧ answer = false ∧ next = h + ws.length
    | .ok _ => ∃ vs after, PollWords p vs ∧
        more = sendReadEvents p { sto := true, ack := true } (h + ws.length) vs ++ after ∧
        match waitVerdict p false (readNeedsIdle p { sto := true, ack := true }) vs with
        | .error _ => after = [] ∧ answer = false ∧ next = h + ws.length + vs.length
        | .ok _ => ∃ w, after = receiveEvents (h + ws.length + vs.length) w ∧ answer = true ∧
            next = h + ws.length + vs.length + 1

/-- The events and the result of pings of addresses in order (R103): every one is pinged, whatever the others answered. -/
def ScanTrace (p : Params) : List Nat → Nat → List Event → List Addr7 → Prop
  | [], _, trace, found => trace = [] ∧ found = []
  | a :: rest, h, trace, found =>
    ∃ one more answer next others, PingTrace p (BitVec.ofNat 7 a) h one answer next ∧ trace = one ++ more ∧
      ScanTrace p rest next more others ∧ found = (if answer then [BitVec.ofNat 7 a] else []) ++ others

/-! ## What the engine may put on the bus -/

/-- The registers an instruction may write (10_state.md R28 and the rule of each request). -/
def registersWritten : Instr → List Reg
  | .configure _ | .wait _ _ | .getSlaveAddress _ | .getSlave _ => []
  | .sendRead _ | .cmdZero | .cmdWrite _ _ _ | .cmdRead _ _ _ => [.cmd]
  | .sendWrite _ _ | .ping _ | .scan => [.data, .cmd]
  | .reset | .writeBlock _ _ _ | .readBlock _ _ | .slaveWriteBlock _ _ _ | .slaveReadBlock _ _ =>
    [.ctrl, .psHi, .psLo, .data, .cmd]

/-- What the last `WAIT` of an instruction has required, acknowledge and bus idle: a `WAIT` by its own arguments, any other
by the command whose completion it waited for, the last one written to `CMD`: acknowledge for a write command
(40_primitives.md R86), bus idle for stop, on a read only if `READ_IDLE_ON_STOP` (R86, R87). -/
def lastWaitRequired (p : Params) (i : Instr) (trace : List Event) : Bool × Bool :=
  match i with
  | .wait reqAck reqIdle => (reqAck, reqIdle)
  | _ =>
    let cmd := (writesTo .cmd trace).getLastD 0
    (statusBit cmd p.cmdWr, statusBit cmd p.cmdSto && (statusBit cmd p.cmdWr || p.readIdleOnStop))

/-- An event the rules allow: registers by their access (10_state.md R28), words below 0x100 (20_memory.md R51), the two
control values (R29), command words 0 or with exactly one of read and write (R31), and words read of `REG_WIDTH` bits
(00_scope.md R9). -/
def eventAllowed (p : Params) : Event → Bool
  | .w r v =>
    engineWrites r && decide (v < 0x100) &&
      (match r with
       | .ctrl => decide (v = wordOfByte p.ctrlDisable ∨ v = wordOfByte p.ctrlEnable)
       | .cmd => decide (v = 0) || (statusBit v p.cmdRd != statusBit v p.cmdWr)
       | _ => true)
  | .r r _ => engineReads r
  | .c vals => vals.all fun e => decide (e.2 < 2 ^ p.regWidth)
  | .s => true

end Sys2Proof.Machine
end

