-- ==== Sys2Proof/WellFormed.lean ====
section
/-! DEFINITION. WellFormed.lean: the argument forms 30_encoding.md R72 calls legal. An ill-formed request is still a
request: its operation ends in the model fault R72 names. -/

namespace Sys2Proof

/-- A slave address argument is in range (R72, D18). -/
abbrev addrInRange (addr : Nat) : Prop := addr ≤ 0x7F

/-- No argument of the instruction is one of the illegal forms of R72. -/
def Instr.wf : Instr → Bool
  | .configure _ => true
  | .reset => true
  | .sendWrite cmd _ => !cmd.rd
  | .sendRead cmd => !cmd.wr
  | .wait _ _ => true
  | .writeBlock addr bytes _ => decide (addrInRange addr) && !bytes.isEmpty
  | .readBlock addr count => decide (addrInRange addr) && decide (1 ≤ count)
  | .ping addr => decide (addrInRange addr)
  | .scan => true
  | .getSlaveAddress _ => true
  | .getSlave _ => true
  | .slaveWriteBlock _ bytes _ => !bytes.isEmpty
  | .slaveReadBlock _ count => decide (1 ≤ count)
  | .cmdZero => true
  | .cmdWrite _ _ _ => true
  | .cmdRead _ _ _ => true

/-- The instruction as a proposition about its arguments (R72). -/
abbrev WellFormed (i : Instr) : Prop := i.wf = true

end Sys2Proof
end

