-- ==== Sys2Proof/Certificates/Slice0/Obligations.lean ====
section
/-! DEFINITION. Certificates/Slice0/Obligations.lean: the statements for the provers. Every one of them is about the
machine, for every state that meets its hypotheses. -/

open Sys2Proof Sys2Proof.Machine

/-! ## Encodings -/

/-- 30_encoding.md R60, R61, R65: what is encoded decodes to itself, for every instruction, every argument, and every
parameters a model may take. -/
def Obligations.DecodeOfEncodeIsTheInstruction : Prop :=
  ∀ (p : Params) (i : Instr), paramsValid p = true → decode p (encode p i) = .ok i

/-- 30_encoding.md R61, R65, R76: whatever decodes is what the encoder gives, but for a `sendStop` left out, which is
true. -/
def Obligations.EncodeOfDecodeIsThePresentation : Prop :=
  (∀ (p : Params) (v : Byte) (i : Instr), paramsValid p = true → decode p (.command v) = .ok i →
    encode p i = .command v) ∧
  (∀ (p : Params) (code : Byte) (args : List Arg) (i : Instr), decode p (.request code args) = .ok i →
    encode p i = .request code args ∨ encode p i = .request code (args ++ [.bool true]))

/-- 30_encoding.md section 2, with the default masks (log entry 7, the family's): the bytes that are command bytes are
the table's. -/
def Obligations.CommandBytesAreTheTablesOwn : Prop :=
  ∀ v : Byte, (decodeCommand Config.defaults v).toOption.isSome =
    decide (v ∈ [0x00#8, 0x10#8, 0x18#8, 0x50#8, 0x58#8, 0x90#8, 0x98#8, 0xD0#8, 0xD8#8,
      0x20#8, 0x28#8, 0x60#8, 0x68#8, 0xA0#8, 0xA8#8, 0xE0#8, 0xE8#8])

/-- A few words of spec/opcode_table.json, with the operands log entry 6 gives a table word. -/
def Obligations.TableWordsDecode : Prop :=
  decodeTableWord 8 0x02 = some .reset ∧ decodeTableWord 8 0x09 = some .scan ∧
    decodeTableWord 8 0x90 = some (.cmdWrite true false false) ∧ decodeTableWord 8 0x68 = some (.cmdRead false true true) ∧
    decodeTableWord 8 0x00 = some .cmdZero ∧ decodeTableWord 8 0x0E = none ∧ decodeTableWord 8 0x30 = none

/-- 30_encoding.md R63, R64: `SEND_WRITE` writes the flags with the write mask or'd in, `SEND_READ` with the read mask
or'd in; the or changes nothing if the flag was set. -/
def Obligations.SendsForceTheirDirectionFlag : Prop :=
  (∀ (cmd : Flags) (data : Byte) (s : State), s.AtRest → cmd.rd = false →
    ∃ t, exec (.sendWrite cmd data) s = .next t ∧
      writesTo .cmd t.trace = [wordOfByte (flagsByte s.params cmd ||| s.params.cmdWr)] ∧
      (cmd.wr = true → flagsByte s.params cmd ||| s.params.cmdWr = flagsByte s.params cmd)) ∧
  (∀ (cmd : Flags) (s : State), s.AtRest → cmd.wr = false →
    ∃ t, exec (.sendRead cmd) s = .next t ∧
      writesTo .cmd t.trace = [wordOfByte (flagsByte s.params cmd ||| s.params.cmdRd)] ∧
      (cmd.rd = true → flagsByte s.params cmd ||| s.params.cmdRd = flagsByte s.params cmd))

/-- 30_encoding.md section 5 (the bus convention of log entry 17): the address byte is twice the address plus the
direction bit, so no bit of the address is lost. -/
def Obligations.AddressByteIsTwiceTheAddressPlusDirection : Prop :=
  ∀ (a : Addr7) (read : Bool), (addrByte a read).toNat = 2 * a.toNat + (if read then 1 else 0)

/-- 30_encoding.md R69, R70: the two bytes of a prescale assemble to it, and bits above bit 7 of a word read back are
discarded. -/
def Obligations.PrescaleSplitsAndAssembles : Prop :=
  (∀ ps : Prescale, latchedPrescale (wordOfByte (prescaleHigh ps)) (wordOfByte (prescaleLow ps)) = ps) ∧
  (∀ hi lo : Word, (latchedPrescale hi lo).toNat = 256 * (hi % 256) + lo % 256)

/-- 30_encoding.md R72: every illegal form ends in the fault the rule names, and the reserved bits of a command byte
are written 0 with the default masks (log entry 7). -/
def Obligations.IllegalFormsFault : Prop :=
  (∀ (s : State) (cmd : Flags) (data : Byte), s.Ready → cmd.rd = true →
    exec (.sendWrite cmd data) s = .fault .precondWriteHasRd) ∧
  (∀ (s : State) (cmd : Flags), s.Ready → cmd.wr = true → exec (.sendRead cmd) s = .fault .precondReadHasWr) ∧
  (∀ (s : State) (addr : Nat) (bytes : List Byte) (stop : Bool) (count : Nat), s.Ready → 0x7F < addr →
    exec (.writeBlock addr bytes stop) s = .fault .addrRange ∧ exec (.readBlock addr count) s = .fault .addrRange ∧
      exec (.ping addr) s = .fault .addrRange) ∧
  (∀ (s : State) (addr : Nat) (stop : Bool), s.Ready → addr ≤ 0x7F →
    exec (.writeBlock addr [] stop) s = .fault .emptyBlock ∧ exec (.readBlock addr 0) s = .fault .emptyBlock) ∧
  (∀ (s : State) (h : SlaveHandle) (stop : Bool), s.Ready →
    exec (.slaveWriteBlock h [] stop) s = .fault .emptyBlock ∧ exec (.slaveReadBlock h 0) s = .fault .emptyBlock) ∧
  (∀ (s : State) (code : Byte) (args : List Arg) (serialized : Bool) (rest : List Presentation), s.Ready →
    s.port = { what := .request code args, serialized := serialized } :: rest → (code = 0 ∨ 0x0E ≤ code.toNat) →
    step s = .fault .badRequest) ∧
  (∀ f : Flags, writeCommand Config.defaults f &&& 0x07 = 0 ∧ readCommand Config.defaults f &&& 0x07 = 0)

/-- The parameters the model takes are those whose command masks and whose status masks are single bits, pairwise
distinct (00_scope.md R7), with a retry budget of at least one (40_primitives.md R93) and words of at least 8 bits
(92_eei_decisions.md D2; that a lesser width is refused is the model's choice, log entry 1). -/
def Obligations.ParametersTakenHaveDistinctSingleBitMasks : Prop :=
  ∀ p : Params, paramsValid p = true ↔
    (∀ m ∈ [p.cmdSta, p.cmdSto, p.cmdRd, p.cmdWr, p.cmdAck], ∃ k < 8, m = 1 <<< k) ∧
      [p.cmdSta, p.cmdSto, p.cmdRd, p.cmdWr, p.cmdAck].Nodup ∧
      (∀ m ∈ [p.stRxack, p.stBusy, p.stAl, p.stTip], ∃ k < 8, m = 1 <<< k) ∧
      [p.stRxack, p.stBusy, p.stAl, p.stTip].Nodup ∧ 1 ≤ p.maxRetry ∧ 8 ≤ p.regWidth

/-! ## configure and reset -/

/-- 40_primitives.md R80: `CONFIGURE` stores the prescale and makes no register operation. Besides, only what any request
restarts is changed (`State.withReply`): the trace, the handles and the response (log entry 27), and `attempt` and
`status`, which are undefined after it, fresh free values (log entry 8). -/
def Obligations.ConfigureStoresThePrescale : Prop :=
  ∀ (ratio : Ratio) (s : State), s.Ready →
    exec (.configure ratio) s = .next ({ s with prescale := Config.prescaleOf ratio }.withReply (.ok .unit))

/-- 40_primitives.md R81, R82: `RESET` reads the three registers in one commit, and takes the FULL path if and only if
the latched prescale differs from the configured one. -/
def Obligations.ResetTakesThePathItsPrescaleChooses : Prop :=
  ∀ s : State, s.AtRest → ∃ hi lo ctrl t, exec .reset s = .next t ∧ t.response = some (.ok .unit) ∧
    t.trace = resetReadEvents 1 hi lo ctrl ++
      (if latchedPrescale hi lo = s.prescale then lightEvents else fullEvents s.params s.prescale)

/-- 40_primitives.md R83, R84: what each path leaves in the model's record of the device's registers (log entry 10) and
how many events and commits it has, for the answers the device gives (the tape of log entry 2). -/
def Obligations.ResetPathsWriteTheirRegisters : Prop :=
  ∀ (s : State) (hi lo ctrl : Nat) (rest : List Nat), s.AtRest → s.answers = hi :: lo :: ctrl :: rest →
    ∃ t, exec .reset s = .next t ∧ t.answers = rest ∧ t.regByte .data = some 0 ∧ t.regByte .cmd = some 0 ∧
      (latchedPrescale hi lo ≠ s.prescale → t.trace.length = 14 ∧ commitsIn t.trace = 5 ∧
        t.regByte .psHi = some (prescaleHigh s.prescale) ∧ t.regByte .psLo = some (prescaleLow s.prescale) ∧
        t.regByte .ctrl = some s.params.ctrlEnable) ∧
      (latchedPrescale hi lo = s.prescale → t.trace.length = 7 ∧ commitsIn t.trace = 2 ∧
        t.regByte .psHi = s.regByte .psHi ∧ t.regByte .psLo = s.regByte .psLo ∧ t.regByte .ctrl = s.regByte .ctrl)

/-- 40_primitives.md R83, R84, 30_encoding.md R69, 70_reset_and_hazards.md R155: on the FULL path the device sees disable, prescale high,
prescale low, zero data, zero command, enable, in that order and nothing else; on the LIGHT path only the zeroes. The
answers are those of log entry 2's tape, of which the Register Interface carries `REG_WIDTH` bits. -/
def Obligations.ResetWritesReachTheDeviceInOrder : Prop :=
  ∀ (s : State) (hi lo ctrl : Nat) (rest : List Nat), s.AtRest → s.answers = hi :: lo :: ctrl :: rest →
    ∃ t, exec .reset s = .next t ∧
      t.history = s.history ++ [.answered .psHi (fitWord s.params hi), .answered .psLo (fitWord s.params lo),
          .answered .ctrl (fitWord s.params ctrl)] ++
        (if latchedPrescale hi lo = s.prescale then [.wrote .data 0, .wrote .cmd 0]
         else [.wrote .ctrl (wordOfByte s.params.ctrlDisable), .wrote .psHi (wordOfByte (prescaleHigh s.prescale)),
           .wrote .psLo (wordOfByte (prescaleLow s.prescale)), .wrote .data 0, .wrote .cmd 0,
           .wrote .ctrl (wordOfByte s.params.ctrlEnable)])

/-- 40_primitives.md section 2, which the spec marks as derived: after a reset that leaves the device with the
configured prescale, a second one on a device that reads it back (by log entry 2's tape) takes the LIGHT path and
leaves the model's record of every register (log entry 10) as it was. -/
def Obligations.SecondResetTakesTheLightPath : Prop :=
  ∀ (s t : State) (hi lo ctrl : Nat) (rest : List Nat), s.AtRest → exec .reset s = .next t →
    t.regByte .psHi = some (prescaleHigh s.prescale) → t.regByte .psLo = some (prescaleLow s.prescale) →
    t.answers = hi :: lo :: ctrl :: rest → t.regByte .psHi = some (lowByte hi) → t.regByte .psLo = some (lowByte lo) →
    ∃ u, exec .reset t = .next u ∧
      u.trace = resetReadEvents 1 (fitWord s.params hi) (fitWord s.params lo) (fitWord s.params ctrl) ++ lightEvents ∧
      ∀ r, u.regByte r = t.regByte r

/-! ## waitUntilFinished -/

/-- 40_primitives.md R88 to R91: a `WAIT` always completes; its events are one sleep, one status read and one commit a
poll; it stops at the first status that is not merely in progress or when the budget is spent; and its outcome is what
the last status decides. At the end of its own lines (`waitBody`) `status` is the last word read and `attempt` counts
from 1 (10_state.md R24); once it is left both are undefined (R24), which the model makes free values (log entry 8). -/
def Obligations.WaitEndsAsItsStatusWordsSay : Prop :=
  ∀ (reqAck reqIdle : Bool) (s : State), s.AtRest →
    ∃ ws u, PollWords s.params ws ∧
      waitBody reqAck reqIdle s.accept = (u, waitVerdict s.params reqAck reqIdle ws) ∧ u.trace = pollEvents 1 ws ∧
      u.status = ws.getLastD 0 ∧ u.attempt = ws.length + (pollsOn s.params (ws.getLastD 0)).toNat ∧
      exec (.wait reqAck reqIdle) s =
        .next (u.undefine.finish (replyOf unitVal (waitVerdict s.params reqAck reqIdle ws)))

/-- 40_primitives.md section 5, which the spec marks as derived from its algorithm: a `WAIT` reads the status once an
attempt, a sleep before and a commit after each, and nothing else: the number of reads is the attempt at which its own
lines (`waitBody`) stop, and `MAX_RETRY` on a timeout. After them `attempt` is undefined (10_state.md R24), a free value
of the model's (log entry 8), and nothing is said of it. -/
def Obligations.WaitHasThreeEventsAPoll : Prop :=
  ∀ (reqAck reqIdle : Bool) (s : State), s.AtRest →
    ∃ t, exec (.wait reqAck reqIdle) s = .next t ∧ t.trace = pollEvents 1 (statusWords t.trace) ∧
      t.trace.length = 3 * (statusWords t.trace).length ∧ sleepsIn t.trace = (statusWords t.trace).length ∧
      commitsIn t.trace = (statusWords t.trace).length ∧ 1 ≤ (statusWords t.trace).length ∧
      (statusWords t.trace).length ≤ s.params.maxRetry ∧
      (t.response = some (.err (busErr s.params .transactionTimeout)) →
        (statusWords t.trace).length = s.params.maxRetry) ∧
      (t.response ≠ some (.err (busErr s.params .transactionTimeout)) →
        (waitBody reqAck reqIdle s.accept).1.attempt = (statusWords t.trace).length)

/-- 60_exceptions.md R126, 40_primitives.md R89: a `WAIT` reports ArbitrationLost exactly when a status word it read
has the arbitration-lost bit, whatever else is set, and that word is the last it reads. -/
def Obligations.WaitReportsArbitrationLostExactlyOnItsBit : Prop :=
  ∀ (reqAck reqIdle : Bool) (s t : State), s.AtRest → exec (.wait reqAck reqIdle) s = .next t →
    (t.response = some (.err (busErr s.params .arbitrationLost)) ↔ ∃ w ∈ statusWords t.trace, arbLost s.params w = true) ∧
    (∀ before w after, statusWords t.trace = before ++ w :: after → arbLost s.params w = true → after = [])

/-- 40_primitives.md R90, 60_exceptions.md R127: a `WAIT` reports TransactionTimeout exactly when it read `MAX_RETRY`
words, all in progress and none with arbitration lost. -/
def Obligations.WaitTimesOutExactlyWhenTheBudgetIsSpent : Prop :=
  ∀ (reqAck reqIdle : Bool) (s t : State), s.AtRest → exec (.wait reqAck reqIdle) s = .next t →
    (t.response = some (.err (busErr s.params .transactionTimeout)) ↔
      (statusWords t.trace).length = s.params.maxRetry ∧
        ∀ w ∈ statusWords t.trace, inProgress s.params w = true ∧ arbLost s.params w = false)

/-- 40_primitives.md R91, 60_exceptions.md R133: the post-conditions are decoded from the last status word, only if
requested, only when the loop ended on it, acknowledge before bus idle. -/
def Obligations.WaitChecksPostConditionsOnItsLastStatus : Prop :=
  ∀ (reqAck reqIdle : Bool) (s t : State) (before : List Word) (last : Word), s.AtRest →
    exec (.wait reqAck reqIdle) s = .next t → statusWords t.trace = before ++ [last] →
    (t.response = some (.err (busErr s.params .noAcknowledgeReceived)) ↔
      arbLost s.params last = false ∧ inProgress s.params last = false ∧ reqAck = true ∧
        receivedAck s.params last = false) ∧
    (t.response = some (.err (busErr s.params .transferFinishedBusStillBusy)) ↔
      arbLost s.params last = false ∧ inProgress s.params last = false ∧
        ¬(reqAck = true ∧ receivedAck s.params last = false) ∧ reqIdle = true ∧ busBusy s.params last = true)

/-- 40_primitives.md R89, R90 on the answers a device gives: a poll that stops at attempt k reads k answers and leaves
the rest to be read. That the answers are a tape whose rest stays is log entry 2, the model's own; the attempt is that
at the end of the `WAIT`'s own lines, since it is undefined after them (10_state.md R24, log entry 8). -/
def Obligations.WaitStopsAtTheFirstDecidingAnswer : Prop :=
  ∀ (reqAck reqIdle : Bool) (s : State) (before rest : List Nat) (w : Nat), s.AtRest →
    s.answers = before ++ w :: rest → before.length < s.params.maxRetry → (∀ v ∈ before, pollsOn s.params v = true) →
    pollsOn s.params w = false →
    ∃ t, exec (.wait reqAck reqIdle) s = .next t ∧ t.answers = rest ∧
      t.trace = pollEvents 1 ((before ++ [w]).map (fitWord s.params)) ∧
      (waitBody reqAck reqIdle s.accept).1.attempt = before.length + 1 ∧
      t.response = some (replyOf unitVal (verdictOf s.params reqAck reqIdle w))

/-- 30_encoding.md R73 on a whole `WAIT`: two devices whose status answers differ only outside the masks give it the
same outcome after the same number of events. -/
def Obligations.WaitDoesNotSeeBitsOutsideTheMasks : Prop :=
  ∀ (reqAck reqIdle : Bool) (s : State) (as bs : List Nat), s.AtRest → s.params.maxRetry ≤ as.length →
    List.Forall₂ (fun v w => lowByte v &&& (s.params.stRxack ||| s.params.stBusy ||| s.params.stAl ||| s.params.stTip) =
      lowByte w &&& (s.params.stRxack ||| s.params.stBusy ||| s.params.stAl ||| s.params.stTip)) as bs →
    ∃ t u, exec (.wait reqAck reqIdle) { s with answers := as } = .next t ∧
      exec (.wait reqAck reqIdle) { s with answers := bs } = .next u ∧ t.response = u.response ∧
      t.trace.length = u.trace.length

/-! ## sendCommandAndWriteData and sendCommandAndReadData -/

/-- 40_primitives.md R86: `SEND_WRITE` writes data then command in one commit, waits with acknowledge required, and
with bus idle required exactly when the command carries stop. That the two registers then hold what was written is said of
the model's record of the device's registers (log entry 10, a design choice). -/
def Obligations.SendWriteWritesThenWaits : Prop :=
  ∀ (cmd : Flags) (data : Byte) (s : State), s.AtRest → cmd.rd = false →
    ∃ ws t, exec (.sendWrite cmd data) s = .next t ∧ PollWords s.params ws ∧
      t.trace = sendWriteEvents s.params cmd data 1 ws ∧
      t.response = some (replyOf unitVal (waitVerdict s.params true cmd.sto ws)) ∧
      t.regByte .data = some data ∧ t.regByte .cmd = some (writeCommand s.params cmd)

/-- 40_primitives.md R87, 30_encoding.md R71: `SEND_READ` writes the command, waits with no acknowledge required, and
on success returns the low byte of the word it then reads; on an error it reads nothing. That the command register then
holds the command is said of the model's record of the device's registers (log entry 10, a design choice). -/
def Obligations.SendReadWaitsThenReadsTheByte : Prop :=
  ∀ (cmd : Flags) (s : State), s.AtRest → cmd.wr = false →
    ∃ ws t, exec (.sendRead cmd) s = .next t ∧ PollWords s.params ws ∧
      t.regByte .cmd = some (readCommand s.params cmd) ∧
      match waitVerdict s.params false (readNeedsIdle s.params cmd) ws with
      | .error e => t.trace = sendReadEvents s.params cmd 1 ws ∧ t.response = some (.err e)
      | .ok _ => ∃ w, t.trace = sendReadEvents s.params cmd 1 ws ++ receiveEvents (1 + ws.length) w ∧
          t.response = some (.ok (.byte (lowByte w)))

/-- 60_exceptions.md R128, R129: NoAcknowledgeReceived never ends a `SEND_READ`, and TransferFinishedBusStillBusy ends
a `SEND_WRITE` only with stop and a `SEND_READ` only with stop and `READ_IDLE_ON_STOP`. -/
def Obligations.ErrorsOfTheBytePrimitives : Prop :=
  (∀ (cmd : Flags) (s t : State), s.AtRest → exec (.sendRead cmd) s = .next t →
    t.response ≠ some (.err (busErr s.params .noAcknowledgeReceived)) ∧
    (t.response = some (.err (busErr s.params .transferFinishedBusStillBusy)) →
      cmd.sto = true ∧ s.params.readIdleOnStop = true)) ∧
  (∀ (cmd : Flags) (data : Byte) (s t : State), s.AtRest → exec (.sendWrite cmd data) s = .next t →
    t.response = some (.err (busErr s.params .transferFinishedBusStillBusy)) → cmd.sto = true)

/-! ## Blocks -/

/-- 41_transactions.md R100: `WRITE_BLOCK` resets, sends the address byte with start and the write direction, then the
bytes in order with stop on the last only if asked; the first error ends it with no further byte. -/
def Obligations.WriteBlockSendsItsBytesInOrder : Prop :=
  ∀ (addr : Nat) (bytes : List Byte) (sendStop : Bool) (s : State), s.AtRest → addr ≤ 0x7F → bytes ≠ [] →
    ∃ hi lo ctrl t tr out, exec (.writeBlock addr bytes sendStop) s = .next t ∧
      t.trace = resetEvents s.params s.prescale 1 hi lo ctrl ++ tr ∧
      WriteSequence s.params
        (({ sta := true }, addrByte (BitVec.ofNat 7 addr) false) :: dataBytes sendStop bytes) 4 tr out ∧
      t.response = some (replyOf unitVal out)

/-- 20_memory.md R50, 60_exceptions.md R130: the data and command words a `WRITE_BLOCK` writes are a beginning of the
whole block's: the whole of it if it succeeds, and if any of it is not sent the block has ended in a bus error. (All of
it may be sent and the last byte still fail.) -/
def Obligations.WriteBlockWritesABeginningOfItsBlock : Prop :=
  ∀ (addr : Nat) (bytes : List Byte) (sendStop : Bool) (s t : State), s.AtRest →
    exec (.writeBlock addr bytes sendStop) s = .next t →
    ∃ k ≤ bytes.length,
      writesTo .data t.trace = [0, wordOfByte (addrByte (BitVec.ofNat 7 addr) false)] ++ (bytes.take k).map wordOfByte ∧
      writesTo .cmd t.trace = [0, wordOfByte (writeCommand s.params { sta := true })] ++
        ((dataBytes sendStop bytes).take k).map (fun e => wordOfByte (writeCommand s.params e.1)) ∧
      (t.response = some (.ok .unit) → k = bytes.length) ∧
      (k < bytes.length → ∃ e, t.response = some (.err e) ∧ isBusError e.kind = true)

/-- 41_transactions.md R101: `READ_BLOCK` resets, sends the address byte with the read direction as a write command,
then reads the bytes, stop and ack on the last only; an error ends it and discards the bytes. -/
def Obligations.ReadBlockReadsItsBytesInOrder : Prop :=
  ∀ (addr count : Nat) (s : State), s.AtRest → addr ≤ 0x7F → 1 ≤ count →
    ∃ hi lo ctrl ws t more out, exec (.readBlock addr count) s = .next t ∧ PollWords s.params ws ∧
      t.trace = resetEvents s.params s.prescale 1 hi lo ctrl ++
        (sendWriteEvents s.params { sta := true } (addrByte (BitVec.ofNat 7 addr) true) 4 ws ++ more) ∧
      t.response = some (replyOf Val.bytes out) ∧
      match waitVerdict s.params true false ws with
      | .error e => more = [] ∧ out = .error e
      | .ok _ => ReadSequence s.params (readFlags count) [] (4 + ws.length) more out

/-- 20_memory.md R50, 41_transactions.md R101: on success the result has as many bytes as asked, the i-th received at
index i. -/
def Obligations.ReadBlockReturnsTheBytesReceived : Prop :=
  ∀ (addr count : Nat) (s t : State) (bs : List Byte), s.AtRest → exec (.readBlock addr count) s = .next t →
    t.response = some (.ok (.bytes bs)) →
    bs.length = count ∧
      bs = (accessesFrom [] t.trace).filterMap (fun a =>
        match a with
        | .answered .rxdata w => some (lowByte w)
        | _ => none)

/-- 41_transactions.md section 5, which the spec marks as derived: the size of a successful operation's trace, where
the status reads count the attempts. -/
def Obligations.SuccessfulTracesHaveTheirSize : Prop :=
  (∀ (addr : Nat) (bytes : List Byte) (sendStop : Bool) (s t : State), s.AtRest →
    exec (.writeBlock addr bytes sendStop) s = .next t → t.response = some (.ok .unit) →
    t.trace.length = (if writesTo .ctrl t.trace = [] then 7 else 14) + 3 * (bytes.length + 1) +
      3 * (statusWords t.trace).length) ∧
  (∀ (addr count : Nat) (s t : State) (bs : List Byte), s.AtRest → exec (.readBlock addr count) s = .next t →
    t.response = some (.ok (.bytes bs)) →
    t.trace.length = (if writesTo .ctrl t.trace = [] then 7 else 14) + 3 + 4 * count +
      3 * (statusWords t.trace).length) ∧
  (∀ (addr : Nat) (s t : State), s.AtRest → exec (.ping addr) s = .next t → t.response = some (.ok (.bool true)) →
    t.trace.length = 7 + 3 * (statusWords t.trace).length)

/-- 41_transactions.md R104, 70_reset_and_hazards.md R159: a `WRITE_BLOCK` that succeeds leaves the transaction open
exactly when no stop was asked; a `READ_BLOCK` that succeeds and a `PING` that answers true leave it closed. -/
def Obligations.TransactionsEndWithTheirStop : Prop :=
  (∀ (addr : Nat) (bytes : List Byte) (sendStop : Bool) (s t : State), s.AtRest →
    exec (.writeBlock addr bytes sendStop) s = .next t → t.response = some (.ok .unit) →
    transactionOpen s.params t.history = !sendStop) ∧
  (∀ (addr count : Nat) (s t : State) (bs : List Byte), s.AtRest → exec (.readBlock addr count) s = .next t →
    t.response = some (.ok (.bytes bs)) → transactionOpen s.params t.history = false) ∧
  (∀ (addr : Nat) (s t : State), s.AtRest → exec (.ping addr) s = .next t → t.response = some (.ok (.bool true)) →
    transactionOpen s.params t.history = false)

/-! ## ping and scan -/

/-- 41_transactions.md R102: `PING` never raises: it answers true exactly when its address write and its read both
succeed, and issues no read after a failed address write. -/
def Obligations.PingAnswersAndNeverRaises : Prop :=
  ∀ (addr : Nat) (s : State), s.AtRest → addr ≤ 0x7F →
    ∃ answer next t, exec (.ping addr) s = .next t ∧ t.response = some (.ok (.bool answer)) ∧
      PingTrace s.params (BitVec.ofNat 7 addr) 1 t.trace answer next

/-- 41_transactions.md R103: `SCAN` pings every address from 0 to `SCAN_LAST`, in order and whatever each answered;
its result is strictly ascending and holds no address above `SCAN_LAST`. -/
def Obligations.ScanPingsEveryAddress : Prop :=
  ∀ s : State, s.AtRest →
    ∃ found t, exec .scan s = .next t ∧ t.response = some (.ok (.addrs found)) ∧
      ScanTrace s.params (List.range (s.params.scanLast.toNat + 1)) 1 t.trace found ∧
      writesTo .data t.trace = (List.range (s.params.scanLast.toNat + 1)).map
        (fun a => wordOfByte (addrByte (BitVec.ofNat 7 a) true)) ∧
      (found.map BitVec.toNat).Pairwise (· < ·) ∧ ∀ a ∈ found, a.toNat ≤ s.params.scanLast.toNat

/-! ## Registry and handles -/

/-- 42_registry.md R119, R131: a registered name gives its address, an absent one DeviceNotFound with the name; no
register operation. Besides, only what any request restarts is changed (`State.withReply`): the trace, the handles and
the response (log entry 27), and `attempt` and `status`, which are undefined after it, fresh free values (log entry 8).
-/
def Obligations.GetSlaveAddressLooksTheNameUp : Prop :=
  ∀ (n : DevName) (s : State), s.Ready →
    exec (.getSlaveAddress n) s = .next (s.withReply
      (match lookup n s.registry with
       | some a => .ok (.addr a)
       | none => .err { kind := .deviceNotFound, master := s.params.masterId, name := some n }))

/-- 42_registry.md R120: the handle of a registered name holds this Master and the registered address; an absent name
gives DeviceNotFound; no register operation. Besides, only what any request restarts is changed (`State.withReply`): the
trace, the handles and the response (log entry 27), and `attempt` and `status`, which are undefined after it, fresh free
values (log entry 8). -/
def Obligations.GetSlaveGivesTheHandleOfTheName : Prop :=
  ∀ (n : DevName) (s : State), s.Ready → RegistryRight s →
    exec (.getSlave n) s = .next (s.withReply
      (match lookup n s.registry with
       | some a => .ok (.handle { master := s.params.masterId, addr := a })
       | none => .err { kind := .deviceNotFound, master := s.params.masterId, name := some n }))

/-- 42_registry.md R122: a handle's block operations complete exactly as the block operations at its address. -/
def Obligations.SlaveOperationsDelegateToTheAddress : Prop :=
  (∀ (h : SlaveHandle) (bytes : List Byte) (sendStop : Bool) (s : State), s.AtRest → bytes ≠ [] →
    ∃ t, exec (.slaveWriteBlock h bytes sendStop) s = .next t ∧
      exec (.writeBlock h.addr.toNat bytes sendStop) s = .next t) ∧
  (∀ (h : SlaveHandle) (count : Nat) (s : State), s.AtRest → 1 ≤ count →
    ∃ t, exec (.slaveReadBlock h count) s = .next t ∧ exec (.readBlock h.addr.toNat count) s = .next t)

/-- 30_encoding.md R76: a pseudo-request expands to the lookup of its name and the slave request with the name's handle.
As the model has it (log entry 36, a design choice) it runs the two one after the other: its result is the second's, on
the state the lookup leaves, and where the lookup fails its whole outcome is DeviceNotFound. -/
def Obligations.PseudoRequestsExpand : Prop :=
  (∀ (n : DevName) (h : SlaveHandle) (bytes : List Byte) (sendStop : Bool) (count : Nat) (s : State), s.Ready →
    lookup n s.slaves = some h →
    slaveWriteByName n bytes sendStop s =
        exec (.slaveWriteBlock h bytes sendStop) (s.withReply (.ok (.handle h))) ∧
      slaveReadByName n count s = exec (.slaveReadBlock h count) (s.withReply (.ok (.handle h)))) ∧
  (∀ (n : DevName) (bytes : List Byte) (sendStop : Bool) (count : Nat) (s : State), s.Ready → lookup n s.slaves = none →
    slaveWriteByName n bytes sendStop s =
        .next (s.withReply (.err { kind := .deviceNotFound, master := s.params.masterId, name := some n })) ∧
      slaveReadByName n count s =
        .next (s.withReply (.err { kind := .deviceNotFound, master := s.params.masterId, name := some n })))

/-- 42_registry.md R115, R117, R118: after construction a name has the masked address of its last occurrence in the
mapping, and duplicates raise nothing. -/
def Obligations.LastOccurrenceOfANameWins : Prop :=
  ∀ (p : Params) (ratio : Ratio) (mapping : List (DevName × String)) (parsed : List (DevName × Nat)),
    paramsValid p = true → mapping.map (fun e => (e.1, parseUnsigned e.2)) = parsed.map (fun e => (e.1, some e.2)) →
    ∃ s, construct p ratio mapping = .next s ∧
      ∀ n, lookup n s.registry = ((parsed.filter (fun e => e.1 = n)).getLast?).map (fun e => maskAddress p e.2)

/-- 42_registry.md R116: the strings `PARSE_UNSIGNED` accepts and their values; a mapping with any other is not
constructed. -/
def Obligations.AddressStringsAreDecimalBelowTwoToThe32 : Prop :=
  (∀ (str : String) (v : Nat), parseUnsigned str = some v ↔
    str.toList ≠ [] ∧ (∀ c ∈ str.toList, '0' ≤ c ∧ c ≤ '9') ∧
      v = str.toList.foldl (fun acc c => 10 * acc + (c.toNat - '0'.toNat)) 0 ∧ v < 2 ^ 32) ∧
  (∀ (p : Params) (ratio : Ratio) (mapping : List (DevName × String)), paramsValid p = true →
    (∃ e ∈ mapping, parseUnsigned e.2 = none) → construct p ratio mapping = .fault .badAddressString)

/-- 42_registry.md R117: with the default mask the registered address is the parsed value modulo 128, and "200" gives
0x48. -/
def Obligations.ParsedAddressIsMaskedToSevenBits : Prop :=
  (∀ v : Nat, (maskAddress Config.defaults v).toNat = v % 128) ∧
  (∀ ratio : Ratio, ∃ s, construct Config.defaults ratio [("x", "200")] = .next s ∧ lookup "x" s.registry = some 0x48)

/-- 10_state.md R37, 70_reset_and_hazards.md R150, R151: what construction leaves, the invariant among it, with no
register operation. -/
def Obligations.ConstructionLeavesAnIdleEngine : Prop :=
  ∀ (p : Params) (ratio : Ratio) (mapping : List (DevName × String)) (s : State), construct p ratio mapping = .next s →
    s.params = p ∧ s.prescale = Config.prescaleOf ratio ∧ s.seq = .idle ∧ s.queue = [] ∧ s.history = [] ∧ s.trace = [] ∧
      s.regs = [] ∧ s.AtRest ∧ s.Inv

/-! ## Command bytes -/

/-- As log entry 5 has a command byte presented (10_state.md section 2, 20_memory.md section 4): each command byte
reaches `CMD` by one committed write, the only one: in the model's record of the device's registers (log entry 10; the
device may itself change a register, 10_state.md R30) `CMD` holds the byte and every other is as it was; one with read or
write set starts a bus operation, 0 starts none. -/
def Obligations.CommandBytesReachTheCommandRegister : Prop :=
  ∀ (sta sto ack : Bool) (s : State), s.AtRest →
    (∃ t, exec .cmdZero s = .next t ∧ t.trace = [.w .cmd 0, .c []] ∧ t.regByte .cmd = some 0 ∧
      (∀ r, r ≠ .cmd → t.regByte r = s.regByte r) ∧ busOperations s.params t.history = busOperations s.params s.history) ∧
    (∃ t, exec (.cmdWrite sta sto ack) s = .next t ∧
      t.trace = [.w .cmd (wordOfByte (flagsByte s.params ⟨sta, sto, false, true, ack⟩)), .c []] ∧
      t.regByte .cmd = some (flagsByte s.params ⟨sta, sto, false, true, ack⟩) ∧
      (∀ r, r ≠ .cmd → t.regByte r = s.regByte r) ∧
      busOperations s.params t.history = busOperations s.params s.history ++
        [wordOfByte (flagsByte s.params ⟨sta, sto, false, true, ack⟩)]) ∧
    (∃ t, exec (.cmdRead sta sto ack) s = .next t ∧
      t.trace = [.w .cmd (wordOfByte (flagsByte s.params ⟨sta, sto, true, false, ack⟩)), .c []] ∧
      t.regByte .cmd = some (flagsByte s.params ⟨sta, sto, true, false, ack⟩) ∧
      (∀ r, r ≠ .cmd → t.regByte r = s.regByte r) ∧
      busOperations s.params t.history = busOperations s.params s.history ++
        [wordOfByte (flagsByte s.params ⟨sta, sto, true, false, ack⟩)])

/-! ## Frames -/

/-- 42_registry.md R123, 10_state.md R21, R27: what every instruction leaves alone: the parameters, the registry, the
handles, the ports and the idle sequencer; and the prescale but for `CONFIGURE`. `attempt` and `status` do not persist
(R20) and are undefined after it (R24): free values, as log entry 8 has them. -/
def Obligations.InstructionsLeaveTheRestOfTheEngineAlone : Prop :=
  ∀ (i : Instr) (s t : State), s.queue = [] → exec i s = .next t →
    t.params = s.params ∧ t.registry = s.registry ∧ t.slaves = s.slaves ∧ t.port = s.port ∧ t.pace = s.pace ∧
      t.seq = .idle ∧ t.queue = [] ∧ (∀ ratio, i = .configure ratio → t.prescale = Config.prescaleOf ratio) ∧
      ((∀ ratio, i ≠ .configure ratio) → t.prescale = s.prescale) ∧ Undefined t

/-- 10_state.md R28: every byte of the register memory, the model's record of the device (log entry 10), reads as before,
but for those of the registers an instruction writes. -/
def Obligations.InstructionsWriteOnlyTheirRegisters : Prop :=
  ∀ (i : Instr) (s t : State), s.queue = [] → exec i s = .next t →
    ∀ a, (∀ r ∈ registersWritten i, regNumber r ≠ a) → Memory.read t.regs a = Memory.read s.regs a

/-- The model's record of the device's registers (log entry 10, a design choice; 10_state.md R30 and R38 leave what a
register holds to the device) after any instruction: the low byte of the last word applied to each, which is the last its
trace writes to it (20_memory.md R41, R43), and what was recorded before where the trace writes none. -/
def Obligations.RegistersHoldTheLastWordWritten : Prop :=
  ∀ (i : Instr) (s t : State), s.queue = [] → exec i s = .next t →
    ∀ r, t.regByte r = ((writesTo r t.trace).getLast?.map lowByte).or (s.regByte r)

/-- 20_memory.md R55, R56: every register operation an instruction enqueues is applied, in the order it was enqueued,
and nothing else is; no write is left pending. -/
def Obligations.OperationsAreAppliedInTheOrderEnqueued : Prop :=
  ∀ (i : Instr) (s t : State), s.queue = [] → exec i s = .next t →
    t.history = s.history ++ accessesFrom [] t.trace ∧ pendingAfter [] t.trace = []

/-- 10_state.md section 2 as the model has it (log entry 2): the words a trace resolves are the device's answers, each as
the `REG_WIDTH` bits the Register Interface carries, in order, as far as they are given; the answers not taken stay. -/
def Obligations.AnswersAreTakenInOrder : Prop :=
  ∀ (i : Instr) (s t : State), s.queue = [] → exec i s = .next t →
    ∃ taken, s.answers = taken ++ t.answers ∧
      (answersIn (accessesFrom [] t.trace) = taken.map (fitWord s.params) ∨
        (t.answers = [] ∧ taken.map (fitWord s.params) <+: answersIn (accessesFrom [] t.trace)))

/-- 10_state.md R28, R29, R31, 20_memory.md R51: no instruction reads a write-only register or writes a read-only one;
the words it writes are below 0x100; to the control register only the two control values; to the command register only
0 or a word with exactly one of read and write; and the words it reads are of `REG_WIDTH` bits (00_scope.md R9). -/
def Obligations.EveryBusEventIsAllowed : Prop :=
  ∀ (i : Instr) (s t : State), s.queue = [] → exec i s = .next t → t.trace.all (eventAllowed s.params) = true

/-! ## Errors and faults -/

/-- 60_exceptions.md R132: an error carries this engine's identifier; DeviceNotFound, and only it, carries the
requested name, and only a lookup of that name reports it. -/
def Obligations.ErrorsCarryTheirContext : Prop :=
  ∀ (i : Instr) (s t : State) (e : Err), s.queue = [] → exec i s = .next t → t.response = some (.err e) →
    e.master = s.params.masterId ∧ (isBusError e.kind = true → e.name = none) ∧
      (isBusError e.kind = false → ∃ n, e.name = some n ∧ (i = .getSlaveAddress n ∨ i = .getSlave n))

/-- 60_exceptions.md R130, R133: a bus error any instruction reports is the one the last status word it read decides:
arbitration, then timeout, then acknowledge, then bus idle, the last two where the `WAIT` it ended in required them (a
`WAIT` by its arguments, any other by the command word written last: 40_primitives.md R86, R87); and no event but that
read's commit follows. -/
def Obligations.BusErrorsComeFromTheLastStatus : Prop :=
  ∀ (i : Instr) (s t : State) (e : Err), s.queue = [] → exec i s = .next t → t.response = some (.err e) →
    isBusError e.kind = true →
    ∃ before h last, t.trace = before ++ [.s, .r .status h, .c [(h, last)]] ∧
      verdictOf s.params (lastWaitRequired s.params i t.trace).1 (lastWaitRequired s.params i t.trace).2 last = .error e

/-- Parameters the model does not take are refused with the fault `F_BAD_PARAMETER` (60_exceptions.md R137): masks that
violate 00_scope.md R7, a retry budget of 0 (40_primitives.md R93), words of less than 8 bits (log entry 1): no
construction, no instruction and no step. That this fault comes before any other, on an engine that is busy or has
nothing presented too, is the model's choice (log entry 34). -/
def Obligations.ParametersNotTakenAreRefused : Prop :=
  ∀ (p : Params), paramsValid p = false →
    (∀ ratio mapping, construct p ratio mapping = .fault .badParameter) ∧
    (∀ (i : Instr) (s : State), s.params = p → exec i s = .fault .badParameter ∧ step s = .fault .badParameter)

/-- 10_state.md section 1, at the port of log entry 12: a request is accepted only when the sequencer is idle; one
presented while it is not is refused with the concurrency fault, at the port and by every instruction. -/
def Obligations.ConcurrentRequestsFault : Prop :=
  (∀ (i : Instr) (s : State), paramsValid s.params = true → s.seq ≠ .idle → exec i s = .fault .concurrentRequest) ∧
  (∀ (s : State) (w : Presented) (rest : List Presentation), paramsValid s.params = true → s.seq ≠ .idle →
    s.port = { what := w, serialized := false } :: rest → step s = .fault .concurrentRequest)

/-- 20_memory.md section 2, at the lines of log entries 11 and 29: every line that uses the value of a handle (the latched
prescale of `RESET`, the received byte of `SEND_READ`, the status of `WAIT`) faults if no commit has resolved it; at a
position with the right queue and handles no step does. -/
def Obligations.DeferredReadsFaultAndNeverHappen : Prop :=
  (∀ (s : State) (f : Frame) (callers : List Frame) (h : Nat), paramsValid s.params = true →
    s.seq = .running f callers → handlesRight f → h ∈ usedAt f → s.resolvedValue h = none →
    tick s = .fault .deferredRead) ∧
  (∀ s : State, positionRight s → step s ≠ .fault .deferredRead)

/-! ## The Register Interface -/

/-- 20_memory.md R43: a commit applies the whole queue in order, resolves every handle it owes, and leaves nothing
pending. -/
def Obligations.CommitAppliesTheQueueInOrder : Prop :=
  ∀ s : State, (s.queue.filterMap (fun op =>
      match op with
      | .read _ h => some h
      | .write _ _ => none)).Nodup →
    ∃ vals, s.commit.trace = s.trace ++ [.c vals] ∧ s.commit.history = s.history ++ appliedBy s.queue vals ∧
      s.commit.queue = [] ∧ s.commit.resolved = s.resolved ++ vals ∧
      vals.map Prod.fst = s.queue.filterMap (fun op =>
        match op with
        | .read _ h => some h
        | .write _ _ => none)

/-! ## The step -/

/-- The request port of log entries 4 and 12. When what is presented decodes, a step of an idle engine is `exec` of it
with the presentation taken from the port: of a command byte always, of a request when a step is a whole request and
no second caller breaks in (if one does, the step is the concurrency fault of 10_state.md R23). -/
def Obligations.StepRunsTheDecodedInstruction : Prop :=
  ∀ (s : State) (w : Presentation) (rest : List Presentation) (i : Instr), s.Ready → s.port = w :: rest →
    decode s.params w.what = .ok i →
    (isRequest i = false → step s = exec i { s with port := rest }) ∧
    (isRequest i = true → s.pace = .whole →
      ((∀ w' ∈ rest.head?, w'.serialized = true) → step s = exec i { s with port := rest }) ∧
      ((∃ w' ∈ rest.head?, w'.serialized = false) → step s = .fault .concurrentRequest))

/-- 10_state.md section 1, at the granularity of log entry 4: when a step is one line, an idle engine accepts the
request at its first line, and an engine in an operation executes the line about to execute. Acceptance also restarts the
trace, the handles and the response (log entry 27), and leaves `attempt` and `status` undefined, fresh free values (log
entry 8). -/
def Obligations.StepMovesTheSequencerByOneLine : Prop :=
  (∀ (s : State) (w : Presentation) (rest : List Presentation) (i : Instr), s.Ready → s.pace = .line →
    s.port = w :: rest → decode s.params w.what = .ok i → isRequest i = true →
    step s = .next { s.undefine with port := rest, trace := [], resolved := [], nextHandle := 1, response := none,
                                     seq := .running (startFrame i) [] }) ∧
  (∀ (s : State) (f : Frame) (callers : List Frame), paramsValid s.params = true → s.seq = .running f callers →
    (∀ w ∈ s.port.head?, w.serialized = true) → step s = lineOf f callers s)

/-- 70_reset_and_hazards.md R152: with nothing presented an idle engine waits, unchanged. -/
def Obligations.IdleEngineWaits : Prop :=
  ∀ s : State, s.Ready → s.port = [] → step s = .next s

/-- 10_state.md section 1, at the granularity of log entry 4: a request run line by line from its acceptance comes, in
finitely many steps, to exactly the outcome `exec` gives it whole, faults included. -/
def Obligations.LinesOfARequestComeToItsOutcome : Prop :=
  ∀ (i : Instr) (s : State), isRequest i = true → s.AtRest → s.port = [] →
    ∃ n u, startRequest i s = .next u ∧ Sys2Proof.core.run n u = exec i s

/-! ## Invariants -/

/-- Every step, whole or one line, keeps the invariant: the register memory's form, the registry's (10_state.md R25,
R26); at every sequencer position exactly the pending operations and resolved handles of 20_memory.md R54 and
70_reset_and_hazards.md R156; `attempt` in the range of 10_state.md R20 (of its free values by log entry 8); and every
word of at most `REG_WIDTH` bits (00_scope.md R9). -/
def Obligations.EveryStepKeepsTheInvariant : Prop :=
  ∀ s t : State, s.Inv → step s = .next t → t.Inv

/-- The machine after construction has the invariant and accepts a request; and what 10_state.md R37 gives it: the
prescale of its ratio, the registry of its mapping, a handle per entry, nothing pending, nothing the device has seen.
-/
def Obligations.ResetStateHasTheInvariant : Prop :=
  State.reset.Inv ∧ State.reset.AtRest ∧ State.reset.prescale = Config.prescaleOf Config.targetFrequencyRatio ∧
    State.reset.registry = buildRegistry Config.defaults Config.parsedMapping ∧ State.reset.history = []

/-- 42_registry.md R123, 10_state.md R21: no step, whole or one line, changes the parameters, the registry or the
handles, and none gives the prescale a value but `PRESCALE_OF` of a ratio. -/
def Obligations.NoStepChangesTheRegistry : Prop :=
  ∀ s t : State, step s = .next t →
    t.params = s.params ∧ t.registry = s.registry ∧ t.slaves = s.slaves ∧
      (t.prescale = s.prescale ∨ ∃ ratio, t.prescale = Config.prescaleOf ratio)
end

