-- ==== Sys2Proof/Laws/Memory.lean ====
section
/-! SUPPORT. Laws/Memory.lean: the laws of the device's register memory: a read after a write, a write elsewhere, and the
canonical form kept. -/

namespace Sys2Proof.Machine

@[simp] theorem Memory.read_nil (a : Nat) : Memory.read [] a = none := rfl

theorem Memory.read_write_same (m : Memory) (a : Nat) (v : Byte) : Memory.read (Memory.write m a v) a = some v := by
  induction m with
  | nil => simp [Memory.write, Memory.read]
  | cons c m ih =>
    obtain ⟨b, w⟩ := c
    simp only [Memory.write]
    split
    · simp [Memory.read]
    · split
      · simp [Memory.read]
      · next h => simp [Memory.read, Ne.symm h, ih]

theorem Memory.read_write_other (m : Memory) (a b : Nat) (v : Byte) (h : b ≠ a) :
    Memory.read (Memory.write m a v) b = Memory.read m b := by
  induction m with
  | nil => simp [Memory.write, Memory.read, Ne.symm h]
  | cons c m ih =>
    obtain ⟨d, w⟩ := c
    simp only [Memory.write]
    split
    · simp [Memory.read, Ne.symm h]
    · split
      · next hd => subst hd; simp [Memory.read, Ne.symm h]
      · simp [Memory.read, ih]

theorem Memory.above_write (m : Memory) (a b : Nat) (v : Byte) (hb : b < a) (h : m.above b = true) :
    (Memory.write m a v).above b = true := by
  induction m with
  | nil => simp [Memory.write, Memory.above, hb]
  | cons c m ih =>
    obtain ⟨d, w⟩ := c
    simp only [Memory.above, Bool.and_eq_true, decide_eq_true_eq] at h
    simp only [Memory.write]
    split
    · simp [Memory.above, hb, h]
    · split
      · simp [Memory.above, hb, h]
      · simp [Memory.above, h, ih h.2]

theorem Memory.above_of_lt (m : Memory) (a b : Nat) (hab : a < b) (h : m.above b = true) : m.above a = true := by
  induction m with
  | nil => rfl
  | cons c m ih =>
    simp only [Memory.above, Bool.and_eq_true, decide_eq_true_eq] at h ⊢
    exact ⟨by omega, ih h.2⟩

/-- Every write keeps the canonical form. -/
theorem Memory.wf_write (m : Memory) (a : Nat) (v : Byte) (h : m.wf = true) : (Memory.write m a v).wf = true := by
  induction m with
  | nil => rfl
  | cons c m ih =>
    obtain ⟨d, w⟩ := c
    simp only [Memory.wf, Bool.and_eq_true] at h
    simp only [Memory.write]
    split
    · next hd => simp [Memory.wf, Memory.above, hd, h, Memory.above_of_lt m a d hd h.1]
    · split
      · next hd => subst hd; simp [Memory.wf, h]
      · next h1 h2 => simp [Memory.wf, ih h.2, Memory.above_write m a d v (by omega) h.1]

theorem regNumber_injective (r q : Reg) (h : regNumber r = regNumber q) : r = q := by
  cases r <;> cases q <;> simp [regNumber] at h ⊢

end Sys2Proof.Machine
end

