-- ==== Sys2Proof/Laws/State.lean ====
section
/-! SUPPORT. Laws/State.lean: one lemma per field per update of the state, so that no proof unfolds a record update, and
the fields a commit leaves alone. -/

namespace Sys2Proof.Machine

/-! ## memWrite -/

@[simp] theorem memWrite_params (s : State) (r : Reg) (v : Word) : (s.memWrite r v).params = s.params := rfl
@[simp] theorem memWrite_prescale (s : State) (r : Reg) (v : Word) : (s.memWrite r v).prescale = s.prescale := rfl
@[simp] theorem memWrite_registry (s : State) (r : Reg) (v : Word) : (s.memWrite r v).registry = s.registry := rfl
@[simp] theorem memWrite_slaves (s : State) (r : Reg) (v : Word) : (s.memWrite r v).slaves = s.slaves := rfl
@[simp] theorem memWrite_seq (s : State) (r : Reg) (v : Word) : (s.memWrite r v).seq = s.seq := rfl
@[simp] theorem memWrite_attempt (s : State) (r : Reg) (v : Word) : (s.memWrite r v).attempt = s.attempt := rfl
@[simp] theorem memWrite_status (s : State) (r : Reg) (v : Word) : (s.memWrite r v).status = s.status := rfl
@[simp] theorem memWrite_queue (s : State) (r : Reg) (v : Word) : (s.memWrite r v).queue = s.queue ++ [.write r v] := rfl
@[simp] theorem memWrite_resolved (s : State) (r : Reg) (v : Word) : (s.memWrite r v).resolved = s.resolved := rfl
@[simp] theorem memWrite_nextHandle (s : State) (r : Reg) (v : Word) : (s.memWrite r v).nextHandle = s.nextHandle := rfl
@[simp] theorem memWrite_regs (s : State) (r : Reg) (v : Word) : (s.memWrite r v).regs = s.regs := rfl
@[simp] theorem memWrite_history (s : State) (r : Reg) (v : Word) : (s.memWrite r v).history = s.history := rfl
@[simp] theorem memWrite_trace (s : State) (r : Reg) (v : Word) : (s.memWrite r v).trace = s.trace ++ [.w r v] := rfl
@[simp] theorem memWrite_response (s : State) (r : Reg) (v : Word) : (s.memWrite r v).response = s.response := rfl
@[simp] theorem memWrite_port (s : State) (r : Reg) (v : Word) : (s.memWrite r v).port = s.port := rfl
@[simp] theorem memWrite_answers (s : State) (r : Reg) (v : Word) : (s.memWrite r v).answers = s.answers := rfl
@[simp] theorem memWrite_draws (s : State) (r : Reg) (v : Word) : (s.memWrite r v).draws = s.draws := rfl
@[simp] theorem memWrite_frees (s : State) (r : Reg) (v : Word) : (s.memWrite r v).frees = s.frees := rfl
@[simp] theorem memWrite_pace (s : State) (r : Reg) (v : Word) : (s.memWrite r v).pace = s.pace := rfl

/-! ## memRead -/

@[simp] theorem memRead_params (s : State) (r : Reg) : (s.memRead r).params = s.params := rfl
@[simp] theorem memRead_prescale (s : State) (r : Reg) : (s.memRead r).prescale = s.prescale := rfl
@[simp] theorem memRead_registry (s : State) (r : Reg) : (s.memRead r).registry = s.registry := rfl
@[simp] theorem memRead_slaves (s : State) (r : Reg) : (s.memRead r).slaves = s.slaves := rfl
@[simp] theorem memRead_seq (s : State) (r : Reg) : (s.memRead r).seq = s.seq := rfl
@[simp] theorem memRead_attempt (s : State) (r : Reg) : (s.memRead r).attempt = s.attempt := rfl
@[simp] theorem memRead_status (s : State) (r : Reg) : (s.memRead r).status = s.status := rfl
@[simp] theorem memRead_queue (s : State) (r : Reg) : (s.memRead r).queue = s.queue ++ [.read r s.nextHandle] := rfl
@[simp] theorem memRead_resolved (s : State) (r : Reg) : (s.memRead r).resolved = s.resolved := rfl
@[simp] theorem memRead_nextHandle (s : State) (r : Reg) : (s.memRead r).nextHandle = s.nextHandle + 1 := rfl
@[simp] theorem memRead_regs (s : State) (r : Reg) : (s.memRead r).regs = s.regs := rfl
@[simp] theorem memRead_history (s : State) (r : Reg) : (s.memRead r).history = s.history := rfl
@[simp] theorem memRead_trace (s : State) (r : Reg) : (s.memRead r).trace = s.trace ++ [.r r s.nextHandle] := rfl
@[simp] theorem memRead_response (s : State) (r : Reg) : (s.memRead r).response = s.response := rfl
@[simp] theorem memRead_port (s : State) (r : Reg) : (s.memRead r).port = s.port := rfl
@[simp] theorem memRead_answers (s : State) (r : Reg) : (s.memRead r).answers = s.answers := rfl
@[simp] theorem memRead_draws (s : State) (r : Reg) : (s.memRead r).draws = s.draws := rfl
@[simp] theorem memRead_frees (s : State) (r : Reg) : (s.memRead r).frees = s.frees := rfl
@[simp] theorem memRead_pace (s : State) (r : Reg) : (s.memRead r).pace = s.pace := rfl

/-! ## sleep -/

@[simp] theorem sleep_params (s : State) : (s.sleep).params = s.params := rfl
@[simp] theorem sleep_prescale (s : State) : (s.sleep).prescale = s.prescale := rfl
@[simp] theorem sleep_registry (s : State) : (s.sleep).registry = s.registry := rfl
@[simp] theorem sleep_slaves (s : State) : (s.sleep).slaves = s.slaves := rfl
@[simp] theorem sleep_seq (s : State) : (s.sleep).seq = s.seq := rfl
@[simp] theorem sleep_attempt (s : State) : (s.sleep).attempt = s.attempt := rfl
@[simp] theorem sleep_status (s : State) : (s.sleep).status = s.status := rfl
@[simp] theorem sleep_queue (s : State) : (s.sleep).queue = s.queue := rfl
@[simp] theorem sleep_resolved (s : State) : (s.sleep).resolved = s.resolved := rfl
@[simp] theorem sleep_nextHandle (s : State) : (s.sleep).nextHandle = s.nextHandle := rfl
@[simp] theorem sleep_regs (s : State) : (s.sleep).regs = s.regs := rfl
@[simp] theorem sleep_history (s : State) : (s.sleep).history = s.history := rfl
@[simp] theorem sleep_trace (s : State) : (s.sleep).trace = s.trace ++ [.s] := rfl
@[simp] theorem sleep_response (s : State) : (s.sleep).response = s.response := rfl
@[simp] theorem sleep_port (s : State) : (s.sleep).port = s.port := rfl
@[simp] theorem sleep_answers (s : State) : (s.sleep).answers = s.answers := rfl
@[simp] theorem sleep_draws (s : State) : (s.sleep).draws = s.draws := rfl
@[simp] theorem sleep_frees (s : State) : (s.sleep).frees = s.frees := rfl
@[simp] theorem sleep_pace (s : State) : (s.sleep).pace = s.pace := rfl

/-! ## accept -/

@[simp] theorem accept_params (s : State) : (s.accept).params = s.params := rfl
@[simp] theorem accept_prescale (s : State) : (s.accept).prescale = s.prescale := rfl
@[simp] theorem accept_registry (s : State) : (s.accept).registry = s.registry := rfl
@[simp] theorem accept_slaves (s : State) : (s.accept).slaves = s.slaves := rfl
@[simp] theorem accept_seq (s : State) : (s.accept).seq = s.seq := rfl
@[simp] theorem accept_attempt (s : State) : (s.accept).attempt = freeAttempt s.params s.frees := rfl
@[simp] theorem accept_status (s : State) : (s.accept).status = freeStatus s.params s.frees := rfl
@[simp] theorem accept_queue (s : State) : (s.accept).queue = s.queue := rfl
@[simp] theorem accept_resolved (s : State) : (s.accept).resolved = [] := rfl
@[simp] theorem accept_nextHandle (s : State) : (s.accept).nextHandle = 1 := rfl
@[simp] theorem accept_regs (s : State) : (s.accept).regs = s.regs := rfl
@[simp] theorem accept_history (s : State) : (s.accept).history = s.history := rfl
@[simp] theorem accept_trace (s : State) : (s.accept).trace = [] := rfl
@[simp] theorem accept_response (s : State) : (s.accept).response = none := rfl
@[simp] theorem accept_port (s : State) : (s.accept).port = s.port := rfl
@[simp] theorem accept_answers (s : State) : (s.accept).answers = s.answers := rfl
@[simp] theorem accept_draws (s : State) : (s.accept).draws = s.draws := rfl
@[simp] theorem accept_frees (s : State) : (s.accept).frees = s.frees + 1 := rfl
@[simp] theorem accept_pace (s : State) : (s.accept).pace = s.pace := rfl

/-! ## finish -/

@[simp] theorem finish_params (s : State) (reply : Reply) : (s.finish reply).params = s.params := rfl
@[simp] theorem finish_prescale (s : State) (reply : Reply) : (s.finish reply).prescale = s.prescale := rfl
@[simp] theorem finish_registry (s : State) (reply : Reply) : (s.finish reply).registry = s.registry := rfl
@[simp] theorem finish_slaves (s : State) (reply : Reply) : (s.finish reply).slaves = s.slaves := rfl
@[simp] theorem finish_seq (s : State) (reply : Reply) : (s.finish reply).seq = .idle := rfl
@[simp] theorem finish_attempt (s : State) (reply : Reply) : (s.finish reply).attempt = s.attempt := rfl
@[simp] theorem finish_status (s : State) (reply : Reply) : (s.finish reply).status = s.status := rfl
@[simp] theorem finish_queue (s : State) (reply : Reply) : (s.finish reply).queue = s.queue := rfl
@[simp] theorem finish_resolved (s : State) (reply : Reply) : (s.finish reply).resolved = s.resolved := rfl
@[simp] theorem finish_nextHandle (s : State) (reply : Reply) : (s.finish reply).nextHandle = s.nextHandle := rfl
@[simp] theorem finish_regs (s : State) (reply : Reply) : (s.finish reply).regs = s.regs := rfl
@[simp] theorem finish_history (s : State) (reply : Reply) : (s.finish reply).history = s.history := rfl
@[simp] theorem finish_trace (s : State) (reply : Reply) : (s.finish reply).trace = s.trace := rfl
@[simp] theorem finish_response (s : State) (reply : Reply) : (s.finish reply).response = some reply := rfl
@[simp] theorem finish_port (s : State) (reply : Reply) : (s.finish reply).port = s.port := rfl
@[simp] theorem finish_answers (s : State) (reply : Reply) : (s.finish reply).answers = s.answers := rfl
@[simp] theorem finish_draws (s : State) (reply : Reply) : (s.finish reply).draws = s.draws := rfl
@[simp] theorem finish_frees (s : State) (reply : Reply) : (s.finish reply).frees = s.frees := rfl
@[simp] theorem finish_pace (s : State) (reply : Reply) : (s.finish reply).pace = s.pace := rfl

/-! ## applyWrite -/

@[simp] theorem applyWrite_params (s : State) (r : Reg) (v : Word) : (s.applyWrite r v).params = s.params := rfl
@[simp] theorem applyWrite_prescale (s : State) (r : Reg) (v : Word) : (s.applyWrite r v).prescale = s.prescale := rfl
@[simp] theorem applyWrite_registry (s : State) (r : Reg) (v : Word) : (s.applyWrite r v).registry = s.registry := rfl
@[simp] theorem applyWrite_slaves (s : State) (r : Reg) (v : Word) : (s.applyWrite r v).slaves = s.slaves := rfl
@[simp] theorem applyWrite_seq (s : State) (r : Reg) (v : Word) : (s.applyWrite r v).seq = s.seq := rfl
@[simp] theorem applyWrite_attempt (s : State) (r : Reg) (v : Word) : (s.applyWrite r v).attempt = s.attempt := rfl
@[simp] theorem applyWrite_status (s : State) (r : Reg) (v : Word) : (s.applyWrite r v).status = s.status := rfl
@[simp] theorem applyWrite_queue (s : State) (r : Reg) (v : Word) : (s.applyWrite r v).queue = s.queue := rfl
@[simp] theorem applyWrite_resolved (s : State) (r : Reg) (v : Word) : (s.applyWrite r v).resolved = s.resolved := rfl
@[simp] theorem applyWrite_nextHandle (s : State) (r : Reg) (v : Word) : (s.applyWrite r v).nextHandle = s.nextHandle := rfl
@[simp] theorem applyWrite_regs (s : State) (r : Reg) (v : Word) : (s.applyWrite r v).regs = Memory.write s.regs (regNumber r) (lowByte v) := rfl
@[simp] theorem applyWrite_history (s : State) (r : Reg) (v : Word) : (s.applyWrite r v).history = s.history ++ [.wrote r v] := rfl
@[simp] theorem applyWrite_trace (s : State) (r : Reg) (v : Word) : (s.applyWrite r v).trace = s.trace := rfl
@[simp] theorem applyWrite_response (s : State) (r : Reg) (v : Word) : (s.applyWrite r v).response = s.response := rfl
@[simp] theorem applyWrite_port (s : State) (r : Reg) (v : Word) : (s.applyWrite r v).port = s.port := rfl
@[simp] theorem applyWrite_answers (s : State) (r : Reg) (v : Word) : (s.applyWrite r v).answers = s.answers := rfl
@[simp] theorem applyWrite_draws (s : State) (r : Reg) (v : Word) : (s.applyWrite r v).draws = s.draws := rfl
@[simp] theorem applyWrite_frees (s : State) (r : Reg) (v : Word) : (s.applyWrite r v).frees = s.frees := rfl
@[simp] theorem applyWrite_pace (s : State) (r : Reg) (v : Word) : (s.applyWrite r v).pace = s.pace := rfl

/-! ## takeAnswer -/

@[simp] theorem takeAnswer_params (s : State) (r : Reg) : (s.takeAnswer r).params = s.params := rfl
@[simp] theorem takeAnswer_prescale (s : State) (r : Reg) : (s.takeAnswer r).prescale = s.prescale := rfl
@[simp] theorem takeAnswer_registry (s : State) (r : Reg) : (s.takeAnswer r).registry = s.registry := rfl
@[simp] theorem takeAnswer_slaves (s : State) (r : Reg) : (s.takeAnswer r).slaves = s.slaves := rfl
@[simp] theorem takeAnswer_seq (s : State) (r : Reg) : (s.takeAnswer r).seq = s.seq := rfl
@[simp] theorem takeAnswer_attempt (s : State) (r : Reg) : (s.takeAnswer r).attempt = s.attempt := rfl
@[simp] theorem takeAnswer_status (s : State) (r : Reg) : (s.takeAnswer r).status = s.status := rfl
@[simp] theorem takeAnswer_queue (s : State) (r : Reg) : (s.takeAnswer r).queue = s.queue := rfl
@[simp] theorem takeAnswer_resolved (s : State) (r : Reg) : (s.takeAnswer r).resolved = s.resolved := rfl
@[simp] theorem takeAnswer_nextHandle (s : State) (r : Reg) : (s.takeAnswer r).nextHandle = s.nextHandle := rfl
@[simp] theorem takeAnswer_regs (s : State) (r : Reg) : (s.takeAnswer r).regs = s.regs := rfl
@[simp] theorem takeAnswer_history (s : State) (r : Reg) : (s.takeAnswer r).history = s.history ++ [.answered r (s.nextAnswer r)] := rfl
@[simp] theorem takeAnswer_trace (s : State) (r : Reg) : (s.takeAnswer r).trace = s.trace := rfl
@[simp] theorem takeAnswer_response (s : State) (r : Reg) : (s.takeAnswer r).response = s.response := rfl
@[simp] theorem takeAnswer_port (s : State) (r : Reg) : (s.takeAnswer r).port = s.port := rfl
@[simp] theorem takeAnswer_answers (s : State) (r : Reg) : (s.takeAnswer r).answers = s.answers.tail := rfl
@[simp] theorem takeAnswer_draws (s : State) (r : Reg) : (s.takeAnswer r).draws = if s.answers.isEmpty then s.draws + 1 else s.draws := rfl
@[simp] theorem takeAnswer_frees (s : State) (r : Reg) : (s.takeAnswer r).frees = s.frees := rfl
@[simp] theorem takeAnswer_pace (s : State) (r : Reg) : (s.takeAnswer r).pace = s.pace := rfl

/-! ## setPrescale -/

@[simp] theorem setPrescale_params (s : State) (v : Prescale) : (s.setPrescale v).params = s.params := rfl
@[simp] theorem setPrescale_prescale (s : State) (v : Prescale) : (s.setPrescale v).prescale = v := rfl
@[simp] theorem setPrescale_registry (s : State) (v : Prescale) : (s.setPrescale v).registry = s.registry := rfl
@[simp] theorem setPrescale_slaves (s : State) (v : Prescale) : (s.setPrescale v).slaves = s.slaves := rfl
@[simp] theorem setPrescale_seq (s : State) (v : Prescale) : (s.setPrescale v).seq = s.seq := rfl
@[simp] theorem setPrescale_attempt (s : State) (v : Prescale) : (s.setPrescale v).attempt = s.attempt := rfl
@[simp] theorem setPrescale_status (s : State) (v : Prescale) : (s.setPrescale v).status = s.status := rfl
@[simp] theorem setPrescale_queue (s : State) (v : Prescale) : (s.setPrescale v).queue = s.queue := rfl
@[simp] theorem setPrescale_resolved (s : State) (v : Prescale) : (s.setPrescale v).resolved = s.resolved := rfl
@[simp] theorem setPrescale_nextHandle (s : State) (v : Prescale) : (s.setPrescale v).nextHandle = s.nextHandle := rfl
@[simp] theorem setPrescale_regs (s : State) (v : Prescale) : (s.setPrescale v).regs = s.regs := rfl
@[simp] theorem setPrescale_history (s : State) (v : Prescale) : (s.setPrescale v).history = s.history := rfl
@[simp] theorem setPrescale_trace (s : State) (v : Prescale) : (s.setPrescale v).trace = s.trace := rfl
@[simp] theorem setPrescale_response (s : State) (v : Prescale) : (s.setPrescale v).response = s.response := rfl
@[simp] theorem setPrescale_port (s : State) (v : Prescale) : (s.setPrescale v).port = s.port := rfl
@[simp] theorem setPrescale_answers (s : State) (v : Prescale) : (s.setPrescale v).answers = s.answers := rfl
@[simp] theorem setPrescale_draws (s : State) (v : Prescale) : (s.setPrescale v).draws = s.draws := rfl
@[simp] theorem setPrescale_frees (s : State) (v : Prescale) : (s.setPrescale v).frees = s.frees := rfl
@[simp] theorem setPrescale_pace (s : State) (v : Prescale) : (s.setPrescale v).pace = s.pace := rfl

/-! ## setAttempt -/

@[simp] theorem setAttempt_params (s : State) (n : Nat) : (s.setAttempt n).params = s.params := rfl
@[simp] theorem setAttempt_prescale (s : State) (n : Nat) : (s.setAttempt n).prescale = s.prescale := rfl
@[simp] theorem setAttempt_registry (s : State) (n : Nat) : (s.setAttempt n).registry = s.registry := rfl
@[simp] theorem setAttempt_slaves (s : State) (n : Nat) : (s.setAttempt n).slaves = s.slaves := rfl
@[simp] theorem setAttempt_seq (s : State) (n : Nat) : (s.setAttempt n).seq = s.seq := rfl
@[simp] theorem setAttempt_attempt (s : State) (n : Nat) : (s.setAttempt n).attempt = n := rfl
@[simp] theorem setAttempt_status (s : State) (n : Nat) : (s.setAttempt n).status = s.status := rfl
@[simp] theorem setAttempt_queue (s : State) (n : Nat) : (s.setAttempt n).queue = s.queue := rfl
@[simp] theorem setAttempt_resolved (s : State) (n : Nat) : (s.setAttempt n).resolved = s.resolved := rfl
@[simp] theorem setAttempt_nextHandle (s : State) (n : Nat) : (s.setAttempt n).nextHandle = s.nextHandle := rfl
@[simp] theorem setAttempt_regs (s : State) (n : Nat) : (s.setAttempt n).regs = s.regs := rfl
@[simp] theorem setAttempt_history (s : State) (n : Nat) : (s.setAttempt n).history = s.history := rfl
@[simp] theorem setAttempt_trace (s : State) (n : Nat) : (s.setAttempt n).trace = s.trace := rfl
@[simp] theorem setAttempt_response (s : State) (n : Nat) : (s.setAttempt n).response = s.response := rfl
@[simp] theorem setAttempt_port (s : State) (n : Nat) : (s.setAttempt n).port = s.port := rfl
@[simp] theorem setAttempt_answers (s : State) (n : Nat) : (s.setAttempt n).answers = s.answers := rfl
@[simp] theorem setAttempt_draws (s : State) (n : Nat) : (s.setAttempt n).draws = s.draws := rfl
@[simp] theorem setAttempt_frees (s : State) (n : Nat) : (s.setAttempt n).frees = s.frees := rfl
@[simp] theorem setAttempt_pace (s : State) (n : Nat) : (s.setAttempt n).pace = s.pace := rfl

/-! ## setStatus -/

@[simp] theorem setStatus_params (s : State) (w : Word) : (s.setStatus w).params = s.params := rfl
@[simp] theorem setStatus_prescale (s : State) (w : Word) : (s.setStatus w).prescale = s.prescale := rfl
@[simp] theorem setStatus_registry (s : State) (w : Word) : (s.setStatus w).registry = s.registry := rfl
@[simp] theorem setStatus_slaves (s : State) (w : Word) : (s.setStatus w).slaves = s.slaves := rfl
@[simp] theorem setStatus_seq (s : State) (w : Word) : (s.setStatus w).seq = s.seq := rfl
@[simp] theorem setStatus_attempt (s : State) (w : Word) : (s.setStatus w).attempt = s.attempt := rfl
@[simp] theorem setStatus_status (s : State) (w : Word) : (s.setStatus w).status = w := rfl
@[simp] theorem setStatus_queue (s : State) (w : Word) : (s.setStatus w).queue = s.queue := rfl
@[simp] theorem setStatus_resolved (s : State) (w : Word) : (s.setStatus w).resolved = s.resolved := rfl
@[simp] theorem setStatus_nextHandle (s : State) (w : Word) : (s.setStatus w).nextHandle = s.nextHandle := rfl
@[simp] theorem setStatus_regs (s : State) (w : Word) : (s.setStatus w).regs = s.regs := rfl
@[simp] theorem setStatus_history (s : State) (w : Word) : (s.setStatus w).history = s.history := rfl
@[simp] theorem setStatus_trace (s : State) (w : Word) : (s.setStatus w).trace = s.trace := rfl
@[simp] theorem setStatus_response (s : State) (w : Word) : (s.setStatus w).response = s.response := rfl
@[simp] theorem setStatus_port (s : State) (w : Word) : (s.setStatus w).port = s.port := rfl
@[simp] theorem setStatus_answers (s : State) (w : Word) : (s.setStatus w).answers = s.answers := rfl
@[simp] theorem setStatus_draws (s : State) (w : Word) : (s.setStatus w).draws = s.draws := rfl
@[simp] theorem setStatus_frees (s : State) (w : Word) : (s.setStatus w).frees = s.frees := rfl
@[simp] theorem setStatus_pace (s : State) (w : Word) : (s.setStatus w).pace = s.pace := rfl

/-! ## undefine -/

@[simp] theorem undefine_params (s : State) : (s.undefine).params = s.params := rfl
@[simp] theorem undefine_prescale (s : State) : (s.undefine).prescale = s.prescale := rfl
@[simp] theorem undefine_registry (s : State) : (s.undefine).registry = s.registry := rfl
@[simp] theorem undefine_slaves (s : State) : (s.undefine).slaves = s.slaves := rfl
@[simp] theorem undefine_seq (s : State) : (s.undefine).seq = s.seq := rfl
@[simp] theorem undefine_attempt (s : State) : (s.undefine).attempt = freeAttempt s.params s.frees := rfl
@[simp] theorem undefine_status (s : State) : (s.undefine).status = freeStatus s.params s.frees := rfl
@[simp] theorem undefine_queue (s : State) : (s.undefine).queue = s.queue := rfl
@[simp] theorem undefine_resolved (s : State) : (s.undefine).resolved = s.resolved := rfl
@[simp] theorem undefine_nextHandle (s : State) : (s.undefine).nextHandle = s.nextHandle := rfl
@[simp] theorem undefine_regs (s : State) : (s.undefine).regs = s.regs := rfl
@[simp] theorem undefine_history (s : State) : (s.undefine).history = s.history := rfl
@[simp] theorem undefine_trace (s : State) : (s.undefine).trace = s.trace := rfl
@[simp] theorem undefine_response (s : State) : (s.undefine).response = s.response := rfl
@[simp] theorem undefine_port (s : State) : (s.undefine).port = s.port := rfl
@[simp] theorem undefine_answers (s : State) : (s.undefine).answers = s.answers := rfl
@[simp] theorem undefine_draws (s : State) : (s.undefine).draws = s.draws := rfl
@[simp] theorem undefine_frees (s : State) : (s.undefine).frees = s.frees + 1 := rfl
@[simp] theorem undefine_pace (s : State) : (s.undefine).pace = s.pace := rfl

/-! ## setSeq -/

@[simp] theorem setSeq_params (s : State) (q : Seq) : (s.setSeq q).params = s.params := rfl
@[simp] theorem setSeq_prescale (s : State) (q : Seq) : (s.setSeq q).prescale = s.prescale := rfl
@[simp] theorem setSeq_registry (s : State) (q : Seq) : (s.setSeq q).registry = s.registry := rfl
@[simp] theorem setSeq_slaves (s : State) (q : Seq) : (s.setSeq q).slaves = s.slaves := rfl
@[simp] theorem setSeq_seq (s : State) (q : Seq) : (s.setSeq q).seq = q := rfl
@[simp] theorem setSeq_attempt (s : State) (q : Seq) : (s.setSeq q).attempt = s.attempt := rfl
@[simp] theorem setSeq_status (s : State) (q : Seq) : (s.setSeq q).status = s.status := rfl
@[simp] theorem setSeq_queue (s : State) (q : Seq) : (s.setSeq q).queue = s.queue := rfl
@[simp] theorem setSeq_resolved (s : State) (q : Seq) : (s.setSeq q).resolved = s.resolved := rfl
@[simp] theorem setSeq_nextHandle (s : State) (q : Seq) : (s.setSeq q).nextHandle = s.nextHandle := rfl
@[simp] theorem setSeq_regs (s : State) (q : Seq) : (s.setSeq q).regs = s.regs := rfl
@[simp] theorem setSeq_history (s : State) (q : Seq) : (s.setSeq q).history = s.history := rfl
@[simp] theorem setSeq_trace (s : State) (q : Seq) : (s.setSeq q).trace = s.trace := rfl
@[simp] theorem setSeq_response (s : State) (q : Seq) : (s.setSeq q).response = s.response := rfl
@[simp] theorem setSeq_port (s : State) (q : Seq) : (s.setSeq q).port = s.port := rfl
@[simp] theorem setSeq_answers (s : State) (q : Seq) : (s.setSeq q).answers = s.answers := rfl
@[simp] theorem setSeq_draws (s : State) (q : Seq) : (s.setSeq q).draws = s.draws := rfl
@[simp] theorem setSeq_frees (s : State) (q : Seq) : (s.setSeq q).frees = s.frees := rfl
@[simp] theorem setSeq_pace (s : State) (q : Seq) : (s.setSeq q).pace = s.pace := rfl

/-! ## goTo -/

@[simp] theorem goTo_params (s : State) (f : Frame) (cs : List Frame) (n : Nat) : (s.goTo f cs n).params = s.params := rfl
@[simp] theorem goTo_prescale (s : State) (f : Frame) (cs : List Frame) (n : Nat) : (s.goTo f cs n).prescale = s.prescale := rfl
@[simp] theorem goTo_registry (s : State) (f : Frame) (cs : List Frame) (n : Nat) : (s.goTo f cs n).registry = s.registry := rfl
@[simp] theorem goTo_slaves (s : State) (f : Frame) (cs : List Frame) (n : Nat) : (s.goTo f cs n).slaves = s.slaves := rfl
@[simp] theorem goTo_seq (s : State) (f : Frame) (cs : List Frame) (n : Nat) : (s.goTo f cs n).seq = .running { f with line := n } cs := rfl
@[simp] theorem goTo_attempt (s : State) (f : Frame) (cs : List Frame) (n : Nat) : (s.goTo f cs n).attempt = s.attempt := rfl
@[simp] theorem goTo_status (s : State) (f : Frame) (cs : List Frame) (n : Nat) : (s.goTo f cs n).status = s.status := rfl
@[simp] theorem goTo_queue (s : State) (f : Frame) (cs : List Frame) (n : Nat) : (s.goTo f cs n).queue = s.queue := rfl
@[simp] theorem goTo_resolved (s : State) (f : Frame) (cs : List Frame) (n : Nat) : (s.goTo f cs n).resolved = s.resolved := rfl
@[simp] theorem goTo_nextHandle (s : State) (f : Frame) (cs : List Frame) (n : Nat) : (s.goTo f cs n).nextHandle = s.nextHandle := rfl
@[simp] theorem goTo_regs (s : State) (f : Frame) (cs : List Frame) (n : Nat) : (s.goTo f cs n).regs = s.regs := rfl
@[simp] theorem goTo_history (s : State) (f : Frame) (cs : List Frame) (n : Nat) : (s.goTo f cs n).history = s.history := rfl
@[simp] theorem goTo_trace (s : State) (f : Frame) (cs : List Frame) (n : Nat) : (s.goTo f cs n).trace = s.trace := rfl
@[simp] theorem goTo_response (s : State) (f : Frame) (cs : List Frame) (n : Nat) : (s.goTo f cs n).response = s.response := rfl
@[simp] theorem goTo_port (s : State) (f : Frame) (cs : List Frame) (n : Nat) : (s.goTo f cs n).port = s.port := rfl
@[simp] theorem goTo_answers (s : State) (f : Frame) (cs : List Frame) (n : Nat) : (s.goTo f cs n).answers = s.answers := rfl
@[simp] theorem goTo_draws (s : State) (f : Frame) (cs : List Frame) (n : Nat) : (s.goTo f cs n).draws = s.draws := rfl
@[simp] theorem goTo_frees (s : State) (f : Frame) (cs : List Frame) (n : Nat) : (s.goTo f cs n).frees = s.frees := rfl
@[simp] theorem goTo_pace (s : State) (f : Frame) (cs : List Frame) (n : Nat) : (s.goTo f cs n).pace = s.pace := rfl

/-! ## callOp -/

@[simp] theorem callOp_params (s : State) (f : Frame) (cs : List Frame) (n : Nat) (i : Instr) : (s.callOp f cs n i).params = s.params := rfl
@[simp] theorem callOp_prescale (s : State) (f : Frame) (cs : List Frame) (n : Nat) (i : Instr) : (s.callOp f cs n i).prescale = s.prescale := rfl
@[simp] theorem callOp_registry (s : State) (f : Frame) (cs : List Frame) (n : Nat) (i : Instr) : (s.callOp f cs n i).registry = s.registry := rfl
@[simp] theorem callOp_slaves (s : State) (f : Frame) (cs : List Frame) (n : Nat) (i : Instr) : (s.callOp f cs n i).slaves = s.slaves := rfl
@[simp] theorem callOp_seq (s : State) (f : Frame) (cs : List Frame) (n : Nat) (i : Instr) : (s.callOp f cs n i).seq = .running (startFrame i) ({ f with line := n } :: cs) := rfl
@[simp] theorem callOp_attempt (s : State) (f : Frame) (cs : List Frame) (n : Nat) (i : Instr) : (s.callOp f cs n i).attempt = s.attempt := rfl
@[simp] theorem callOp_status (s : State) (f : Frame) (cs : List Frame) (n : Nat) (i : Instr) : (s.callOp f cs n i).status = s.status := rfl
@[simp] theorem callOp_queue (s : State) (f : Frame) (cs : List Frame) (n : Nat) (i : Instr) : (s.callOp f cs n i).queue = s.queue := rfl
@[simp] theorem callOp_resolved (s : State) (f : Frame) (cs : List Frame) (n : Nat) (i : Instr) : (s.callOp f cs n i).resolved = s.resolved := rfl
@[simp] theorem callOp_nextHandle (s : State) (f : Frame) (cs : List Frame) (n : Nat) (i : Instr) : (s.callOp f cs n i).nextHandle = s.nextHandle := rfl
@[simp] theorem callOp_regs (s : State) (f : Frame) (cs : List Frame) (n : Nat) (i : Instr) : (s.callOp f cs n i).regs = s.regs := rfl
@[simp] theorem callOp_history (s : State) (f : Frame) (cs : List Frame) (n : Nat) (i : Instr) : (s.callOp f cs n i).history = s.history := rfl
@[simp] theorem callOp_trace (s : State) (f : Frame) (cs : List Frame) (n : Nat) (i : Instr) : (s.callOp f cs n i).trace = s.trace := rfl
@[simp] theorem callOp_response (s : State) (f : Frame) (cs : List Frame) (n : Nat) (i : Instr) : (s.callOp f cs n i).response = s.response := rfl
@[simp] theorem callOp_port (s : State) (f : Frame) (cs : List Frame) (n : Nat) (i : Instr) : (s.callOp f cs n i).port = s.port := rfl
@[simp] theorem callOp_answers (s : State) (f : Frame) (cs : List Frame) (n : Nat) (i : Instr) : (s.callOp f cs n i).answers = s.answers := rfl
@[simp] theorem callOp_draws (s : State) (f : Frame) (cs : List Frame) (n : Nat) (i : Instr) : (s.callOp f cs n i).draws = s.draws := rfl
@[simp] theorem callOp_frees (s : State) (f : Frame) (cs : List Frame) (n : Nat) (i : Instr) : (s.callOp f cs n i).frees = s.frees := rfl
@[simp] theorem callOp_pace (s : State) (f : Frame) (cs : List Frame) (n : Nat) (i : Instr) : (s.callOp f cs n i).pace = s.pace := rfl

/-! ## commit

Each of these is an induction over the queue; the fields a commit changes are in Laws/Interface.lean. -/

@[simp] theorem applyAll_params (ops : List QueueOp) (s : State) : (applyAll ops s).1.params = s.params := by
  induction ops generalizing s with
  | nil => rfl
  | cons op ops ih => cases op <;> exact ih _
@[simp] theorem applyAll_prescale (ops : List QueueOp) (s : State) : (applyAll ops s).1.prescale = s.prescale := by
  induction ops generalizing s with
  | nil => rfl
  | cons op ops ih => cases op <;> exact ih _
@[simp] theorem applyAll_registry (ops : List QueueOp) (s : State) : (applyAll ops s).1.registry = s.registry := by
  induction ops generalizing s with
  | nil => rfl
  | cons op ops ih => cases op <;> exact ih _
@[simp] theorem applyAll_slaves (ops : List QueueOp) (s : State) : (applyAll ops s).1.slaves = s.slaves := by
  induction ops generalizing s with
  | nil => rfl
  | cons op ops ih => cases op <;> exact ih _
@[simp] theorem applyAll_seq (ops : List QueueOp) (s : State) : (applyAll ops s).1.seq = s.seq := by
  induction ops generalizing s with
  | nil => rfl
  | cons op ops ih => cases op <;> exact ih _
@[simp] theorem applyAll_attempt (ops : List QueueOp) (s : State) : (applyAll ops s).1.attempt = s.attempt := by
  induction ops generalizing s with
  | nil => rfl
  | cons op ops ih => cases op <;> exact ih _
@[simp] theorem applyAll_status (ops : List QueueOp) (s : State) : (applyAll ops s).1.status = s.status := by
  induction ops generalizing s with
  | nil => rfl
  | cons op ops ih => cases op <;> exact ih _
@[simp] theorem applyAll_queue (ops : List QueueOp) (s : State) : (applyAll ops s).1.queue = s.queue := by
  induction ops generalizing s with
  | nil => rfl
  | cons op ops ih => cases op <;> exact ih _
@[simp] theorem applyAll_nextHandle (ops : List QueueOp) (s : State) : (applyAll ops s).1.nextHandle = s.nextHandle := by
  induction ops generalizing s with
  | nil => rfl
  | cons op ops ih => cases op <;> exact ih _
@[simp] theorem applyAll_resolved (ops : List QueueOp) (s : State) : (applyAll ops s).1.resolved = s.resolved := by
  induction ops generalizing s with
  | nil => rfl
  | cons op ops ih => cases op <;> exact ih _
@[simp] theorem applyAll_trace (ops : List QueueOp) (s : State) : (applyAll ops s).1.trace = s.trace := by
  induction ops generalizing s with
  | nil => rfl
  | cons op ops ih => cases op <;> exact ih _
@[simp] theorem applyAll_response (ops : List QueueOp) (s : State) : (applyAll ops s).1.response = s.response := by
  induction ops generalizing s with
  | nil => rfl
  | cons op ops ih => cases op <;> exact ih _
@[simp] theorem applyAll_port (ops : List QueueOp) (s : State) : (applyAll ops s).1.port = s.port := by
  induction ops generalizing s with
  | nil => rfl
  | cons op ops ih => cases op <;> exact ih _
@[simp] theorem applyAll_frees (ops : List QueueOp) (s : State) : (applyAll ops s).1.frees = s.frees := by
  induction ops generalizing s with
  | nil => rfl
  | cons op ops ih => cases op <;> exact ih _
@[simp] theorem applyAll_pace (ops : List QueueOp) (s : State) : (applyAll ops s).1.pace = s.pace := by
  induction ops generalizing s with
  | nil => rfl
  | cons op ops ih => cases op <;> exact ih _

@[simp] theorem commit_params (s : State) : s.commit.params = s.params := applyAll_params _ _
@[simp] theorem commit_prescale (s : State) : s.commit.prescale = s.prescale := applyAll_prescale _ _
@[simp] theorem commit_registry (s : State) : s.commit.registry = s.registry := applyAll_registry _ _
@[simp] theorem commit_slaves (s : State) : s.commit.slaves = s.slaves := applyAll_slaves _ _
@[simp] theorem commit_seq (s : State) : s.commit.seq = s.seq := applyAll_seq _ _
@[simp] theorem commit_attempt (s : State) : s.commit.attempt = s.attempt := applyAll_attempt _ _
@[simp] theorem commit_status (s : State) : s.commit.status = s.status := applyAll_status _ _
@[simp] theorem commit_nextHandle (s : State) : s.commit.nextHandle = s.nextHandle := applyAll_nextHandle _ _
@[simp] theorem commit_response (s : State) : s.commit.response = s.response := applyAll_response _ _
@[simp] theorem commit_port (s : State) : s.commit.port = s.port := applyAll_port _ _
@[simp] theorem commit_frees (s : State) : s.commit.frees = s.frees := applyAll_frees _ _
@[simp] theorem commit_pace (s : State) : s.commit.pace = s.pace := applyAll_pace _ _
@[simp] theorem commit_queue (s : State) : s.commit.queue = [] := rfl

end Sys2Proof.Machine
end

