-- ==== Sys2Proof/Laws/Interface.lean ====
section
/-! SUPPORT. Laws/Interface.lean: what a stretch of an operation does between two commits, said once (Extends), how two
stretches compose, and the stretches the Register Interface primitives make. -/

namespace Sys2Proof.Machine

/-! ## Words -/

@[simp] theorem lowByte_wordOfByte (b : Byte) : lowByte (wordOfByte b) = b := by simp [lowByte, wordOfByte]

@[simp] theorem lowByte_zero : lowByte 0 = 0#8 := rfl

theorem fitWord_lt (p : Params) (n : Nat) : isWord p (fitWord p n) := Nat.mod_lt _ (Nat.two_pow_pos _)

theorem regWidth_of_valid {p : Params} (h : paramsValid p = true) : 8 ≤ p.regWidth := by
  simp only [paramsValid, Bool.and_eq_true, decide_eq_true_eq] at h
  exact h.2

/-- A byte fits the Register Interface. -/
theorem wordOfByte_isWord {p : Params} (h : 8 ≤ p.regWidth) (b : Byte) : isWord p (wordOfByte b) :=
  Nat.lt_of_lt_of_le b.isLt (Nat.pow_le_pow_right (by omega) h)

/-- The low byte of an answer is carried whole (20_memory.md R51). -/
theorem lowByte_fitWord {p : Params} (h : 8 ≤ p.regWidth) (n : Nat) : lowByte (fitWord p n) = lowByte n := by
  apply BitVec.eq_of_toNat_eq
  simp only [lowByte, fitWord, BitVec.toNat_ofNat]
  exact Nat.mod_mod_of_dvd n (Nat.pow_dvd_pow 2 h)

/-! ## Words the machine holds -/

theorem nextAnswer_isWord (s : State) (r : Reg) : isWord s.params (s.nextAnswer r) := fitWord_lt _ _

theorem WordsFit.memWrite {s : State} (h : WordsFit s) (r : Reg) {v : Word} (hv : isWord s.params v) :
    WordsFit (s.memWrite r v) where
  status := h.status
  queue q w hm := by
    rw [memWrite_queue, List.mem_append, List.mem_singleton] at hm
    rcases hm with hm | hm
    · exact h.queue q w hm
    · cases hm; exact hv
  resolved := h.resolved
  history := h.history

theorem WordsFit.memRead {s : State} (h : WordsFit s) (r : Reg) : WordsFit (s.memRead r) where
  status := h.status
  queue q w hm := by simpa using h.queue q w (by simpa using hm)
  resolved := h.resolved
  history := h.history

/-- What a commit applies and resolves fits, if what was pending does. -/
theorem applyAll_fit (ops : List QueueOp) {s : State} (hops : ∀ r v, QueueOp.write r v ∈ ops → isWord s.params v)
    (hh : ∀ a ∈ s.history, isWord s.params (accessWord a)) :
    (∀ a ∈ (applyAll ops s).1.history, isWord s.params (accessWord a)) ∧
      ∀ e ∈ (applyAll ops s).2, isWord s.params e.2 := by
  induction ops generalizing s with
  | nil => exact ⟨hh, by simp [applyAll]⟩
  | cons op ops ih =>
    have hrest : ∀ r v, QueueOp.write r v ∈ ops → isWord s.params v := fun r v hm => hops r v (List.mem_cons_of_mem _ hm)
    cases op with
    | write r v =>
      refine ih (s := s.applyWrite r v) hrest fun a ha => ?_
      rw [applyWrite_history, List.mem_append, List.mem_singleton] at ha
      rcases ha with ha | rfl
      · exact hh a ha
      · exact hops r v List.mem_cons_self
    | read r k =>
      obtain ⟨h1, h2⟩ := ih (s := s.takeAnswer r) hrest fun a ha => by
        rw [takeAnswer_history, List.mem_append, List.mem_singleton] at ha
        rcases ha with ha | rfl
        · exact hh a ha
        · exact nextAnswer_isWord s r
      refine ⟨h1, fun e he => ?_⟩
      rcases List.mem_cons.1 he with rfl | he
      · exact nextAnswer_isWord s r
      · exact h2 e he

theorem WordsFit.commit {s : State} (h : WordsFit s) : WordsFit s.commit := by
  obtain ⟨h1, h2⟩ := applyAll_fit s.queue h.queue h.history
  have hr : s.commit.resolved = s.resolved ++ (applyAll s.queue s).2 := by simp [State.commit]
  constructor
  · simpa using h.status
  · simp
  · intro e he
    rw [hr, List.mem_append] at he
    rw [commit_params]
    exact he.elim (h.resolved e) (h2 e)
  · rw [commit_params]; exact h1

/-! ## Undefined values -/

theorem freeAttempt_range (p : Params) (k : Nat) : 1 ≤ freeAttempt p k ∧ freeAttempt p k ≤ p.maxRetry + 1 := by
  have h : Config.freeAttempt k % (p.maxRetry + 1) < p.maxRetry + 1 := Nat.mod_lt _ (Nat.succ_pos _)
  exact ⟨Nat.le_add_right 1 _, by rw [freeAttempt]; omega⟩

theorem freeStatus_isWord (p : Params) (k : Nat) : isWord p (freeStatus p k) := fitWord_lt _ _

theorem undefined_undefine (s : State) : Undefined s.undefine := ⟨s.frees, rfl, rfl⟩

theorem undefined_accept (s : State) : Undefined s.accept := ⟨s.frees, rfl, rfl⟩

/-- A state with the same parameters, `attempt` and `status` has them undefined alike. -/
theorem Undefined.congr {s t : State} (h : Undefined s) (hp : t.params = s.params) (ha : t.attempt = s.attempt)
    (hs : t.status = s.status) : Undefined t := by
  obtain ⟨k, h1, h2⟩ := h
  exact ⟨k, by rw [ha, h1, hp], by rw [hs, h2, hp]⟩

/-! ## Traces and what they apply -/

theorem accessesFrom_append (q : List QueueOp) (a b : List Event) :
    accessesFrom q (a ++ b) = accessesFrom q a ++ accessesFrom (pendingAfter q a) b := by
  induction a generalizing q with
  | nil => rfl
  | cons e a ih => cases e <;> simp [accessesFrom, pendingAfter, ih]

theorem pendingAfter_append (q : List QueueOp) (a b : List Event) :
    pendingAfter q (a ++ b) = pendingAfter (pendingAfter q a) b := by
  induction a generalizing q with
  | nil => rfl
  | cons e a ih => cases e <;> simp [pendingAfter, ih]

theorem answersIn_append (a b : List Access) : answersIn (a ++ b) = answersIn a ++ answersIn b :=
  List.filterMap_append

theorem writesTo_append (r : Reg) (a b : List Event) : writesTo r (a ++ b) = writesTo r a ++ writesTo r b :=
  List.filterMap_append

/-! ## A stretch of an operation -/

/-- The state at a point between two commits of an operation: nothing pending, and the next handle fresh. -/
structure Between (s : State) : Prop where
  queue : s.queue = []
  fresh : ∀ e ∈ s.resolved, e.1 < s.nextHandle

/-- `t` comes from `s` by a stretch whose events are `tr` and whose writes go to registers of `ds`: what it leaves alone,
what its trace, its history and its answers are. -/
structure Extends (s t : State) (tr : List Event) (ds : List Reg) : Prop where
  params   : t.params = s.params
  prescale : t.prescale = s.prescale
  registry : t.registry = s.registry
  slaves   : t.slaves = s.slaves
  seq      : t.seq = s.seq
  response : t.response = s.response
  port     : t.port = s.port
  pace     : t.pace = s.pace
  between  : Between t
  trace    : t.trace = s.trace ++ tr
  closed   : pendingAfter [] tr = []
  history  : t.history = s.history ++ accessesFrom [] tr
  mem      : ∀ a, (∀ r ∈ ds, regNumber r ≠ a) → Memory.read t.regs a = Memory.read s.regs a
  bytes    : ∀ r, t.regByte r = ((writesTo r tr).getLast?.map lowByte).or (s.regByte r)
  wf       : s.regs.wf = true → t.regs.wf = true
  reads    : ∀ vals, Event.c vals ∈ tr → ∀ e ∈ vals, isWord s.params e.2
  fits     : 8 ≤ s.params.regWidth → WordsFit s → WordsFit t
  answers  : ∃ taken, s.answers = taken ++ t.answers ∧
    (answersIn (accessesFrom [] tr) = taken.map (fitWord s.params) ∨
      (t.answers = [] ∧ taken.map (fitWord s.params) <+: answersIn (accessesFrom [] tr)))

/-- A register outside the stretch's keeps its byte. -/
theorem Extends.regs {s t : State} {tr : List Event} {ds : List Reg} (h : Extends s t tr ds) (r : Reg) (hr : r ∉ ds) :
    t.regByte r = s.regByte r :=
  h.mem _ fun _ hq he => hr (regNumber_injective _ _ he ▸ hq)

theorem Extends.refl {s : State} (h : Between s) : Extends s s [] [] := by
  constructor <;> simp [h, pendingAfter, accessesFrom, answersIn, writesTo]

/-- A stretch writes at most the registers it is said to write. -/
theorem Extends.widen {s t : State} {tr : List Event} {ds es : List Reg} (h : Extends s t tr ds) (hs : ds ⊆ es) :
    Extends s t tr es :=
  { h with mem := fun a ha => h.mem a fun r hr => ha r (hs hr) }

/-- Two stretches one after the other. -/
theorem Extends.trans {s t u : State} {a b : List Event} {ds es : List Reg} (h : Extends s t a ds)
    (k : Extends t u b es) : Extends s u (a ++ b) (ds ++ es) where
  params := k.params.trans h.params
  prescale := k.prescale.trans h.prescale
  registry := k.registry.trans h.registry
  slaves := k.slaves.trans h.slaves
  seq := k.seq.trans h.seq
  response := k.response.trans h.response
  port := k.port.trans h.port
  pace := k.pace.trans h.pace
  between := k.between
  trace := by rw [k.trace, h.trace, List.append_assoc]
  closed := by rw [pendingAfter_append, h.closed, k.closed]
  history := by rw [k.history, h.history, accessesFrom_append, h.closed, List.append_assoc]
  mem a ha := (k.mem a fun r hr => ha r (List.mem_append_right _ hr)).trans
    (h.mem a fun r hr => ha r (List.mem_append_left _ hr))
  bytes r := by
    rw [k.bytes, h.bytes, writesTo_append, List.getLast?_append, ← Option.or_assoc, Option.map_or]
  wf hw := k.wf (h.wf hw)
  reads vals hm := (List.mem_append.1 hm).elim (h.reads vals) fun hm => by rw [← h.params]; exact k.reads vals hm
  fits hv hw := k.fits (by rw [h.params]; exact hv) (h.fits hv hw)
  answers := by
    rw [accessesFrom_append, h.closed, answersIn_append]
    obtain ⟨x, hx, h1⟩ := h.answers
    obtain ⟨y, ky, k1⟩ := k.answers
    rw [h.params] at k1
    refine ⟨x ++ y, by rw [hx, ky, List.append_assoc], ?_⟩
    rw [List.map_append]
    obtain h1 | ⟨h1, h2⟩ := h1
    · obtain k1 | ⟨k1, k2⟩ := k1
      · exact .inl (by rw [h1, k1])
      · exact .inr ⟨k1, by rw [h1]; exact List.prefix_append_right_inj _ |>.2 k2⟩
    · rw [h1] at ky
      obtain ⟨rfl, k3⟩ := List.append_eq_nil_iff.1 ky.symm
      exact .inr ⟨k3, by simpa using h2.trans (List.prefix_append _ _)⟩

/-! ## The primitives -/

theorem Between.accept {s : State} (h : s.queue = []) : Between s.accept := ⟨h, by simp⟩

theorem Between.undefine {s : State} (h : Between s) : Between s.undefine := ⟨h.queue, h.fresh⟩

theorem lookup_append_fresh {l : List (Nat × Word)} {h : Nat} {m : List (Nat × Word)}
    (hf : ∀ e ∈ l, e.1 < h) : lookup h (l ++ m) = lookup h m := by
  induction l with
  | nil => rfl
  | cons e l ih =>
    obtain ⟨k, w⟩ := e
    have hk : k < h := hf (k, w) (by simp)
    have : k ≠ h := by omega
    simpa [lookup, this] using ih fun e he => hf e (by simp [he])

@[simp] theorem nextAnswer_memRead (s : State) (r q : Reg) : (s.memRead r).nextAnswer q = s.nextAnswer q := rfl

@[simp] theorem regByte_applyWrite_same (s : State) (r : Reg) (v : Word) :
    (s.applyWrite r v).regByte r = some (lowByte v) := Memory.read_write_same _ _ _

theorem regByte_applyWrite_other (s : State) {r q : Reg} (v : Word) (h : q ≠ r) :
    (s.applyWrite r v).regByte q = s.regByte q :=
  Memory.read_write_other _ _ _ _ fun he => h (regNumber_injective _ _ he)

/-- The next answer and the answers left are the first of the tape, or beyond its end. -/
theorem takeAnswer_answers_cases (s : State) (r : Reg) :
    (∃ w, s.answers = w :: (s.takeAnswer r).answers ∧ s.nextAnswer r = fitWord s.params w) ∨
      (s.answers = [] ∧ (s.takeAnswer r).answers = []) := by
  cases h : s.answers with
  | nil => exact .inr ⟨rfl, by simp [h]⟩
  | cons w ws => exact .inl ⟨w, by simp [h], by simp [State.nextAnswer, h]⟩

/-- A sleep is a stretch of one event. -/
theorem Extends.sleep {s : State} (h : Between s) : Extends s s.sleep [.s] [] := by
  constructor
  case between => exact ⟨h.queue, h.fresh⟩
  case mem => exact fun _ _ => rfl
  case bytes => exact fun _ => rfl
  case fits => exact fun _ hw => ⟨hw.status, hw.queue, hw.resolved, hw.history⟩
  all_goals simp [pendingAfter, accessesFrom, answersIn]

/-- Fields no stretch speaks of may be written between commits. -/
theorem Extends.setAttempt {s t : State} {tr : List Event} {ds : List Reg} (h : Extends s t tr ds) (n : Nat) :
    Extends s (t.setAttempt n) tr ds :=
  { h with
    between := ⟨h.between.queue, h.between.fresh⟩
    fits := fun hv hw => { h.fits hv hw with } }

theorem Extends.undefine {s t : State} {tr : List Event} {ds : List Reg} (h : Extends s t tr ds) :
    Extends s t.undefine tr ds :=
  { h with
    between := h.between.undefine
    fits := fun hv hw => { h.fits hv hw with status := freeStatus_isWord _ _ } }

theorem Extends.setStatus {s t : State} {tr : List Event} {ds : List Reg} (h : Extends s t tr ds) {w : Word}
    (hw : isWord s.params w) : Extends s (t.setStatus w) tr ds :=
  { h with
    between := ⟨h.between.queue, h.between.fresh⟩
    fits := fun hv hf => { h.fits hv hf with status := by simpa [h.params] using hw } }

/-- One read, committed: its value is what the device answered. -/
theorem commit_read {s : State} (h : Between s) (r : Reg) :
    Extends s (s.memRead r).commit [.r r s.nextHandle, .c [(s.nextHandle, s.nextAnswer r)]] [] ∧
      (s.memRead r).commit.val s.nextHandle = s.nextAnswer r ∧
      (s.memRead r).commit.nextHandle = s.nextHandle + 1 := by
  have hres : (s.memRead r).commit.resolved = s.resolved ++ [(s.nextHandle, s.nextAnswer r)] := by
    simp [State.commit, h.queue, applyAll]
  refine ⟨?_, ?_, by simp⟩
  · constructor
    case between =>
      refine ⟨rfl, fun e he => ?_⟩
      rw [hres, List.mem_append, List.mem_singleton] at he
      rw [commit_nextHandle, memRead_nextHandle]
      rcases he with he | rfl
      · exact Nat.lt_succ_of_lt (h.fresh e he)
      · exact Nat.lt_succ_self _
    case fits => exact fun _ hw => (hw.memRead r).commit
    case reads => simpa using nextAnswer_isWord s r
    case mem => intro a _; simp [State.commit, h.queue, applyAll]
    case bytes => intro q; simp [State.regByte, State.commit, h.queue, applyAll, writesTo]
    case answers =>
      obtain ⟨w, ha, hw⟩ | ⟨ha, hb⟩ := takeAnswer_answers_cases s r
      · exact ⟨[w], by simpa [State.commit, h.queue, applyAll] using ha,
          .inl (by simp [accessesFrom, appliedBy, lookup, answersIn, hw])⟩
      · exact ⟨[], by simp [State.commit, h.queue, applyAll, ha], .inr (by simp [State.commit, h.queue, applyAll, ha])⟩
    all_goals simp [State.commit, h.queue, applyAll, pendingAfter, accessesFrom, appliedBy, lookup]
  · simp [State.val, State.resolvedValue, hres, lookup_append_fresh h.fresh, lookup]

/-- A byte written, committed. -/
theorem commit_write {s : State} (h : Between s) (r : Reg) (b : Byte) :
    Extends s (s.memWrite r (wordOfByte b)).commit [.w r (wordOfByte b), .c []] [r] ∧
      (s.memWrite r (wordOfByte b)).commit.regByte r = some b ∧
      (s.memWrite r (wordOfByte b)).commit.nextHandle = s.nextHandle := by
  have hr : (s.memWrite r (wordOfByte b)).commit.regs = (s.applyWrite r (wordOfByte b)).regs := by simp [State.commit, h.queue, applyAll]
  refine ⟨?_, ?_, by simp⟩
  · constructor
    case between => exact ⟨rfl, by simpa [State.commit, h.queue, applyAll] using h.fresh⟩
    case mem =>
      intro a ha
      rw [hr]
      exact Memory.read_write_other _ _ _ _ (Ne.symm (ha r (by simp)))
    case bytes =>
      intro q
      have e : (s.memWrite r (wordOfByte b)).commit.regByte q = (s.applyWrite r (wordOfByte b)).regByte q := by rw [State.regByte, hr]; rfl
      rw [e]
      by_cases hq : r = q
      · subst hq; rw [regByte_applyWrite_same]; simp [writesTo]
      · rw [regByte_applyWrite_other s _ (Ne.symm hq)]; simp [writesTo, hq]
    case wf => rw [hr]; exact Memory.wf_write _ _ _
    case fits => exact fun hv hw => (hw.memWrite r (wordOfByte_isWord hv b)).commit
    all_goals simp [State.commit, h.queue, applyAll, pendingAfter, accessesFrom, appliedBy, answersIn]
  · rw [State.regByte, hr]
    exact (regByte_applyWrite_same s r _).trans (by rw [lowByte_wordOfByte])

/-- Two bytes written to different registers, committed together, applied in order. -/
theorem commit_writes {s : State} (h : Between s) (r q : Reg) (b c : Byte) (hne : r ≠ q) :
    Extends s ((s.memWrite r (wordOfByte b)).memWrite q (wordOfByte c)).commit [.w r (wordOfByte b), .w q (wordOfByte c), .c []] [r, q] ∧
      ((s.memWrite r (wordOfByte b)).memWrite q (wordOfByte c)).commit.regByte r = some b ∧
      ((s.memWrite r (wordOfByte b)).memWrite q (wordOfByte c)).commit.regByte q = some c ∧
      ((s.memWrite r (wordOfByte b)).memWrite q (wordOfByte c)).commit.nextHandle = s.nextHandle := by
  have hr : ((s.memWrite r (wordOfByte b)).memWrite q (wordOfByte c)).commit.regs = ((s.applyWrite r (wordOfByte b)).applyWrite q (wordOfByte c)).regs := by
    simp [State.commit, h.queue, applyAll]
  refine ⟨?_, ?_, ?_, by simp⟩
  · constructor
    case between => exact ⟨rfl, by simpa [State.commit, h.queue, applyAll] using h.fresh⟩
    case mem =>
      intro a ha
      rw [hr]
      exact (Memory.read_write_other _ _ _ _ (Ne.symm (ha q (by simp)))).trans
        (Memory.read_write_other _ _ _ _ (Ne.symm (ha r (by simp))))
    case bytes =>
      intro x
      have e : ((s.memWrite r (wordOfByte b)).memWrite q (wordOfByte c)).commit.regByte x = ((s.applyWrite r (wordOfByte b)).applyWrite q (wordOfByte c)).regByte x := by
        rw [State.regByte, hr]; rfl
      rw [e]
      by_cases hq : q = x
      · subst hq; rw [regByte_applyWrite_same]; simp [writesTo, hne]
      · rw [regByte_applyWrite_other _ _ (Ne.symm hq)]
        by_cases hrx : r = x
        · subst hrx; rw [regByte_applyWrite_same]; simp [writesTo, hq]
        · rw [regByte_applyWrite_other s _ (Ne.symm hrx)]; simp [writesTo, hq, hrx]
    case fits =>
      exact fun hv hw =>
        ((hw.memWrite r (wordOfByte_isWord hv b)).memWrite q (wordOfByte_isWord (p := s.params) hv c)).commit
    case wf => rw [hr]; exact fun hw => Memory.wf_write _ _ _ (Memory.wf_write _ _ _ hw)
    all_goals simp [State.commit, h.queue, applyAll, pendingAfter, accessesFrom, appliedBy, answersIn]
  · rw [State.regByte, hr]
    exact (regByte_applyWrite_other _ _ hne).trans (by rw [regByte_applyWrite_same, lowByte_wordOfByte])
  · rw [State.regByte, hr]
    exact (regByte_applyWrite_same _ q _).trans (by rw [lowByte_wordOfByte])

end Sys2Proof.Machine
end

