-- ==== Sys2Proof/Laws/Primitives.lean ====
section
/-! SUPPORT. Laws/Primitives.lean: one lemma per operation of Machine/Primitives.lean: everything it does, as a stretch
(Laws/Interface.lean) with its events, its outcome and the registers it writes. -/

namespace Sys2Proof.Machine

@[simp] theorem getLastD_append_one (before : List Word) (last d : Word) : (before ++ [last]).getLastD d = last := by
  simp [List.getLastD_eq_getLast?]

@[simp] theorem andThen_ok {α β : Type} (s : State) (a : α) (k : State → α → Run β) :
    andThen (s, .ok a) k = k s a := rfl

@[simp] theorem andThen_error {α β : Type} (s : State) (e : Err) (k : State → α → Run β) :
    andThen (s, .error e) k = (s, .error e) := rfl

theorem maxRetry_pos_of_valid {p : Params} (h : paramsValid p = true) : 1 ≤ p.maxRetry := by
  simp only [paramsValid, Bool.and_eq_true, decide_eq_true_eq] at h
  exact h.1.2

/-! ## whenReady -/

/-- A ready machine runs what follows on the accepted state. -/
theorem whenReady_of_ready {s : State} (h : s.Ready) (k : State → Host.Outcome State Fault Refusal) :
    whenReady s k = k s.accept := by
  simp [whenReady, h.params, h.idle, Seq.isIdle]

/-- A next state comes from a ready machine only. -/
theorem whenReady_next {s t : State} {k : State → Host.Outcome State Fault Refusal} (h : whenReady s k = .next t) :
    s.Ready ∧ k s.accept = .next t := by
  simp only [whenReady] at h
  split at h
  · next hp =>
    split at h
    · next hi => exact ⟨⟨hp, by cases hs : s.seq <;> simp_all [Seq.isIdle]⟩, h⟩
    · cases h
  · cases h

/-! ## WAIT -/

/-- One attempt: one sleep, one status read, and the word read in `status`. -/
theorem pollOnce_spec {s : State} (h : Between s) :
    Extends s (pollOnce s) (pollEvents s.nextHandle [(pollOnce s).status]) [] ∧
      (pollOnce s).nextHandle = s.nextHandle + 1 ∧ (pollOnce s).attempt = s.attempt := by
  have hs := Extends.sleep h
  obtain ⟨hr, hv, hn⟩ := commit_read hs.between .status
  have hw : (pollOnce s).status = s.sleep.nextAnswer .status := by simpa [pollOnce] using hv
  refine ⟨?_, by simp [pollOnce], by simp [pollOnce]⟩
  rw [hw]
  exact (hs.trans hr).setStatus (w := (s.sleep.memRead .status).commit.val s.nextHandle)
    ((show _ = s.sleep.nextAnswer .status from hv) ▸ nextAnswer_isWord s.sleep .status)

/-- The poll loop with attempts left: it reads status words up to the first that ends it, or all of them. -/
theorem pollLoop_spec (n : Nat) {s : State} (h : Between s) (hn : 0 < n) :
    ∃ before last t, Extends s t (pollEvents s.nextHandle (before ++ [last])) [] ∧
      before.length + 1 ≤ n ∧ (∀ w ∈ before, pollsOn s.params w = true) ∧
      (pollsOn s.params last = true → before.length + 1 = n) ∧
      t.status = last ∧ t.nextHandle = s.nextHandle + (before.length + 1) ∧
      t.attempt = s.attempt + before.length + (pollsOn s.params last).toNat ∧
      pollLoop n s = (t, if arbLost s.params last then .error (busErr s.params .arbitrationLost)
        else if inProgress s.params last then .error (busErr s.params .transactionTimeout) else .ok ()) := by
  induction n generalizing s with
  | zero => cases hn
  | succ n ih =>
    obtain ⟨hp, hh, ha⟩ := pollOnce_spec h
    by_cases hal : arbLost s.params (pollOnce s).status = true
    · refine ⟨[], (pollOnce s).status, pollOnce s, hp, by simp, by simp, ?_, rfl, hh, ?_, ?_⟩
      · simp [pollsOn, hal]
      · simp [ha, pollsOn, hal]
      · simp [pollLoop, hp.params, hal, raising, busErr]
    · by_cases hip : inProgress s.params (pollOnce s).status = true
      · have hon : pollsOn s.params (pollOnce s).status = true := by simp [pollsOn, hal, hip]
        cases n with
        | zero =>
          refine ⟨[], (pollOnce s).status, (pollOnce s).setAttempt ((pollOnce s).attempt + 1), hp.setAttempt _,
            by simp, by simp, by simp, rfl, hh, ?_, ?_⟩
          · simp [ha, hon]
          · simp [pollLoop, hp.params, hal, hip, raising, busErr]
        | succ m =>
          have hb := (hp.setAttempt ((pollOnce s).attempt + 1)).between
          obtain ⟨before, last, t, ht, hl, hw, hlast, hst, hnh, hat, hrun⟩ := ih hb (by omega)
          have hpp : ((pollOnce s).setAttempt ((pollOnce s).attempt + 1)).params = s.params := hp.params
          rw [hpp] at hw hlast hat hrun
          rw [setAttempt_nextHandle, hh] at ht hnh
          rw [setAttempt_attempt, ha] at hat
          refine ⟨(pollOnce s).status :: before, last, t, ?_, ?_, ?_, ?_, hst, ?_, ?_, ?_⟩
          · have := (hp.setAttempt ((pollOnce s).attempt + 1)).trans ht
            simpa [pollEvents] using this
          · simp; omega
          · rintro w (_ | ⟨_, hmem⟩)
            · exact hon
            · exact hw w hmem
          · intro hl'; simpa using hlast hl'
          · simp [hnh]; omega
          · simp only [hat, List.length_cons]; omega
          · rw [← hrun]; simp [pollLoop, hp.params, hal, hip]
      · refine ⟨[], (pollOnce s).status, pollOnce s, hp, by simp, by simp, ?_, rfl, hh, ?_, ?_⟩
        · simp [pollsOn, hip]
        · simp [ha, pollsOn, hip]
        · simp [pollLoop, hp.params, hal, hip, returning]

/-- The lines of `WAIT`: they poll as R88 to R90 allow, and end as the last status word decides (R91, R133). -/
theorem waitBody_spec (reqAck reqIdle : Bool) {s : State} (h : Between s) (hv : paramsValid s.params = true) :
    ∃ ws t, PollWords s.params ws ∧ Extends s t (pollEvents s.nextHandle ws) [] ∧
      t.nextHandle = s.nextHandle + ws.length ∧ t.status = ws.getLastD 0 ∧
      t.attempt = ws.length + (pollsOn s.params (ws.getLastD 0)).toNat ∧
      waitBody reqAck reqIdle s = (t, waitVerdict s.params reqAck reqIdle ws) := by
  have hb : Between (s.setAttempt 1) := ⟨h.queue, h.fresh⟩
  obtain ⟨before, last, t, ht, hl, hw, hlast, hst, hnh, hat, hrun⟩ :=
    pollLoop_spec s.params.maxRetry hb (maxRetry_pos_of_valid hv)
  simp only [setAttempt_params, setAttempt_attempt, setAttempt_nextHandle] at ht hw hlast hnh hat hrun
  have hlen : (before ++ [last]).length = before.length + 1 := by simp
  refine ⟨before ++ [last], t, ⟨before, last, rfl, by rw [hlen]; exact hl, hw, fun hp => by rw [hlen]; exact hlast hp⟩,
    { ht with fits := fun hv hw => ht.fits hv { hw with } }, by rw [hlen]; exact hnh, by simp [hst], ?_, ?_⟩
  · simp only [getLastD_append_one, hlen, hat]
    simp; omega
  · simp only [waitBody]
    rw [hrun]
    have hpar : t.params = s.params := ht.params
    simp only [waitVerdict, verdictOf, getLastD_append_one]
    by_cases ha : arbLost s.params last = true
    · simp [ha]
    · by_cases hi : inProgress s.params last = true
      · simp [ha, hi]
      · simp only [ha, hi, Bool.false_eq_true, if_false, andThen_ok, postConditions, hst, hpar, raising, returning, busErr]
        split <;> [rfl; (split <;> rfl)]

/-- `WAIT`: its lines, after which `attempt` and `status` are undefined (R24). -/
theorem waitOp_spec (reqAck reqIdle : Bool) {s : State} (h : Between s) (hv : paramsValid s.params = true) :
    ∃ ws t, PollWords s.params ws ∧ Extends s t (pollEvents s.nextHandle ws) [] ∧
      t.nextHandle = s.nextHandle + ws.length ∧ Undefined t ∧
      waitOp reqAck reqIdle s = (t, waitVerdict s.params reqAck reqIdle ws) := by
  obtain ⟨ws, t, hw, ht, hn, -, -, hrun⟩ := waitBody_spec reqAck reqIdle h hv
  exact ⟨ws, t.undefine, hw, ht.undefine, hn, undefined_undefine t, by rw [waitOp, hrun]; rfl⟩

/-! ## SEND_WRITE and SEND_READ -/

/-- `SEND_WRITE`: data and command committed together, then the polls; the outcome is the wait's, with acknowledge
required, and bus idle if the command carries stop (R86). -/
theorem sendWriteOp_spec (cmd : Flags) (data : Byte) {s : State} (h : Between s) (hv : paramsValid s.params = true) :
    ∃ ws t, PollWords s.params ws ∧ Extends s t (sendWriteEvents s.params cmd data s.nextHandle ws) [.data, .cmd] ∧
      t.nextHandle = s.nextHandle + ws.length ∧ t.regByte .data = some data ∧
      t.regByte .cmd = some (writeCommand s.params cmd) ∧ Undefined t ∧
      sendWriteOp cmd data s = (t, waitVerdict s.params true cmd.sto ws) := by
  obtain ⟨hc, hd, hm, hn⟩ := commit_writes h .data .cmd data (writeCommand s.params cmd) (by decide)
  obtain ⟨ws, t, hw, ht, hnh, hu, hrun⟩ := waitOp_spec true cmd.sto hc.between (by rw [hc.params]; exact hv)
  rw [hc.params] at hw hrun
  rw [hn] at ht hnh
  refine ⟨ws, t, hw, ?_, hnh, ?_, ?_, hu, hrun⟩
  · simpa [sendWriteEvents] using hc.trans ht
  · rw [ht.regs _ (by simp), hd]
  · rw [ht.regs _ (by simp), hm]

/-- The read of the received byte (R71). -/
theorem readReceived_spec {s : State} (h : Between s) :
    ∃ w t, Extends s t (receiveEvents s.nextHandle w) [] ∧ t.nextHandle = s.nextHandle + 1 ∧
      (Undefined s → Undefined t) ∧ readReceived s = (t, .ok (lowByte w)) := by
  obtain ⟨hr, hv, hn⟩ := commit_read h .rxdata
  exact ⟨_, _, hr, hn, fun hu => hu.congr hr.params (by simp) (by simp), by simp [readReceived, returning, hv]⟩

/-- `SEND_READ`: the command committed, the polls with no acknowledge required, and on success the received byte (R87). -/
theorem sendReadOp_spec (cmd : Flags) {s : State} (h : Between s) (hv : paramsValid s.params = true) :
    ∃ ws t tr out, PollWords s.params ws ∧ Extends s t (sendReadEvents s.params cmd s.nextHandle ws ++ tr) [.cmd] ∧
      t.regByte .cmd = some (readCommand s.params cmd) ∧ Undefined t ∧ sendReadOp cmd s = (t, out) ∧
      match waitVerdict s.params false (readNeedsIdle s.params cmd) ws with
      | .error e => tr = [] ∧ out = .error e ∧ t.nextHandle = s.nextHandle + ws.length
      | .ok _ => ∃ w, tr = receiveEvents (s.nextHandle + ws.length) w ∧ out = .ok (lowByte w) ∧
          t.nextHandle = s.nextHandle + ws.length + 1 := by
  obtain ⟨hc, hm, hn⟩ := commit_write h .cmd (readCommand s.params cmd)
  obtain ⟨ws, t, hw, ht, hnh, hu, hrun⟩ :=
    waitOp_spec false (readNeedsIdle s.params cmd) hc.between (by rw [hc.params]; exact hv)
  rw [hc.params] at hw hrun
  rw [hn] at ht hnh
  have hall : Extends s t (sendReadEvents s.params cmd s.nextHandle ws) [.cmd] := by
    simpa [sendReadEvents] using hc.trans ht
  have hbyte : t.regByte .cmd = some (readCommand s.params cmd) := by
    rw [ht.regs _ (by simp), hm]
  cases hver : waitVerdict s.params false (readNeedsIdle s.params cmd) ws with
  | error e =>
    refine ⟨ws, t, [], .error e, hw, by simpa using hall, hbyte, hu, ?_, ?_⟩
    · simp only [sendReadOp, State.writeCommitted]
      rw [show (s.params.readIdleOnStop && cmd.sto) = readNeedsIdle s.params cmd from rfl, hrun, hver]; rfl
    · simp [hver, hnh]
  | ok u =>
    obtain ⟨w, t', hx, hn', hu', hread⟩ := readReceived_spec ht.between
    rw [hnh] at hx hn'
    refine ⟨ws, t', receiveEvents (s.nextHandle + ws.length) w, .ok (lowByte w), hw, ?_, ?_, hu' hu, ?_, ?_⟩
    · simpa using hall.trans hx
    · rw [hx.regs _ (by simp), hbyte]
    · simp only [sendReadOp, State.writeCommitted]
      rw [show (s.params.readIdleOnStop && cmd.sto) = readNeedsIdle s.params cmd from rfl, hrun, hver, andThen_ok, hread]
    · simp only [hver]
      exact ⟨w, rfl, rfl, hn'⟩

/-! ## RESET -/

/-- The state the batched reads are committed from. -/
def resetEnqueued (s : State) : State := ((s.memRead .psHi).memRead .psLo).memRead .ctrl

/-- The three answers of the batched reads. -/
def resetAnswer (s : State) : Reg → Word
  | .psHi => (resetEnqueued s).nextAnswer .psHi
  | .psLo => ((resetEnqueued s).takeAnswer .psHi).nextAnswer .psLo
  | _ => (((resetEnqueued s).takeAnswer .psHi).takeAnswer .psLo).nextAnswer .ctrl

/-- The values the batched reads resolve. -/
def resetResolved (s : State) : List (Nat × Word) :=
  [(s.nextHandle, resetAnswer s .psHi), (s.nextHandle + 1, resetAnswer s .psLo), (s.nextHandle + 2, resetAnswer s .ctrl)]

theorem applyAll_resetEnqueued {s : State} (h : s.queue = []) :
    applyAll (resetEnqueued s).queue (resetEnqueued s) =
      ((((resetEnqueued s).takeAnswer .psHi).takeAnswer .psLo).takeAnswer .ctrl, resetResolved s) := by
  have hq : (resetEnqueued s).queue =
      [.read .psHi s.nextHandle, .read .psLo (s.nextHandle + 1), .read .ctrl (s.nextHandle + 2)] := by
    simp [resetEnqueued, h]
  rw [hq]; rfl

theorem resetReads_history {s : State} (h : s.queue = []) : (resetReads s).history = s.history ++
    [.answered .psHi (resetAnswer s .psHi), .answered .psLo (resetAnswer s .psLo),
     .answered .ctrl (resetAnswer s .ctrl)] := by
  have : (resetReads s).history = (applyAll (resetEnqueued s).queue (resetEnqueued s)).1.history := rfl
  rw [this, applyAll_resetEnqueued h]
  simp only [takeAnswer_history, List.append_assoc]
  rfl

theorem resetReads_trace {s : State} (h : s.queue = []) : (resetReads s).trace = s.trace ++
    resetReadEvents s.nextHandle (resetAnswer s .psHi) (resetAnswer s .psLo) (resetAnswer s .ctrl) := by
  have : (resetReads s).trace = (resetEnqueued s).trace ++ [.c (applyAll (resetEnqueued s).queue (resetEnqueued s)).2] := by
    simp [resetReads, resetEnqueued, State.commit]
  rw [this, applyAll_resetEnqueued h]
  simp [resetEnqueued, resetReadEvents, resetResolved]

theorem resetReads_resolved {s : State} (h : s.queue = []) : (resetReads s).resolved = s.resolved ++ resetResolved s := by
  have : (resetReads s).resolved = s.resolved ++ (applyAll (resetEnqueued s).queue (resetEnqueued s)).2 := by
    simp [resetReads, resetEnqueued, State.commit]
  rw [this, applyAll_resetEnqueued h]

theorem resetReads_regs {s : State} (h : s.queue = []) : (resetReads s).regs = s.regs := by
  have : (resetReads s).regs = (applyAll (resetEnqueued s).queue (resetEnqueued s)).1.regs := rfl
  rw [this, applyAll_resetEnqueued h]; rfl

/-- The answers of the batched reads are the first of the tape, as far as it reaches. -/
theorem resetReads_answers {s : State} (h : s.queue = []) :
    ∃ taken, s.answers = taken ++ (resetReads s).answers ∧
      ([resetAnswer s .psHi, resetAnswer s .psLo, resetAnswer s .ctrl] = taken.map (fitWord s.params) ∨
        ((resetReads s).answers = [] ∧
          taken.map (fitWord s.params) <+: [resetAnswer s .psHi, resetAnswer s .psLo, resetAnswer s .ctrl])) := by
  have ht : (resetReads s).answers = (applyAll (resetEnqueued s).queue (resetEnqueued s)).1.answers := rfl
  rw [ht, applyAll_resetEnqueued h]
  have e0 : (resetEnqueued s).answers = s.answers := rfl
  have e1 := takeAnswer_answers_cases (resetEnqueued s) .psHi
  have e2 := takeAnswer_answers_cases ((resetEnqueued s).takeAnswer .psHi) .psLo
  have e3 := takeAnswer_answers_cases (((resetEnqueued s).takeAnswer .psHi).takeAnswer .psLo) .ctrl
  rw [e0] at e1
  simp only [resetAnswer]
  obtain ⟨a, e1, f1⟩ | ⟨e1, e1'⟩ := e1
  · obtain ⟨b, e2, f2⟩ | ⟨e2, e2'⟩ := e2
    · obtain ⟨c, e3, f3⟩ | ⟨e3, e3'⟩ := e3
      · exact ⟨[a, b, c], by rw [e1, e2, e3]; rfl, .inl (by rw [f1, f2, f3]; rfl)⟩
      · exact ⟨[a, b], by rw [e1, e2, e3, e3']; rfl, .inr ⟨e3', by rw [f1, f2]; exact ⟨[_], rfl⟩⟩⟩
    · have e3 : ((((resetEnqueued s).takeAnswer .psHi).takeAnswer .psLo).takeAnswer .ctrl).answers = [] := by
        rw [takeAnswer_answers, e2']; rfl
      exact ⟨[a], by rw [e1, e2, e3]; rfl, .inr ⟨e3, by rw [f1]; exact ⟨[_, _], rfl⟩⟩⟩
  · have e3 : ((((resetEnqueued s).takeAnswer .psHi).takeAnswer .psLo).takeAnswer .ctrl).answers = [] := by
      rw [takeAnswer_answers, takeAnswer_answers, e1']; rfl
    exact ⟨[], by rw [e1, e3]; rfl, .inr ⟨e3, List.nil_prefix⟩⟩

/-- The batched reads (R81): three answers, the first two the latched prescale. -/
theorem resetReads_spec {s : State} (h : Between s) :
    Extends s (resetReads s)
        (resetReadEvents s.nextHandle (resetAnswer s .psHi) (resetAnswer s .psLo) (resetAnswer s .ctrl)) [] ∧
      (resetReads s).val s.nextHandle = resetAnswer s .psHi ∧
      (resetReads s).val (s.nextHandle + 1) = resetAnswer s .psLo ∧
      (resetReads s).nextHandle = s.nextHandle + 3 := by
  have hn : (resetReads s).nextHandle = s.nextHandle + 3 := by simp [resetReads]
  have hacc : accessesFrom []
      (resetReadEvents s.nextHandle (resetAnswer s .psHi) (resetAnswer s .psLo) (resetAnswer s .ctrl)) =
      [.answered .psHi (resetAnswer s .psHi), .answered .psLo (resetAnswer s .psLo),
       .answered .ctrl (resetAnswer s .ctrl)] := by
    simp [resetReadEvents, accessesFrom, appliedBy, lookup]
  have hval : ∀ k, s.nextHandle ≤ k → (resetReads s).resolvedValue k = lookup k (resetResolved s) := by
    intro k hk
    rw [State.resolvedValue, resetReads_resolved h.queue,
      lookup_append_fresh fun e he => Nat.lt_of_lt_of_le (h.fresh e he) hk]
  refine ⟨?_, ?_, ?_, hn⟩
  · constructor
    case between =>
      refine ⟨rfl, fun e he => ?_⟩
      rw [resetReads_resolved h.queue, List.mem_append] at he
      rw [hn]
      rcases he with he | he
      · have := h.fresh e he; omega
      · simp only [resetResolved, List.mem_cons, List.not_mem_nil, or_false] at he
        rcases he with rfl | rfl | rfl <;> simp
    case trace => exact resetReads_trace h.queue
    case closed => rfl
    case history => rw [hacc]; exact resetReads_history h.queue
    case mem => intro a _; rw [resetReads_regs h.queue]
    case bytes => intro q; rw [State.regByte, resetReads_regs h.queue]; simp [writesTo, resetReadEvents, State.regByte]
    case wf => rw [resetReads_regs h.queue]; exact id
    case reads =>
      simp only [resetReadEvents, List.mem_cons, List.not_mem_nil, or_false, Event.c.injEq, reduceCtorEq, false_or]
      rintro _ rfl e he
      simp only [List.mem_cons, List.not_mem_nil, or_false] at he
      rcases he with rfl | rfl | rfl <;> exact fitWord_lt _ _
    case fits => exact fun _ hw => (((hw.memRead .psHi).memRead .psLo).memRead .ctrl).commit
    case answers => rw [hacc]; exact resetReads_answers h.queue
    all_goals simp [resetReads]
  · simp [State.val, hval _ (Nat.le_refl _), resetResolved, lookup]
  · simp [State.val, hval _ (Nat.le_succ _), resetResolved, lookup]

/-- Zeroing data and command (R83, R84). -/
theorem zeroDataAndCommand_spec {s : State} (h : Between s) :
    Extends s (zeroDataAndCommand s) lightEvents [.data, .cmd] ∧
      (zeroDataAndCommand s).regByte .data = some 0 ∧ (zeroDataAndCommand s).regByte .cmd = some 0 ∧
      (zeroDataAndCommand s).nextHandle = s.nextHandle := by
  obtain ⟨h1, h2, h3, h4⟩ := commit_writes h .data .cmd 0 0 (by decide)
  exact ⟨h1, h2, h3, h4⟩

/-- The FULL path (R83). -/
theorem fullReset_spec {s : State} (h : Between s) :
    Extends s (fullReset s) (fullEvents s.params s.prescale) [.ctrl, .psHi, .psLo, .data, .cmd] ∧
      (fullReset s).regByte .psHi = some (prescaleHigh s.prescale) ∧
      (fullReset s).regByte .psLo = some (prescaleLow s.prescale) ∧
      (fullReset s).regByte .data = some 0 ∧ (fullReset s).regByte .cmd = some 0 ∧
      (fullReset s).regByte .ctrl = some s.params.ctrlEnable ∧ (fullReset s).nextHandle = s.nextHandle := by
  obtain ⟨a1, -, a3⟩ := commit_write h .ctrl s.params.ctrlDisable
  have hp1 := a1.params
  have hq1 := a1.prescale
  obtain ⟨b1, b2, b3, b4⟩ := commit_writes a1.between .psHi .psLo (prescaleHigh s.prescale)
    (prescaleLow s.prescale) (by decide)
  obtain ⟨c1, c2, c3, c4⟩ := zeroDataAndCommand_spec b1.between
  obtain ⟨d1, d2, d3⟩ := commit_write c1.between .ctrl s.params.ctrlEnable
  have hall := ((a1.trans b1).trans c1).trans d1
  have hfull : fullReset s = ((zeroDataAndCommand
      ((((s.memWrite .ctrl (wordOfByte s.params.ctrlDisable)).commit.memWrite .psHi
        (wordOfByte (prescaleHigh s.prescale))).memWrite .psLo (wordOfByte (prescaleLow s.prescale))).commit)).memWrite
          .ctrl (wordOfByte s.params.ctrlEnable)).commit := by
    simp [fullReset, State.writeCommitted, zeroDataAndCommand]
  rw [hfull]
  refine ⟨?_, ?_, ?_, ?_, ?_, by rw [d2], by rw [d3, c4, b4, a3]⟩
  · exact hall.widen (by intro r; simp; tauto)
  · rw [d1.regs _ (by simp), c1.regs _ (by simp), b2]
  · rw [d1.regs _ (by simp), c1.regs _ (by simp), b3]
  · rw [d1.regs _ (by simp), c2]
  · rw [d1.regs _ (by simp), c3]

/-- The registers a `RESET` writes: on the LIGHT path only data and command, on the FULL path the control and prescale
registers too. -/
def resetWrites (isLight : Bool) : List Reg :=
  if isLight then [.data, .cmd] else [.ctrl, .psHi, .psLo, .data, .cmd]

/-- `RESET` polls nothing. -/
theorem resetOp_attempt_status (s : State) : (resetOp s).1.attempt = s.attempt ∧ (resetOp s).1.status = s.status := by
  simp only [resetOp, returning]
  split <;> simp [zeroDataAndCommand, fullReset, resetReads, State.writeCommitted]

/-- `RESET` (R81 to R84): the reads, then the path their two prescale words choose. -/
theorem resetOp_spec {s : State} (h : Between s) :
    ∃ hi lo ctrl t, Extends s t (resetEvents s.params s.prescale s.nextHandle hi lo ctrl)
        (resetWrites (decide (latchedPrescale hi lo = s.prescale))) ∧
      t.nextHandle = s.nextHandle + 3 ∧ t.regByte .data = some 0 ∧ t.regByte .cmd = some 0 ∧
      (latchedPrescale hi lo ≠ s.prescale → t.regByte .psHi = some (prescaleHigh s.prescale) ∧
        t.regByte .psLo = some (prescaleLow s.prescale) ∧ t.regByte .ctrl = some s.params.ctrlEnable) ∧
      (Undefined s → Undefined t) ∧ resetOp s = (t, .ok ()) := by
  obtain ⟨hr, hvh, hvl, hn⟩ := resetReads_spec h
  have hund : ∀ t, t.params = s.params → resetOp s = (t, .ok ()) → Undefined s → Undefined t := fun t hp hrun hu => by
    obtain ⟨ha, hs⟩ := resetOp_attempt_status s
    rw [hrun] at ha hs
    exact hu.congr hp ha hs
  generalize resetAnswer s .psHi = hi at hr hvh
  generalize resetAnswer s .psLo = lo at hr hvl
  generalize resetAnswer s .ctrl = ctrl at hr
  have hrun : resetOp s = (if latchedPrescale hi lo = s.prescale then zeroDataAndCommand (resetReads s)
      else fullReset (resetReads s), .ok ()) := by
    simp only [resetOp, returning, hvh, hvl, hr.prescale]
  by_cases hp : latchedPrescale hi lo = s.prescale
  · obtain ⟨z1, z2, z3, z4⟩ := zeroDataAndCommand_spec hr.between
    have hrun' := hrun.trans (by rw [if_pos hp])
    refine ⟨hi, lo, ctrl, _, ?_, by rw [z4, hn], z2, z3, fun hne => absurd hp hne,
      hund _ (z1.params.trans hr.params) hrun', hrun'⟩
    simpa [resetEvents, resetWrites, hp] using hr.trans z1
  · obtain ⟨f1, f2, f3, f4, f5, f6, f7⟩ := fullReset_spec hr.between
    have hrun' := hrun.trans (by rw [if_neg hp])
    have hund' := hund _ (f1.params.trans hr.params) hrun'
    rw [hr.params, hr.prescale] at f1
    rw [hr.prescale] at f2 f3
    rw [hr.params] at f6
    refine ⟨hi, lo, ctrl, _, ?_, by rw [f7, hn], f4, f5, fun _ => ⟨f2, f3, f6⟩, hund', hrun'⟩
    simpa [resetEvents, resetWrites, hp] using hr.trans f1

end Sys2Proof.Machine
end

