-- ==== Sys2Proof/Laws/Transactions.lean ====
section
/-! SUPPORT. Laws/Transactions.lean: one lemma per operation of Machine/Transactions.lean, as stretches with their events
(Safety/Traces.lean) and outcomes. -/

namespace Sys2Proof.Machine

/-! ## The loops of the block operations -/

/-- The byte loop of `WRITE_BLOCK` (R100). -/
theorem writeBytes_spec (sendStop : Bool) (bytes : List Byte) {s : State} (h : Between s)
    (hv : paramsValid s.params = true) :
    ∃ t tr out, WriteSequence s.params (dataBytes sendStop bytes) s.nextHandle tr out ∧ Extends s t tr [.data, .cmd] ∧
      (Undefined s → Undefined t) ∧ writeBytes sendStop bytes s = (t, out) := by
  induction bytes generalizing s with
  | nil => exact ⟨s, [], .ok (), ⟨rfl, rfl⟩, (Extends.refl h).widen (by simp), id, rfl⟩
  | cons b rest ih =>
    obtain ⟨ws, t, hw, ht, hn, -, -, hu, hrun⟩ := sendWriteOp_spec (writeByteFlags rest.isEmpty sendStop) b h hv
    have hfl : writeByteFlags rest.isEmpty sendStop = { sto := rest.isEmpty && sendStop } := rfl
    cases hver : waitVerdict s.params true (writeByteFlags rest.isEmpty sendStop).sto ws with
    | error e =>
      refine ⟨t, _, .error e, ⟨ws, [], hw, rfl, ?_⟩, by simpa [hfl] using ht, fun _ => hu, ?_⟩
      · rw [hfl] at hver; simp [hver]
      · simp [writeBytes, hrun, hver]
    | ok u =>
      obtain ⟨t', tr, out, hseq, hx, hu', hr⟩ := ih ht.between (by rw [ht.params]; exact hv)
      rw [hn, ht.params] at hseq
      refine ⟨t', _, out, ⟨ws, tr, hw, rfl, ?_⟩, ?_, fun _ => hu' hu, ?_⟩
      · rw [hfl] at hver; simpa [hver] using hseq
      · exact (ht.trans hx).widen (by simp)
      · simp [writeBytes, hrun, hver, hr]

/-- The byte loop of `READ_BLOCK` (R101). -/
theorem readBytes_spec (n : Nat) (got : List Byte) {s : State} (h : Between s) (hv : paramsValid s.params = true) :
    ∃ t tr out, ReadSequence s.params (readFlags n) got s.nextHandle tr out ∧ Extends s t tr [.cmd] ∧
      (Undefined s → Undefined t) ∧ readBytes n got s = (t, out) := by
  induction n generalizing s got with
  | zero => exact ⟨s, [], .ok got, ⟨rfl, rfl⟩, (Extends.refl h).widen (by simp), id, rfl⟩
  | succ n ih =>
    have hfl : readFlags (n + 1) = readByteFlags (n == 0) :: readFlags n := by cases n <;> rfl
    obtain ⟨ws, t, tr, out, hw, ht, -, hu, hrun, hout⟩ := sendReadOp_spec (readByteFlags (n == 0)) h hv
    rw [hfl]
    cases hver : waitVerdict s.params false (readNeedsIdle s.params (readByteFlags (n == 0))) ws with
    | error e =>
      simp only [hver] at hout
      obtain ⟨rfl, rfl, -⟩ := hout
      exact ⟨t, _, .error e, ⟨ws, [], hw, rfl, by simp [hver]⟩, ht, fun _ => hu, by simp [readBytes, hrun]⟩
    | ok u =>
      simp only [hver] at hout
      obtain ⟨w, rfl, rfl, hn⟩ := hout
      obtain ⟨t', tr', out', hseq, hx, hu', hr⟩ := ih (got ++ [lowByte w]) ht.between (by rw [ht.params]; exact hv)
      rw [hn, ht.params] at hseq
      refine ⟨t', _, out', ⟨ws, receiveEvents (s.nextHandle + ws.length) w ++ tr', hw, ?_, ?_⟩,
        (ht.trans hx).widen (by simp), fun _ => hu' hu, by simp [readBytes, hrun, hr]⟩
      · rw [List.append_assoc]
      · simp only [hver]; exact ⟨w, tr', rfl, hseq⟩

/-! ## PING and SCAN -/

/-- `PING` (R102): it never raises; its answer says whether both of its commands succeeded. -/
theorem pingOp_spec (a : Addr7) {s : State} (h : Between s) (hv : paramsValid s.params = true) :
    ∃ t tr answer, PingTrace s.params a s.nextHandle tr answer t.nextHandle ∧ Extends s t tr [.data, .cmd] ∧
      Undefined t ∧ pingOp a s = (t, .ok answer) := by
  obtain ⟨ws, t, hw, ht, hn, -, -, hu, hrun⟩ := sendWriteOp_spec startFlags (addrByte a true) h hv
  have hbus : ∀ ra ri ws e, waitVerdict s.params ra ri ws = .error e → isBusError e.kind = true := by
    intro ra ri ws e he
    simp only [waitVerdict, verdictOf, busErr] at he
    repeat' split at he
    all_goals first | (cases he; rfl) | cases he
  cases hver : waitVerdict s.params true startFlags.sto ws with
  | error e =>
    refine ⟨t, _, false, ⟨ws, [], hw, rfl, ?_⟩, by simpa [startFlags] using ht, hu, ?_⟩
    · have : waitVerdict s.params true false ws = .error e := hver
      simp [this, hn]
    · simp [pingOp, pingBody, hrun, hver, catchBusError, hbus _ _ _ _ hver, returning]
  | ok u =>
    have hver' : waitVerdict s.params true false ws = .ok u := hver
    obtain ⟨vs, t', tr, out, hvs, ht', -, hu', hrun', hout⟩ := sendReadOp_spec lastReadFlags ht.between
      (by rw [ht.params]; exact hv)
    rw [ht.params] at hvs ht' hout
    rw [hn] at ht' hout
    cases hver2 : waitVerdict s.params false (readNeedsIdle s.params lastReadFlags) vs with
    | error e =>
      simp only [hver2] at hout
      obtain ⟨rfl, rfl, hn'⟩ := hout
      refine ⟨t', _, false, ⟨ws, _, hw, rfl, ?_⟩, (ht.trans ht').widen (by simp), hu', ?_⟩
      · simp only [hver']
        refine ⟨vs, [], hvs, rfl, ?_⟩
        have : waitVerdict s.params false (readNeedsIdle s.params { sto := true, ack := true }) vs = .error e := hver2
        simp [this, hn']
      · simp [pingOp, pingBody, hrun, hver, hrun', catchBusError, hbus _ _ _ _ hver2, returning]
    | ok u' =>
      simp only [hver2] at hout
      obtain ⟨w, rfl, rfl, hn'⟩ := hout
      refine ⟨t', _, true, ⟨ws, _, hw, rfl, ?_⟩, (ht.trans ht').widen (by simp), hu', ?_⟩
      · simp only [hver']
        refine ⟨vs, _, hvs, rfl, ?_⟩
        have : waitVerdict s.params false (readNeedsIdle s.params { sto := true, ack := true }) vs = .ok u' := hver2
        simp only [this]
        exact ⟨w, rfl, trivial, hn'⟩
      · simp [pingOp, pingBody, hrun, hver, hrun', catchBusError, returning]

/-- The loop of `SCAN` (R103): every address is pinged, whatever the others answered. -/
theorem scanLoop_spec (as : List Nat) (out : List Addr7) {s : State} (h : Between s)
    (hv : paramsValid s.params = true) :
    ∃ t tr found, ScanTrace s.params as s.nextHandle tr found ∧ Extends s t tr [.data, .cmd] ∧
      (Undefined s → Undefined t) ∧ scanLoop as out s = (t, .ok (out ++ found)) := by
  induction as generalizing s out with
  | nil => exact ⟨s, [], [], ⟨rfl, rfl⟩, (Extends.refl h).widen (by simp), id, by simp [scanLoop, returning]⟩
  | cons a as ih =>
    obtain ⟨t, tr, answer, hp, ht, hu, hrun⟩ := pingOp_spec (addrOfArg a) h hv
    obtain ⟨t', tr', found, hsc, ht', hu', hrun'⟩ := ih (if answer then out ++ [addrOfArg a] else out) ht.between
      (by rw [ht.params]; exact hv)
    rw [ht.params] at hsc
    refine ⟨t', tr ++ tr', (if answer then [addrOfArg a] else []) ++ found,
      ⟨tr, tr', answer, t.nextHandle, found, hp, rfl, hsc, rfl⟩, (ht.trans ht').widen (by simp),
      fun _ => hu' hu, ?_⟩
    simp only [scanLoop, hrun, andThen_ok, hrun']
    cases answer <;> simp

/-! ## The blocks -/

theorem data_mem_resetWrites (isLight : Bool) : Reg.data ∈ resetWrites isLight := by cases isLight <;> decide

theorem cmd_mem_resetWrites (isLight : Bool) : Reg.cmd ∈ resetWrites isLight := by cases isLight <;> decide

/-- `WRITE_BLOCK` (R100): the reset, then the address byte and the data bytes. -/
theorem writeBlockOp_spec (a : Addr7) (bytes : List Byte) (sendStop : Bool) {s : State} (h : Between s)
    (hv : paramsValid s.params = true) :
    ∃ hi lo ctrl t tr out,
      WriteSequence s.params (({ sta := true }, addrByte a false) :: dataBytes sendStop bytes) (s.nextHandle + 3) tr out ∧
      Extends s t (resetEvents s.params s.prescale s.nextHandle hi lo ctrl ++ tr)
        (resetWrites (decide (latchedPrescale hi lo = s.prescale))) ∧
      Undefined t ∧ writeBlockOp a bytes sendStop s = (t, out) := by
  obtain ⟨hi, lo, ctrl, r, hr, hn, -, -, -, -, hrun⟩ := resetOp_spec h
  have hvr : paramsValid r.params = true := by rw [hr.params]; exact hv
  obtain ⟨ws, t, hw, ht, hnt, -, -, hu, hrunw⟩ := sendWriteOp_spec startFlags (addrByte a false) hr.between hvr
  have hd := data_mem_resetWrites (decide (latchedPrescale hi lo = s.prescale))
  have hc := cmd_mem_resetWrites (decide (latchedPrescale hi lo = s.prescale))
  rw [hr.params] at hw ht hrunw
  rw [hn] at ht hnt
  cases hver : waitVerdict s.params true startFlags.sto ws with
  | error e =>
    refine ⟨hi, lo, ctrl, t, _, .error e, ⟨ws, [], hw, rfl, ?_⟩, ?_, hu, ?_⟩
    · have : waitVerdict s.params true false ws = .error e := hver
      simp [this]
    · have := (hr.trans ht).widen (es := resetWrites (decide (latchedPrescale hi lo = s.prescale))) (by simp [hd, hc])
      simpa [startFlags] using this
    · simp [writeBlockOp, hrun, hrunw, hver]
  | ok u =>
    have hver' : waitVerdict s.params true false ws = .ok u := hver
    obtain ⟨t', tr, out, hseq, hx, hu', hrunb⟩ := writeBytes_spec sendStop bytes ht.between
      (by rw [ht.params]; exact hvr)
    rw [hnt, ht.params, hr.params] at hseq
    refine ⟨hi, lo, ctrl, t', _, out, ⟨ws, tr, hw, rfl, by simpa [hver'] using hseq⟩, ?_, hu' hu, ?_⟩
    · have := ((hr.trans ht).trans hx).widen (es := resetWrites (decide (latchedPrescale hi lo = s.prescale)))
        (by simp [hd, hc])
      simpa [startFlags] using this
    · simp [writeBlockOp, hrun, hrunw, hver, hrunb]

/-- `READ_BLOCK` (R101): the reset, the address byte sent as a write, then the bytes read. -/
theorem readBlockOp_spec (a : Addr7) (count : Nat) {s : State} (h : Between s) (hv : paramsValid s.params = true) :
    ∃ hi lo ctrl ws t more out,
      PollWords s.params ws ∧
      Extends s t (resetEvents s.params s.prescale s.nextHandle hi lo ctrl ++
          (sendWriteEvents s.params { sta := true } (addrByte a true) (s.nextHandle + 3) ws ++ more))
        (resetWrites (decide (latchedPrescale hi lo = s.prescale))) ∧
      Undefined t ∧ readBlockOp a count s = (t, out) ∧
      match waitVerdict s.params true false ws with
      | .error e => more = [] ∧ out = .error e
      | .ok _ => ReadSequence s.params (readFlags count) [] (s.nextHandle + 3 + ws.length) more out := by
  obtain ⟨hi, lo, ctrl, r, hr, hn, -, -, -, -, hrun⟩ := resetOp_spec h
  have hvr : paramsValid r.params = true := by rw [hr.params]; exact hv
  obtain ⟨ws, t, hw, ht, hnt, -, -, hu, hrunw⟩ := sendWriteOp_spec startFlags (addrByte a true) hr.between hvr
  have hd := data_mem_resetWrites (decide (latchedPrescale hi lo = s.prescale))
  have hc := cmd_mem_resetWrites (decide (latchedPrescale hi lo = s.prescale))
  rw [hr.params] at hw ht hrunw
  rw [hn] at ht hnt
  cases hver : waitVerdict s.params true startFlags.sto ws with
  | error e =>
    have hver' : waitVerdict s.params true false ws = .error e := hver
    refine ⟨hi, lo, ctrl, ws, t, [], .error e, hw, ?_, hu, ?_, ?_⟩
    · have := (hr.trans ht).widen (es := resetWrites (decide (latchedPrescale hi lo = s.prescale))) (by simp [hd, hc])
      simpa [startFlags] using this
    · simp [readBlockOp, hrun, hrunw, hver]
    · simp [hver']
  | ok u =>
    have hver' : waitVerdict s.params true false ws = .ok u := hver
    obtain ⟨t', tr, out, hseq, hx, hu', hrunb⟩ := readBytes_spec count [] ht.between (by rw [ht.params]; exact hvr)
    rw [hnt, ht.params, hr.params] at hseq
    refine ⟨hi, lo, ctrl, ws, t', tr, out, hw, ?_, hu' hu, ?_, ?_⟩
    · have := ((hr.trans ht).trans hx).widen (es := resetWrites (decide (latchedPrescale hi lo = s.prescale)))
        (by simp [hd, hc])
      simpa [startFlags] using this
    · simp [readBlockOp, hrun, hrunw, hver, hrunb]
    · simpa [hver'] using hseq

end Sys2Proof.Machine
end

