-- ==== Sys2Proof/Laws/Exec.lean ====
section
/-! SUPPORT. Laws/Exec.lean: what any instruction can do when it answers a next state, said once over the operations' own
lemmas. -/

namespace Sys2Proof.Machine

/-- The state an instruction's stretch starts from: accepted, and for `CONFIGURE` with its prescale stored. -/
def acceptedFor (i : Instr) (s : State) : State :=
  match i with
  | .configure ratio => s.accept.setPrescale (Config.prescaleOf ratio)
  | _ => s.accept

/-- `t` is where the stretch ended, with an outcome delivered or none. -/
def Delivers (u t : State) : Prop := t = u ∨ ∃ reply, t = u.finish reply

/-- What an instruction that answered `t` has done: a stretch writing its registers only, then perhaps an outcome; it
leaves `attempt` and `status` undefined. -/
structure Executed (i : Instr) (s t : State) : Prop where
  ready   : s.Ready
  stretch : ∃ u tr, Extends (acceptedFor i s) u tr (registersWritten i) ∧ Delivers u t ∧ Undefined u

/-- An operation's stretch and its outcome delivered. -/
theorem Executed.of_run {α : Type} {i : Instr} {s u : State} {tr : List Event} {ds : List Reg} (wrap : α → Val)
    {r : Run α} {out : Except Err α} (hr : s.Ready) (hx : Extends (acceptedFor i s) u tr ds)
    (hd : ds ⊆ registersWritten i) (hrun : r = (u, out))
    (hu : Undefined u) : Executed i s (respond wrap r) :=
  ⟨hr, u, tr, hx.widen hd, .inr ⟨_, by rw [respond, hrun]⟩, hu⟩

/-- A reset writes no register but its five. -/
theorem resetWrites_subset (isLight : Bool) : resetWrites isLight ⊆ [.ctrl, .psHi, .psLo, .data, .cmd] := by
  cases isLight <;> simp [resetWrites]

/-- A block request that answers a next state has passed its argument checks. -/
theorem whenBlockArgs_next {addr : Nat} {isEmpty : Bool} {k : Addr7 → Host.Outcome State Fault Refusal} {t : State}
    (h : whenBlockArgs addr isEmpty k = .next t) : addr ≤ 0x7F ∧ isEmpty = false ∧ k (BitVec.ofNat 7 addr) = .next t := by
  simp only [whenBlockArgs, addrFits, decide_eq_true_eq] at h
  split at h
  · split at h
    · cases h
    · next ha he => exact ⟨ha, by simpa using he, h⟩
  · cases h

/-- One command byte, written and committed. -/
theorem executed_command {i : Instr} {s : State} (v : Byte) (hq : s.queue = []) (hr : s.Ready)
    (ha : acceptedFor i s = s.accept) (hw : registersWritten i = [.cmd]) : Executed i s (commandOp v s.accept) := by
  obtain ⟨hx, -, -⟩ := commit_write (Between.accept hq) .cmd v
  exact ⟨hr, _, _, by rw [ha, hw]; exact hx, .inl rfl,
    (undefined_accept s).congr hx.params (commit_attempt _) (commit_status _)⟩

theorem executed_writeBlock {s t : State} {addr : Nat} {bytes : List Byte} {sendStop : Bool} (hq : s.queue = [])
    (h : execWriteBlock addr bytes sendStop s = .next t) (i : Instr) (ha : acceptedFor i s = s.accept)
    (hw : registersWritten i = [.ctrl, .psHi, .psLo, .data, .cmd]) : Executed i s t := by
  obtain ⟨hr, h⟩ := whenReady_next h
  obtain ⟨-, -, h⟩ := whenBlockArgs_next h
  cases h
  obtain ⟨hi, lo, ctrl, u, tr, out, -, hx, hu, hrun⟩ :=
    writeBlockOp_spec (BitVec.ofNat 7 addr) bytes sendStop (Between.accept hq) hr.params
  exact .of_run _ hr (ha ▸ hx) (hw ▸ resetWrites_subset _) hrun hu

theorem executed_readBlock {s t : State} {addr count : Nat} (hq : s.queue = [])
    (h : execReadBlock addr count s = .next t) (i : Instr) (ha : acceptedFor i s = s.accept)
    (hw : registersWritten i = [.ctrl, .psHi, .psLo, .data, .cmd]) : Executed i s t := by
  obtain ⟨hr, h⟩ := whenReady_next h
  obtain ⟨-, -, h⟩ := whenBlockArgs_next h
  cases h
  obtain ⟨hi, lo, ctrl, ws, u, more, out, -, hx, hu, hrun, -⟩ :=
    readBlockOp_spec (BitVec.ofNat 7 addr) count (Between.accept hq) hr.params
  exact .of_run _ hr (ha ▸ hx) (hw ▸ resetWrites_subset _) hrun hu

/-- Every instruction that answers a next state is a stretch of the machine, then perhaps an outcome. -/
theorem exec_executed {i : Instr} {s t : State} (hq : s.queue = []) (h : exec i s = .next t) : Executed i s t := by
  have hb : Between s.accept := Between.accept hq
  have hu : Undefined s.accept := undefined_accept s
  cases i with
  | configure ratio =>
    obtain ⟨hr, h⟩ := whenReady_next (id h : execConfigure ratio s = .next t)
    cases h
    exact .of_run _ hr (Extends.refl (s := acceptedFor (.configure ratio) s) ⟨hq, hb.fresh⟩) (by simp) rfl hu
  | reset =>
    obtain ⟨hr, h⟩ := whenReady_next (id h : execReset s = .next t)
    cases h
    obtain ⟨hi, lo, ctrl, u, hx, -, -, -, -, hu', hrun⟩ := resetOp_spec hb
    exact .of_run _ hr hx (resetWrites_subset _) hrun (hu' hu)
  | sendWrite cmd data =>
    obtain ⟨hr, h⟩ := whenReady_next (id h : execSendWrite cmd data s = .next t)
    split at h
    · cases h
    · cases h
      obtain ⟨ws, u, -, hx, -, -, -, hu', hrun⟩ := sendWriteOp_spec cmd data hb hr.params
      exact .of_run _ hr hx (by simp [registersWritten]) hrun hu'
  | sendRead cmd =>
    obtain ⟨hr, h⟩ := whenReady_next (id h : execSendRead cmd s = .next t)
    split at h
    · cases h
    · cases h
      obtain ⟨ws, u, tr, out, -, hx, -, hu', hrun, -⟩ := sendReadOp_spec cmd hb hr.params
      exact .of_run _ hr hx (by simp [registersWritten]) hrun hu'
  | wait reqAck reqIdle =>
    obtain ⟨hr, h⟩ := whenReady_next (id h : execWait reqAck reqIdle s = .next t)
    cases h
    obtain ⟨ws, u, -, hx, -, hu', hrun⟩ := waitOp_spec reqAck reqIdle hb hr.params
    exact .of_run _ hr hx (by simp) hrun hu'
  | writeBlock addr bytes sendStop => exact executed_writeBlock hq h _ rfl rfl
  | readBlock addr count => exact executed_readBlock hq h _ rfl rfl
  | ping addr =>
    obtain ⟨hr, h⟩ := whenReady_next (id h : execPing addr s = .next t)
    split at h
    · cases h
      obtain ⟨u, tr, answer, -, hx, hu', hrun⟩ := pingOp_spec (addrOfArg addr) hb hr.params
      exact .of_run _ hr hx (by simp [registersWritten]) hrun hu'
    · cases h
  | scan =>
    obtain ⟨hr, h⟩ := whenReady_next (id h : execScan s = .next t)
    cases h
    obtain ⟨u, tr, found, -, hx, hu', hrun⟩ := scanLoop_spec (List.range (s.accept.params.scanLast.toNat + 1)) [] hb hr.params
    exact .of_run _ hr hx (by simp [registersWritten]) hrun (hu' hu)
  | getSlaveAddress n =>
    obtain ⟨hr, h⟩ := whenReady_next (id h : execGetSlaveAddress n s = .next t)
    cases h
    have hrun : getSlaveAddressOp n s.accept = (s.accept, (getSlaveAddressOp n s.accept).2) := by
      simp only [getSlaveAddressOp]; split <;> rfl
    exact .of_run _ hr (Extends.refl (s := acceptedFor (.getSlaveAddress n) s) hb) (by simp) hrun hu
  | getSlave n =>
    obtain ⟨hr, h⟩ := whenReady_next (id h : execGetSlave n s = .next t)
    cases h
    have hrun : getSlaveOp n s.accept = (s.accept, (getSlaveOp n s.accept).2) := by
      simp only [getSlaveOp]; split <;> rfl
    exact .of_run _ hr (Extends.refl (s := acceptedFor (.getSlave n) s) hb) (by simp) hrun hu
  | slaveWriteBlock hd bytes sendStop => exact executed_writeBlock hq h _ rfl rfl
  | slaveReadBlock hd count => exact executed_readBlock hq h _ rfl rfl
  | cmdZero =>
    obtain ⟨hr, h⟩ := whenReady_next (id h : execCmdZero s = .next t)
    cases h
    exact executed_command _ hq hr rfl rfl
  | cmdWrite sta sto ack =>
    obtain ⟨hr, h⟩ := whenReady_next (id h : execCmdWrite sta sto ack s = .next t)
    cases h
    exact executed_command _ hq hr rfl rfl
  | cmdRead sta sto ack =>
    obtain ⟨hr, h⟩ := whenReady_next (id h : execCmdRead sta sto ack s = .next t)
    cases h
    exact executed_command _ hq hr rfl rfl

end Sys2Proof.Machine
end

