-- ==== Sys2Proof/Laws/Flags.lean ====
section
/-! SUPPORT. Laws/Flags.lean: what R7's conditions on the masks give: a set of command flags and the byte that ors their masks
say the same, so that command bytes decode to what was encoded. -/

namespace Sys2Proof.Machine

theorem isSingleBit_cases : ∀ m : Byte, isSingleBit m = true → m ∈ [1#8, 2#8, 4#8, 8#8, 16#8, 32#8, 64#8, 128#8] := by
  decide

theorem isSingleBit_ne_zero {m : Byte} (h : isSingleBit m = true) : m ≠ 0 := by
  rintro rfl; exact absurd h (by decide)

theorem and_eq_zero_of_ne {a b : Byte} (ha : isSingleBit a = true) (hb : isSingleBit b = true) (hne : a ≠ b) :
    a &&& b = 0 := by
  have h1 := isSingleBit_cases a ha
  have h2 := isSingleBit_cases b hb
  simp only [List.mem_cons, List.not_mem_nil, or_false] at h1 h2
  rcases h1 with rfl | rfl | rfl | rfl | rfl | rfl | rfl | rfl <;>
    rcases h2 with rfl | rfl | rfl | rfl | rfl | rfl | rfl | rfl <;> first | rfl | exact absurd rfl hne

/-- The command masks of parameters a model may take: none is 0, and no two share a bit (R7). -/
structure CommandMasks (p : Params) : Prop where
  sta : p.cmdSta ≠ 0
  sto : p.cmdSto ≠ 0
  rd  : p.cmdRd ≠ 0
  wr  : p.cmdWr ≠ 0
  ack : p.cmdAck ≠ 0
  staSto : p.cmdSta &&& p.cmdSto = 0
  staRd  : p.cmdSta &&& p.cmdRd = 0
  staWr  : p.cmdSta &&& p.cmdWr = 0
  staAck : p.cmdSta &&& p.cmdAck = 0
  stoRd  : p.cmdSto &&& p.cmdRd = 0
  stoWr  : p.cmdSto &&& p.cmdWr = 0
  stoAck : p.cmdSto &&& p.cmdAck = 0
  rdWr   : p.cmdRd &&& p.cmdWr = 0
  rdAck  : p.cmdRd &&& p.cmdAck = 0
  wrAck  : p.cmdWr &&& p.cmdAck = 0

theorem commandMasks_of_valid {p : Params} (h : paramsValid p = true) : CommandMasks p := by
  simp only [paramsValid, goodMasks, Bool.and_eq_true] at h
  obtain ⟨⟨⟨⟨hs, hd⟩, -⟩, -⟩, -⟩ := h
  simp only [List.all_cons, List.all_nil, Bool.and_eq_true, Bool.and_true] at hs
  obtain ⟨a, b, c, d, e⟩ := hs
  simp only [allDistinct, Bool.and_eq_true, Bool.not_eq_true', List.contains_eq_mem, decide_eq_false_iff_not,
    List.mem_cons, List.not_mem_nil, or_false, not_or, and_true, not_false_eq_true] at hd
  obtain ⟨⟨h1, h2, h3, h4⟩, ⟨h5, h6, h7⟩, ⟨h8, h9⟩, h10⟩ := hd
  exact ⟨isSingleBit_ne_zero a, isSingleBit_ne_zero b, isSingleBit_ne_zero c, isSingleBit_ne_zero d, isSingleBit_ne_zero e,
    and_eq_zero_of_ne a b h1, and_eq_zero_of_ne a c h2, and_eq_zero_of_ne a d h3, and_eq_zero_of_ne a e h4,
    and_eq_zero_of_ne b c h5, and_eq_zero_of_ne b d h6, and_eq_zero_of_ne b e h7, and_eq_zero_of_ne c d h8,
    and_eq_zero_of_ne c e h9, and_eq_zero_of_ne d e h10⟩

theorem or_and_mask (x y m : Byte) : (x ||| y) &&& m = (x &&& m) ||| (y &&& m) := by
  ext i; simp [Bool.and_or_distrib_right]

theorem maskIf_and_other {on : Bool} {a m : Byte} (h : a &&& m = 0) : maskIf on a &&& m = 0#8 := by
  cases on
  · simp [maskIf]
  · exact h

theorem maskIf_and_self {on : Bool} {m : Byte} (h : m ≠ 0) : (maskIf on m &&& m != 0#8) = on := by
  cases on
  · simp [maskIf]
  · simpa [maskIf] using h

theorem and_comm_zero {a b : Byte} (h : a &&& b = 0) : b &&& a = 0 := by rw [BitVec.and_comm]; exact h

/-- The set of flags a byte was made of is the set it carries. -/
theorem flagsOfByte_flagsByte {p : Params} (m : CommandMasks p) (f : Flags) : flagsOfByte p (flagsByte p f) = f := by
  have c := @and_comm_zero
  simp [flagsOfByte, flagsByte, or_and_mask,
    maskIf_and_other m.staSto, maskIf_and_other m.staRd, maskIf_and_other m.staWr, maskIf_and_other m.staAck,
    maskIf_and_other m.stoRd, maskIf_and_other m.stoWr, maskIf_and_other m.stoAck, maskIf_and_other m.rdWr,
    maskIf_and_other m.rdAck, maskIf_and_other m.wrAck, maskIf_and_other (c m.staSto), maskIf_and_other (c m.staRd),
    maskIf_and_other (c m.staWr), maskIf_and_other (c m.staAck), maskIf_and_other (c m.stoRd),
    maskIf_and_other (c m.stoWr), maskIf_and_other (c m.stoAck), maskIf_and_other (c m.rdWr),
    maskIf_and_other (c m.rdAck), maskIf_and_other (c m.wrAck),
    maskIf_and_self m.sta, maskIf_and_self m.sto, maskIf_and_self m.rd, maskIf_and_self m.wr, maskIf_and_self m.ack]

theorem maskIf_getElem (on : Bool) (m : Byte) (i : Nat) (hi : i < 8) : (maskIf on m)[i] = (on && m[i]) := by
  cases on <;> simp [maskIf]

/-- Forcing the write flag on is adding it to the set (R63). -/
theorem writeCommand_eq (p : Params) (f : Flags) : writeCommand p f = flagsByte p { f with wr := true } := by
  ext i hi
  simp only [writeCommand, flagsByte, BitVec.getElem_or, maskIf_getElem, Bool.true_and]
  cases p.cmdWr[i] <;> simp

/-- Forcing the read flag on is adding it to the set (R64). -/
theorem readCommand_eq (p : Params) (f : Flags) : readCommand p f = flagsByte p { f with rd := true } := by
  ext i hi
  simp only [readCommand, flagsByte, BitVec.getElem_or, maskIf_getElem, Bool.true_and]
  cases p.cmdRd[i] <;> simp

/-- A bit of a byte is the same bit of the word that carries it. -/
theorem statusBit_wordOfByte (b m : Byte) : statusBit (wordOfByte b) m = (b &&& m != 0) := by
  have h : wordOfByte b &&& wordOfByte m = wordOfByte (b &&& m) := (BitVec.toNat_and b m).symm
  have hz : ∀ x : Byte, (wordOfByte x != 0) = (x != 0) := by decide
  rw [statusBit, h, hz]

/-- Reading the status bits ignores every bit outside the masks' byte (30_encoding.md R73). -/
theorem statusBit_eq_lowByte (w : Word) (m : Byte) : statusBit w m = (lowByte w &&& m != 0) := by
  have h : w &&& wordOfByte m = wordOfByte (lowByte w &&& m) := by
    apply Nat.eq_of_testBit_eq
    intro i
    by_cases h8 : i < 8
    · have h256 : (w % 256).testBit i = w.testBit i := by simpa [h8] using Nat.testBit_mod_two_pow w 8 i
      simp [wordOfByte, lowByte, h256]
    · simp [wordOfByte, BitVec.toNat_and, Nat.testBit_and, BitVec.testBit_toNat, BitVec.getLsbD_of_ge m i (by omega)]
  have hz : ∀ x : Byte, (wordOfByte x != 0) = (x != 0) := by decide
  rw [statusBit, h, hz]

/-- The status bits of an answer are those of the word that carries it. -/
theorem statusBit_fitWord {p : Params} (h : 8 ≤ p.regWidth) (n : Nat) (m : Byte) :
    statusBit (fitWord p n) m = statusBit n m := by
  rw [statusBit_eq_lowByte, statusBit_eq_lowByte, lowByte_fitWord h]

end Sys2Proof.Machine
end

