-- ==== Sys2Proof/Laws/PerInstr.lean ====
section
/-! SUPPORT. Laws/PerInstr.lean: the family RequestCode, a statement about each instruction as syntax: what the encoder
presents for it matches its own row of spec/opcode_table.json under the default masks, and no argument is dropped. -/

namespace Sys2Proof.Laws.RequestCode

open Sys2Proof.Machine

/-- The match and mask of the instruction's row (spec/opcode_table.json). -/
def row : Instr → Byte × Byte
  | .configure _ => (0x01, 0xFF)
  | .reset => (0x02, 0xFF)
  | .sendWrite _ _ => (0x03, 0xFF)
  | .sendRead _ => (0x04, 0xFF)
  | .wait _ _ => (0x05, 0xFF)
  | .writeBlock _ _ _ => (0x06, 0xFF)
  | .readBlock _ _ => (0x07, 0xFF)
  | .ping _ => (0x08, 0xFF)
  | .scan => (0x09, 0xFF)
  | .getSlaveAddress _ => (0x0A, 0xFF)
  | .getSlave _ => (0x0B, 0xFF)
  | .slaveWriteBlock _ _ _ => (0x0C, 0xFF)
  | .slaveReadBlock _ _ => (0x0D, 0xFF)
  | .cmdZero => (0x00, 0xFF)
  | .cmdWrite _ _ _ => (0x10, 0x37)
  | .cmdRead _ _ _ => (0x20, 0x37)

/-- The byte the table's row describes: the request's code, or the command byte itself. -/
def presentedByte : Presented → Byte
  | .request code _ => code
  | .command v => v

/-- The encoder's byte has the fixed bits of the instruction's row. -/
def Statement (i : Instr) : Prop := presentedByte (encode Config.defaults i) &&& (row i).2 = (row i).1

theorem configure (ratio : Ratio) : Statement (.configure ratio) := by
  show (0x01 : Byte) &&& 0xFF = 0x01; decide
theorem reset : Statement .reset := by unfold Statement; decide
theorem sendWrite (cmd : Flags) (data : Byte) : Statement (.sendWrite cmd data) := by
  show (0x03 : Byte) &&& 0xFF = 0x03; decide
theorem sendRead (cmd : Flags) : Statement (.sendRead cmd) := by
  show (0x04 : Byte) &&& 0xFF = 0x04; decide
theorem wait (reqAck reqIdle : Bool) : Statement (.wait reqAck reqIdle) := by
  show (0x05 : Byte) &&& 0xFF = 0x05; decide
theorem writeBlock (addr : Nat) (bytes : List Byte) (sendStop : Bool) : Statement (.writeBlock addr bytes sendStop) := by
  show (0x06 : Byte) &&& 0xFF = 0x06; decide
theorem readBlock (addr count : Nat) : Statement (.readBlock addr count) := by
  show (0x07 : Byte) &&& 0xFF = 0x07; decide
theorem ping (addr : Nat) : Statement (.ping addr) := by
  show (0x08 : Byte) &&& 0xFF = 0x08; decide
theorem scan : Statement .scan := by unfold Statement; decide
theorem getSlaveAddress (name : DevName) : Statement (.getSlaveAddress name) := by
  show (0x0A : Byte) &&& 0xFF = 0x0A; decide
theorem getSlave (name : DevName) : Statement (.getSlave name) := by
  show (0x0B : Byte) &&& 0xFF = 0x0B; decide
theorem slaveWriteBlock (handle : SlaveHandle) (bytes : List Byte) (sendStop : Bool) :
    Statement (.slaveWriteBlock handle bytes sendStop) := by
  show (0x0C : Byte) &&& 0xFF = 0x0C; decide
theorem slaveReadBlock (handle : SlaveHandle) (count : Nat) : Statement (.slaveReadBlock handle count) := by
  show (0x0D : Byte) &&& 0xFF = 0x0D; decide
theorem cmdZero : Statement .cmdZero := by unfold Statement; decide
theorem cmdWrite (sta sto ack : Bool) : Statement (.cmdWrite sta sto ack) := by
  cases sta <;> cases sto <;> cases ack <;> (unfold Statement; decide)
theorem cmdRead (sta sto ack : Bool) : Statement (.cmdRead sta sto ack) := by
  cases sta <;> cases sto <;> cases ack <;> (unfold Statement; decide)

end Sys2Proof.Laws.RequestCode
end

