-- ==== Sys2Proof/Machine/Render.lean ====
section
/-! DEFINITION. Machine/Render.lean: the spec's own syntax for requests and traces (30_encoding.md R74, R75). Nothing in the
machine reads it: it writes what the machine holds in the words of the spec's programs. -/

namespace Sys2Proof.Machine

/-- A number in `0x` hexadecimal, two digits at least. -/
def hexOf (n : Nat) : String :=
  let ds := (Nat.toDigits 16 n).map Char.toUpper
  "0x" ++ String.ofList (if ds.length < 2 then '0' :: ds else ds)

/-- The logical register names of 10_state.md R28. -/
def regName : Reg → String
  | .psHi => "PS_HI"
  | .psLo => "PS_LO"
  | .ctrl => "CTRL"
  | .data => "DATA"
  | .cmd => "CMD"
  | .status => "STATUS"
  | .rxdata => "RXDATA"

/-- A handle `h<n>`. -/
def handleName (h : Nat) : String := "h" ++ toString h

/-- Items between an opening and a closing character, separated by commas. -/
def listed (opening closing : Char) (items : List String) : String :=
  String.ofList [opening] ++ ", ".intercalate items ++ String.ofList [closing]

/-- One event of a trace (R75); the braces of a commit's values are the characters 123 and 125. -/
def renderEvent : Event → String
  | .w r v => "W " ++ regName r ++ " " ++ hexOf v
  | .r r h => "R " ++ regName r ++ " -> " ++ handleName h
  | .c [] => "C"
  | .c vals =>
    "C " ++ listed (Char.ofNat 123) (Char.ofNat 125) (vals.map fun e => handleName e.1 ++ "=" ++ hexOf e.2)
  | .s => "S"

/-- An error kind by its name in 60_exceptions.md R125. -/
def errorName : ErrorKind → String
  | .arbitrationLost => "ArbitrationLost"
  | .transactionTimeout => "TransactionTimeout"
  | .noAcknowledgeReceived => "NoAcknowledgeReceived"
  | .transferFinishedBusStillBusy => "TransferFinishedBusStillBusy"
  | .deviceNotFound => "DeviceNotFound"

/-- A model fault by its name in 60_exceptions.md R137. -/
def faultName : Fault → String
  | .precondWriteHasRd => "F_PRECOND_WRITE_HAS_RD"
  | .precondReadHasWr => "F_PRECOND_READ_HAS_WR"
  | .addrRange => "F_ADDR_RANGE"
  | .emptyBlock => "F_EMPTY_BLOCK"
  | .badRequest => "F_BAD_REQUEST"
  | .badAddressString => "F_BAD_ADDRESS_STRING"
  | .deferredRead => "F_DEFERRED_READ"
  | .concurrentRequest => "F_CONCURRENT_REQUEST"
  | .badParameter => "F_BAD_PARAMETER"

/-- A result value (R75). DESIGN CHOICE (log entry 37): a handle is written as its address, where R75 does not say how. -/
def renderVal : Val → String
  | .unit => "unit"
  | .byte b => hexOf b.toNat
  | .bytes bs => listed '[' ']' (bs.map fun b => hexOf b.toNat)
  | .bool b => if b then "true" else "false"
  | .addrs as => listed '[' ']' (as.map fun a => hexOf a.toNat)
  | .addr a => hexOf a.toNat
  | .handle h => hexOf h.addr.toNat

/-- The outcome of an operation (R75). -/
def renderReply : Reply → String
  | .ok v => "=> Ok(" ++ renderVal v ++ ")"
  | .err e => "=> Err(" ++ errorName e.kind ++ ")"

/-- The outcome of an operation that faulted (R75). -/
def renderFault (f : Fault) : String := "=> Fault(" ++ faultName f ++ ")"

/-- Flags: 0, or the names joined by `|` (R74). -/
def renderFlags (f : Flags) : String :=
  let names := (if f.sta then ["sta"] else []) ++ (if f.sto then ["sto"] else []) ++ (if f.rd then ["rd"] else []) ++
    (if f.wr then ["wr"] else []) ++ (if f.ack then ["ack"] else [])
  if names.isEmpty then "0" else "|".intercalate names

/-- A Boolean argument: 0 or 1 (R74). -/
def renderBit (b : Bool) : String := if b then "1" else "0"

/-- A list of bytes and the `stop` argument (R74). -/
def renderBytes (bs : List Byte) (sendStop : Bool) : String :=
  listed '[' ']' (bs.map fun b => hexOf b.toNat) ++ ", stop=" ++ renderBit sendStop

/-- A request as a line of a program (R74), with the variable a program has bound to a handle; a bare command byte has no
syntax there. -/
def renderRequest (handleVar : SlaveHandle → String) : Instr → Option String
  | .configure ratio => some ("configure " ++ toString ratio)
  | .reset => some "reset"
  | .sendWrite cmd data => some ("send_write " ++ renderFlags cmd ++ ", " ++ hexOf data.toNat)
  | .sendRead cmd => some ("send_read " ++ renderFlags cmd)
  | .wait reqAck reqIdle => some ("wait " ++ renderBit reqAck ++ ", " ++ renderBit reqIdle)
  | .writeBlock addr bytes sendStop => some ("write_block " ++ hexOf addr ++ ", " ++ renderBytes bytes sendStop)
  | .readBlock addr count => some ("read_block " ++ hexOf addr ++ ", " ++ toString count)
  | .ping addr => some ("ping " ++ hexOf addr)
  | .scan => some "scan"
  | .getSlaveAddress n => some ("get_slave_address \"" ++ n ++ "\"")
  | .getSlave n => some ("get_slave \"" ++ n ++ "\"")
  | .slaveWriteBlock h bytes sendStop => some ("slave_write " ++ handleVar h ++ ", " ++ renderBytes bytes sendStop)
  | .slaveReadBlock h count => some ("slave_read " ++ handleVar h ++ ", " ++ toString count)
  | .cmdZero => none
  | .cmdWrite _ _ _ => none
  | .cmdRead _ _ _ => none

end Sys2Proof.Machine
end

