-- ==== Sys2Proof/Tests/Slice0.lean ====
section
/-! SUPPORT. Tests/Slice0.lean: tests of the model against the spec's encodings and its vectors (95_test_vectors.md, named by
their ids there), and a witness for the hypotheses of every obligation that has some. -/

namespace Sys2Proof.Machine

/-! ## A small machine -/

/-- The default masks with a retry budget of 3 and a scan of three addresses. -/
def testParams : Params := { Config.defaults with masterId := 7, pollInterval := 0, maxRetry := 3, scanLast := 2 }

/-- An engine with prescale 0x0063 and the registry of 95_test_vectors.md P6, on a device that gives these answers. -/
def machine (answers : List Nat) : State :=
  { State.constructed testParams 0x0063 [("pll", 0x68), ("sfp", 0x48)] with attempt := 1, status := 0, answers := answers }

theorem machine_atRest (answers : List Nat) : (machine answers).AtRest := ⟨⟨show paramsValid testParams = true by decide, rfl⟩, rfl⟩

theorem machine_words (answers : List Nat) : WordsFit (machine answers) :=
  ⟨show isWord testParams 0 by decide, fun _ _ h => (List.not_mem_nil h).elim, fun _ h => (List.not_mem_nil h).elim,
    fun _ h => (List.not_mem_nil h).elim⟩

theorem machine_inv (answers : List Nat) : (machine answers).Inv :=
  ⟨rfl, ⟨show (["pll", "sfp"] : List String).Nodup by decide, rfl⟩, rfl,
    ⟨Nat.le_refl 1, show 1 ≤ testParams.maxRetry + 1 by decide, trivial⟩, machine_words answers⟩

/-- An outcome is a next state with a property. -/
def nextThat (o : Host.Outcome State Fault Refusal) (p : State → Bool) : Bool :=
  match o with
  | .next t => p t
  | .fault _ | .refused _ => false

theorem exists_of_nextThat {o : Host.Outcome State Fault Refusal} {p : State → Bool} (h : nextThat o p = true) :
    ∃ t, o = .next t ∧ p t = true := by
  cases o with
  | next t => exact ⟨t, rfl, h⟩
  | fault r => cases h
  | refused r => cases h

/-- An outcome is this fault. -/
def faultsWith (o : Host.Outcome State Fault Refusal) (f : Fault) : Bool :=
  match o with
  | .fault r => decide (r = f)
  | .next _ | .refused _ => false

/-- A next state with this trace and this outcome. -/
def gives (o : Host.Outcome State Fault Refusal) (trace : List Event) (reply : Reply) : Bool :=
  nextThat o fun t => decide (t.trace = trace ∧ t.response = some reply)

/-- An error of the small machine. -/
def errOf (kind : ErrorKind) : Reply := .err { kind := kind, master := 7, name := none }

/-! ## WellFormed refuses each illegal form (30_encoding.md R72) -/

theorem test_wf_refuses_sendWrite_with_read : ¬WellFormed (.sendWrite { sta := true, rd := true } 0) := by decide
theorem test_wf_refuses_sendRead_with_write : ¬WellFormed (.sendRead { wr := true }) := by decide
theorem test_wf_refuses_writeBlock_address : ¬WellFormed (.writeBlock 0x80 [1] true) := by decide
theorem test_wf_refuses_writeBlock_empty : ¬WellFormed (.writeBlock 0x50 [] true) := by decide
theorem test_wf_refuses_readBlock_address : ¬WellFormed (.readBlock 0x80 1) := by decide
theorem test_wf_refuses_readBlock_zero : ¬WellFormed (.readBlock 0x50 0) := by decide
theorem test_wf_refuses_ping_address : ¬WellFormed (.ping 0x80) := by decide
theorem test_wf_refuses_slaveWrite_empty : ¬WellFormed (.slaveWriteBlock ⟨7, 0x68⟩ [] true) := by decide
theorem test_wf_refuses_slaveRead_zero : ¬WellFormed (.slaveReadBlock ⟨7, 0x68⟩ 0) := by decide
theorem test_wf_takes_the_last_address : WellFormed (.writeBlock 0x7F [0] false) := by decide

/-! ## Decoding: the codes of R61 and the bytes of R65, written out -/

theorem test_decode_configure : decodeRequest 0b00000001 [.ratio 5] = .ok (.configure 5) := by decide
theorem test_decode_reset : decodeRequest 0b00000010 [] = .ok .reset := by decide
theorem test_decode_sendWrite :
    decodeRequest 0b00000011 [.flags { sta := true }, .byte 0xA0] = .ok (.sendWrite { sta := true } 0xA0) := by decide
theorem test_decode_sendRead :
    decodeRequest 0b00000100 [.flags { sto := true, ack := true }] = .ok (.sendRead { sto := true, ack := true }) := by
  decide
theorem test_decode_wait : decodeRequest 0b00000101 [.bool true, .bool false] = .ok (.wait true false) := by decide
theorem test_decode_writeBlock_defaults_to_stop :
    decodeRequest 0b00000110 [.addr 0x50, .bytes [1, 2]] = .ok (.writeBlock 0x50 [1, 2] true) := by decide
theorem test_decode_writeBlock_open :
    decodeRequest 0b00000110 [.addr 0x50, .bytes [1], .bool false] = .ok (.writeBlock 0x50 [1] false) := by decide
theorem test_decode_readBlock : decodeRequest 0b00000111 [.addr 0x50, .count 2] = .ok (.readBlock 0x50 2) := by decide
theorem test_decode_ping : decodeRequest 0b00001000 [.addr 0x10] = .ok (.ping 0x10) := by decide
theorem test_decode_scan : decodeRequest 0b00001001 [] = .ok .scan := by decide
theorem test_decode_getSlaveAddress : decodeRequest 0b00001010 [.name "sfp"] = .ok (.getSlaveAddress "sfp") := by decide
theorem test_decode_getSlave : decodeRequest 0b00001011 [.name "pll"] = .ok (.getSlave "pll") := by decide
theorem test_decode_slaveWriteBlock :
    decodeRequest 0b00001100 [.handle ⟨7, 0x68⟩, .bytes [0xAB]] = .ok (.slaveWriteBlock ⟨7, 0x68⟩ [0xAB] true) := by decide
theorem test_decode_slaveReadBlock :
    decodeRequest 0b00001101 [.handle ⟨7, 0x68⟩, .count 1] = .ok (.slaveReadBlock ⟨7, 0x68⟩ 1) := by decide
theorem test_decode_cmdZero : decodeCommand testParams 0b00000000 = .ok .cmdZero := by decide
theorem test_decode_cmdWrite_start : decodeCommand testParams 0b10010000 = .ok (.cmdWrite true false false) := by decide
theorem test_decode_cmdWrite_stop_ack : decodeCommand testParams 0b01011000 = .ok (.cmdWrite false true true) := by decide
theorem test_decode_cmdRead_stop_ack : decodeCommand testParams 0b01101000 = .ok (.cmdRead false true true) := by decide
theorem test_decode_refuses_read_and_write :
    decodeCommand testParams 0b00110000 = .error (.notACommandByte 0b00110000) := by decide
theorem test_decode_refuses_reserved_bit :
    decodeCommand testParams 0b00010001 = .error (.notACommandByte 0b00010001) := by decide
theorem test_decode_refuses_code_0E : decodeRequest 0b00001110 [] = .error (.badCode 0x0E) := by decide

/-- E6, E8: the command bytes of `sta|sto|ack` written and of `sto|ack` read. -/
theorem test_command_bytes_E6_E8 : writeCommand testParams { sta := true, sto := true, ack := true } = 0xD8 ∧
    readCommand testParams { sto := true, ack := true } = 0x68 := by decide

/-- E1, E3: address bytes. -/
theorem test_address_bytes_E1_E3 : addrByte 0x50 false = 0xA0 ∧ addrByte 0x7F true = 0xFF := by decide

/-- E11, E12: the prescale split, and assembled with the bits above bit 7 dropped. -/
theorem test_prescale_E11_E12 :
    prescaleHigh 0x1234 = 0x12 ∧ prescaleLow 0x1234 = 0x34 ∧ latchedPrescale 0x1AB 0x2CD = 0xABCD := by decide

/-- E17: a status word with none of the four bits. -/
theorem test_status_E17 : arbLost testParams 0x1D = false ∧ inProgress testParams 0x1D = false ∧
    receivedAck testParams 0x1D = true ∧ busBusy testParams 0x1D = false := by decide

/-- R75: the events of the first lines of P1. -/
theorem test_rendered_events : renderEvent (.w .cmd 0x90) = "W CMD 0x90" ∧ renderEvent (.r .psHi 1) = "R PS_HI -> h1" ∧
    renderEvent .s = "S" := by decide

/-! ## One operation each -/

/-- CF1, as far as it does not depend on `PRESCALE_OF`: an empty trace. -/
theorem test_configure_makes_no_event : gives (exec (.configure 3) (machine [])) [] (.ok .unit) = true := by decide

/-- RS1: FULL. -/
theorem test_reset_RS1 : gives (exec .reset (machine [0xFF, 0xFF, 0x00]))
    [.r .psHi 1, .r .psLo 2, .r .ctrl 3, .c [(1, 0xFF), (2, 0xFF), (3, 0x00)], .w .ctrl 0x00, .c [], .w .psHi 0x00,
      .w .psLo 0x63, .c [], .w .data 0x00, .w .cmd 0x00, .c [], .w .ctrl 0x80, .c []] (.ok .unit) = true := by decide

/-- RS3: LIGHT, the bits above bit 7 discarded before the compare. -/
theorem test_reset_RS3 : gives (exec .reset (machine [0x100, 0x163, 0x80]))
    [.r .psHi 1, .r .psLo 2, .r .ctrl 3, .c [(1, 0x100), (2, 0x163), (3, 0x80)], .w .data 0x00, .w .cmd 0x00, .c []]
    (.ok .unit) = true := by decide

/-- W7: no ACK and busy, ACK checked first. -/
theorem test_wait_W7 : gives (exec (.wait true true) (machine [0xC0]))
    [.s, .r .status 1, .c [(1, 0xC0)]] (errOf .noAcknowledgeReceived) = true := by decide

/-- W14: the post-conditions read the last status. -/
theorem test_wait_W14 : gives (exec (.wait true true) (machine [0x82, 0xC2, 0x40]))
    [.s, .r .status 1, .c [(1, 0x82)], .s, .r .status 2, .c [(2, 0xC2)], .s, .r .status 3, .c [(3, 0x40)]]
    (errOf .transferFinishedBusStillBusy) = true := by decide

/-- SW2: busy is not checked without stop. -/
theorem test_sendWrite_SW2 : gives (exec (.sendWrite {} 0x12) (machine [0x40]))
    [.w .data 0x12, .w .cmd 0x10, .c [], .s, .r .status 1, .c [(1, 0x40)]] (.ok .unit) = true := by decide

/-- SW1: the read flag is refused. -/
theorem test_sendWrite_SW1 :
    faultsWith (exec (.sendWrite { sta := true, rd := true } 0) (machine [])) .precondWriteHasRd = true := by decide

/-- SR5: only the low byte is returned; and a Register Interface of 8 bits carries no other (R6, U21). -/
theorem test_sendRead_SR5 : gives (exec (.sendRead { rd := true }) (machine [0x00, 0xFFFFFF80]))
    [.w .cmd 0x20, .c [], .s, .r .status 1, .c [(1, 0x00)], .r .rxdata 2, .c [(2, 0xFFFFFF80)]]
    (.ok (.byte 0x80)) = true ∧
    gives (exec (.sendRead {}) { machine [0x100, 0x1FE] with params := { testParams with regWidth := 8 } })
      [.w .cmd 0x20, .c [], .s, .r .status 1, .c [(1, 0x00)], .r .rxdata 2, .c [(2, 0xFE)]] (.ok (.byte 0xFE)) = true := by
  decide

/-- SR3: a busy bus after stop; the received byte is not read. -/
theorem test_sendRead_SR3 : gives (exec (.sendRead { sto := true }) (machine [0x40]))
    [.w .cmd 0x60, .c [], .s, .r .status 1, .c [(1, 0x40)]] (errOf .transferFinishedBusStillBusy) = true := by decide

/-- B7: the second data byte is refused and the third never sent. -/
theorem test_writeBlock_B7 :
    nextThat (exec (.writeBlock 0x50 [1, 2, 3] true) (machine [0x00, 0x63, 0x80, 0x40, 0x40, 0xC0])) (fun t =>
      decide (writesTo .data t.trace = [0, 0xA0, 1, 2] ∧ writesTo .cmd t.trace = [0, 0x90, 0x10, 0x10] ∧
        t.trace.length = 25 ∧ t.response = some (errOf .noAcknowledgeReceived))) = true := by decide

/-- B4: one byte with stop. -/
theorem test_writeBlock_B4 :
    nextThat (exec (.writeBlock 0x50 [7] true) (machine [0x00, 0x63, 0x80, 0x40, 0x00])) (fun t =>
      decide (writesTo .data t.trace = [0, 0xA0, 7] ∧ writesTo .cmd t.trace = [0, 0x90, 0x50] ∧ t.trace.length = 19 ∧
        t.response = some (.ok .unit))) = true := by decide

/-- B14: three bytes, stop and ack on the last. -/
theorem test_readBlock_B14 :
    nextThat (exec (.readBlock 0x50 3) (machine [0x00, 0x63, 0x80, 0x40, 0x40, 1, 0x40, 2, 0x00, 3])) (fun t =>
      decide (writesTo .data t.trace = [0, 0xA1] ∧ writesTo .cmd t.trace = [0, 0x90, 0x20, 0x20, 0x68] ∧
        t.trace.length = 34 ∧ t.response = some (.ok (.bytes [1, 2, 3])))) = true := by decide

/-- B12: a count of 0. -/
theorem test_readBlock_B12 : faultsWith (exec (.readBlock 0x50 0) (machine [])) .emptyBlock = true := by decide

/-- P-1: a slave that answers. -/
theorem test_ping_P1 : gives (exec (.ping 0x10) (machine [0x40, 0x00, 0x5A]))
    [.w .data 0x21, .w .cmd 0x90, .c [], .s, .r .status 1, .c [(1, 0x40)], .w .cmd 0x68, .c [], .s, .r .status 2,
      .c [(2, 0x00)], .r .rxdata 3, .c [(3, 0x5A)]] (.ok (.bool true)) = true := by decide

/-- P-3: arbitration lost is caught. -/
theorem test_ping_P3 : gives (exec (.ping 0x10) (machine [0x20]))
    [.w .data 0x21, .w .cmd 0x90, .c [], .s, .r .status 1, .c [(1, 0x20)]] (.ok (.bool false)) = true := by decide

/-- P3 of part 3, shortened to three addresses: the two absent ones end at their address byte. -/
theorem test_scan_finds_the_one_present :
    nextThat (exec .scan (machine [0xC0, 0x40, 0x00, 0xFF, 0xC0])) (fun t =>
      decide (writesTo .data t.trace = [0x01, 0x03, 0x05] ∧ t.trace.length = 25 ∧
        t.response = some (.ok (.addrs [1])))) = true := by decide

/-- P6 request 2. -/
theorem test_getSlaveAddress_P6 : gives (exec (.getSlaveAddress "sfp") (machine [])) [] (.ok (.addr 0x48)) = true := by
  decide

/-- LK1: an absent name. -/
theorem test_getSlaveAddress_LK1 : gives (exec (.getSlaveAddress "tdc") (machine [])) []
    (.err { kind := .deviceNotFound, master := 7, name := some "tdc" }) = true := by decide

/-- P6 request 1. -/
theorem test_getSlave_P6 : gives (exec (.getSlave "pll") (machine [])) [] (.ok (.handle ⟨7, 0x68⟩)) = true := by decide

/-- LK5. -/
theorem test_slaveWriteBlock_LK5 :
    nextThat (exec (.slaveWriteBlock ⟨7, 0x68⟩ [1] true) (machine [0x00, 0x63, 0x80, 0x40, 0x00])) (fun t =>
      decide (writesTo .data t.trace = [0, 0xD0, 1] ∧ writesTo .cmd t.trace = [0, 0x90, 0x50] ∧
        t.trace.length = 19)) = true := by decide

/-- LK6. -/
theorem test_slaveReadBlock_LK6 :
    nextThat (exec (.slaveReadBlock ⟨7, 0x68⟩ 1) (machine [0x00, 0x63, 0x80, 0x40, 0x00, 0x77])) (fun t =>
      decide (writesTo .data t.trace = [0, 0xD1] ∧ writesTo .cmd t.trace = [0, 0x90, 0x68] ∧ t.trace.length = 20 ∧
        t.response = some (.ok (.bytes [0x77])))) = true := by decide

/-- R65: the three forms of a command byte. -/
theorem test_commands_reach_CMD :
    nextThat (exec .cmdZero (machine [])) (fun t => decide (t.trace = [.w .cmd 0x00, .c []])) = true ∧
    nextThat (exec (.cmdWrite true true false) (machine [])) (fun t => decide (t.regByte .cmd = some 0xD0)) = true ∧
    nextThat (exec (.cmdRead false false true) (machine [])) (fun t => decide (t.regByte .cmd = some 0x28)) = true := by
  decide

/-! ## The request port -/

/-- The machine with presentations at its port. -/
def presented (answers : List Nat) (port : List Presentation) : State := { machine answers with port := port }

/-- E15: the code 0x0E. -/
theorem test_step_E15 : faultsWith (step (presented [] [⟨.request 0x0E [], true⟩])) .badRequest = true := by decide

/-- F1: a `ping` presented while a `write_block` is in progress, whole and line by line. -/
theorem test_step_F1 :
    faultsWith (step (presented [0, 0x63] [⟨.request 0x06 [.addr 0x50, .bytes [1]], true⟩,
      ⟨.request 0x08 [.addr 0x10], false⟩])) .concurrentRequest = true ∧
    faultsWith (Sys2Proof.core.run 3 { presented [] [⟨.request 0x06 [.addr 0x50, .bytes [1]], true⟩,
      ⟨.request 0x08 [.addr 0x10], false⟩] with pace := .line }) .concurrentRequest = true := by decide

/-- The lines of SW2, one a step: acceptance, six lines of `SEND_WRITE` and those of its `WAIT`. -/
theorem test_lines_of_SW2 :
    nextThat (Sys2Proof.core.run 30 { presented [0x40] [⟨.request 0x03 [.flags {}, .byte 0x12], true⟩] with pace := .line })
      (fun t => decide (t.trace = [.w .data 0x12, .w .cmd 0x10, .c [], .s, .r .status 1, .c [(1, 0x40)]] ∧
        t.response = some (.ok .unit) ∧ t.seq = .idle)) = true := by decide

/-! ## Construction -/

/-- A2, A11: truncation, and the last occurrence. -/
theorem test_construct_A2_A11 :
    nextThat (construct testParams 0 [("x", "200")]) (fun s => decide (lookup "x" s.registry = some 0x48)) = true ∧
    nextThat (construct testParams 0 [("x", "16"), ("x", "66")]) (fun s =>
      decide (lookup "x" s.registry = some 0x42)) = true := by decide

/-- A7, A8, A9, A10: strings that are refused. -/
theorem test_construct_refuses_A7_to_A10 :
    faultsWith (construct testParams 0 [("x", "4294967296")]) .badAddressString = true ∧
    faultsWith (construct testParams 0 [("x", "0x48")]) .badAddressString = true ∧
    faultsWith (construct testParams 0 [("x", "")]) .badAddressString = true ∧
    faultsWith (construct testParams 0 [("x", "-1")]) .badAddressString = true := by decide

/-- A6: the largest value taken. -/
theorem test_construct_A6 : nextThat (construct testParams 0 [("x", "4294967295")]) (fun s =>
    decide (lookup "x" s.registry = some 0x7F)) = true := by decide

/-! ## Witnesses: states and operands that meet the hypotheses of each obligation -/

theorem witness_DecodeOfEncodeIsTheInstruction : paramsValid testParams = true := by decide

theorem witness_EncodeOfDecodeIsThePresentation :
    (∃ i, decode testParams (.command 0xE8) = .ok i) ∧
      (∃ i, decode testParams (.request 0x06 [.addr 0x7F, .bytes [0]]) = .ok i) ∧
      ∃ i, decode testParams (.request 0x0D [.handle ⟨7, 0⟩, .count 1]) = .ok i :=
  ⟨⟨.cmdRead true true true, by decide⟩, ⟨.writeBlock 0x7F [0] true, by decide⟩, ⟨.slaveReadBlock ⟨7, 0⟩ 1, by decide⟩⟩

theorem witness_SendsForceTheirDirectionFlag :
    (machine []).AtRest ∧ ({ wr := true } : Flags).rd = false ∧ ({ rd := true } : Flags).wr = false :=
  ⟨machine_atRest _, rfl, rfl⟩

/-- The four clauses about arguments at the boundary of their ranges, and the two boundary codes. -/
theorem witness_IllegalFormsFault :
    (machine []).Ready ∧ ({ rd := true } : Flags).rd = true ∧ ({ wr := true } : Flags).wr = true ∧ 0x7F < 0x80 ∧
      0x7F ≤ 0x7F ∧ (presented [] [⟨.request 0x00 [], true⟩]).Ready ∧ ((0x00 : Byte) = 0 ∨ 0x0E ≤ (0x00 : Byte).toNat) ∧
      ((0x0E : Byte) = 0 ∨ 0x0E ≤ (0x0E : Byte).toNat) ∧ ((0xFF : Byte) = 0 ∨ 0x0E ≤ (0xFF : Byte).toNat) :=
  ⟨(machine_atRest _).toReady, rfl, rfl, by decide, by decide, ⟨(machine_atRest []).params, rfl⟩, by decide, by decide,
    by decide⟩

theorem witness_ConfigureStoresThePrescale : (machine []).Ready := (machine_atRest _).toReady

theorem witness_ResetTakesThePathItsPrescaleChooses : (machine []).AtRest := machine_atRest _

/-- Answers that choose each path. -/
theorem witness_ResetPathsWriteTheirRegisters :
    (machine [0xFF, 0xFF, 0x00]).AtRest ∧ (machine [0xFF, 0xFF, 0x00]).answers = 0xFF :: 0xFF :: 0x00 :: [] ∧
      latchedPrescale 0xFF 0xFF ≠ (machine [0xFF, 0xFF, 0x00]).prescale ∧ (machine [0x00, 0x63, 0x80]).AtRest ∧
      (machine [0x00, 0x63, 0x80]).answers = 0x00 :: 0x63 :: 0x80 :: [] ∧
      latchedPrescale 0x00 0x63 = (machine [0x00, 0x63, 0x80]).prescale :=
  ⟨machine_atRest _, rfl, by decide, machine_atRest _, rfl, by decide⟩

theorem witness_ResetWritesReachTheDeviceInOrder :
    (machine [0xFF, 0xFF, 0x00]).AtRest ∧ (machine [0xFF, 0xFF, 0x00]).answers = 0xFF :: 0xFF :: 0x00 :: [] :=
  ⟨machine_atRest _, rfl⟩

/-- RS7's two resets, at prescale 0x0063. -/
theorem witness_SecondResetTakesTheLightPath :
    ∃ s t hi lo ctrl rest, s.AtRest ∧ exec .reset s = .next t ∧ t.regByte .psHi = some (prescaleHigh s.prescale) ∧
      t.regByte .psLo = some (prescaleLow s.prescale) ∧ t.answers = hi :: lo :: ctrl :: rest ∧
      t.regByte .psHi = some (lowByte hi) ∧ t.regByte .psLo = some (lowByte lo) := by
  obtain ⟨t, h, hp⟩ := exists_of_nextThat (o := exec .reset (machine [0xFF, 0xFF, 0x00, 0x00, 0x63, 0x80]))
    (p := fun t => decide (t.regByte .psHi = some 0x00 ∧ t.regByte .psLo = some 0x63 ∧ t.answers = [0x00, 0x63, 0x80]))
    (by decide)
  obtain ⟨h1, h2, h3⟩ := of_decide_eq_true hp
  exact ⟨_, t, 0x00, 0x63, 0x80, [], machine_atRest _, h, h1.trans (by decide), h2.trans (by decide), h3,
    h1.trans (by decide), h2.trans (by decide)⟩

theorem witness_WaitEndsAsItsStatusWordsSay : (machine []).AtRest := machine_atRest _

theorem witness_WaitHasThreeEventsAPoll : (machine []).AtRest := machine_atRest _

/-- W9 with a budget of 3: lost at the last attempt. -/
theorem witness_WaitReportsArbitrationLostExactlyOnItsBit :
    ∃ s t before w after, s.AtRest ∧ exec (.wait true true) s = .next t ∧
      statusWords t.trace = before ++ w :: after ∧ arbLost s.params w = true := by
  obtain ⟨t, h, hp⟩ := exists_of_nextThat (o := exec (.wait true true) (machine [0x02, 0x02, 0x20]))
    (p := fun t => decide (statusWords t.trace = [0x02, 0x02, 0x20])) (by decide)
  exact ⟨_, t, [0x02, 0x02], 0x20, [], machine_atRest _, h, of_decide_eq_true hp, by decide⟩

/-- W2 with a budget of 3. -/
theorem witness_WaitTimesOutExactlyWhenTheBudgetIsSpent :
    ∃ s t, s.AtRest ∧ exec (.wait false false) s = .next t ∧
      t.response = some (.err (busErr s.params .transactionTimeout)) := by
  obtain ⟨t, h, hp⟩ := exists_of_nextThat (o := exec (.wait false false) (machine [0x02, 0x02, 0x02]))
    (p := fun t => decide (t.response = some (errOf .transactionTimeout))) (by decide)
  exact ⟨_, t, machine_atRest _, h, of_decide_eq_true hp⟩

/-- W5 and W6: each post-condition. -/
theorem witness_WaitChecksPostConditionsOnItsLastStatus :
    (∃ s t before last, s.AtRest ∧ exec (.wait true false) s = .next t ∧ statusWords t.trace = before ++ [last] ∧
      t.response = some (.err (busErr s.params .noAcknowledgeReceived))) ∧
    (∃ s t before last, s.AtRest ∧ exec (.wait false true) s = .next t ∧ statusWords t.trace = before ++ [last] ∧
      t.response = some (.err (busErr s.params .transferFinishedBusStillBusy))) := by
  obtain ⟨t, h, hp⟩ := exists_of_nextThat (o := exec (.wait true false) (machine [0x80]))
    (p := fun t => decide (statusWords t.trace = [] ++ [0x80] ∧ t.response = some (errOf .noAcknowledgeReceived)))
    (by decide)
  obtain ⟨u, k, hq⟩ := exists_of_nextThat (o := exec (.wait false true) (machine [0x40]))
    (p := fun t => decide (statusWords t.trace = [] ++ [0x40] ∧ t.response = some (errOf .transferFinishedBusStillBusy)))
    (by decide)
  obtain ⟨h1, h2⟩ := of_decide_eq_true hp
  obtain ⟨k1, k2⟩ := of_decide_eq_true hq
  exact ⟨⟨_, t, [], 0x80, machine_atRest _, h, h1, h2⟩, ⟨_, u, [], 0x40, machine_atRest _, k, k1, k2⟩⟩

/-- W3 with a budget of 3: it clears at the last attempt. -/
theorem witness_WaitStopsAtTheFirstDecidingAnswer :
    (machine [0x02, 0x02, 0x00]).AtRest ∧ (machine [0x02, 0x02, 0x00]).answers = [0x02, 0x02] ++ 0x00 :: [] ∧
      [0x02, 0x02].length < testParams.maxRetry ∧ (∀ v ∈ ([0x02, 0x02] : List Word), pollsOn testParams v = true) ∧
      pollsOn testParams 0x00 = false :=
  ⟨machine_atRest _, rfl, by decide, List.forall_mem_cons.2 ⟨by decide, List.forall_mem_singleton.2 (by decide)⟩,
    by decide⟩

/-- W12: status words that differ above bit 7 and in bits 0, 2, 3 and 4. -/
theorem witness_WaitDoesNotSeeBitsOutsideTheMasks :
    (machine []).AtRest ∧ testParams.maxRetry ≤ ([0x02, 0x02, 0x00] : List Word).length ∧
      List.Forall₂ (fun v w =>
        lowByte v &&& (testParams.stRxack ||| testParams.stBusy ||| testParams.stAl ||| testParams.stTip) =
          lowByte w &&& (testParams.stRxack ||| testParams.stBusy ||| testParams.stAl ||| testParams.stTip))
        [0x02, 0x02, 0x00] [0x1F, 0x102, 0x101D] :=
  ⟨machine_atRest _, by decide, .cons (by decide) (.cons (by decide) (.cons (by decide) .nil))⟩

theorem witness_SendWriteWritesThenWaits : (machine []).AtRest ∧ ({ sto := true, wr := true } : Flags).rd = false :=
  ⟨machine_atRest _, rfl⟩

theorem witness_SendReadWaitsThenReadsTheByte : (machine []).AtRest ∧ ({ sto := true, rd := true } : Flags).wr = false :=
  ⟨machine_atRest _, rfl⟩

/-- SR3 and SW3. -/
theorem witness_ErrorsOfTheBytePrimitives :
    (∃ s t, s.AtRest ∧ exec (.sendRead { sto := true }) s = .next t ∧
      t.response = some (.err (busErr s.params .transferFinishedBusStillBusy))) ∧
    (∃ s t, s.AtRest ∧ exec (.sendWrite { sto := true } 0x12) s = .next t ∧
      t.response = some (.err (busErr s.params .transferFinishedBusStillBusy))) := by
  obtain ⟨t, h, hp⟩ := exists_of_nextThat (o := exec (.sendRead { sto := true }) (machine [0x40]))
    (p := fun t => decide (t.response = some (errOf .transferFinishedBusStillBusy))) (by decide)
  obtain ⟨u, k, hq⟩ := exists_of_nextThat (o := exec (.sendWrite { sto := true } 0x12) (machine [0x40]))
    (p := fun t => decide (t.response = some (errOf .transferFinishedBusStillBusy))) (by decide)
  exact ⟨⟨_, t, machine_atRest _, h, of_decide_eq_true hp⟩, ⟨_, u, machine_atRest _, k, of_decide_eq_true hq⟩⟩

theorem witness_WriteBlockSendsItsBytesInOrder : (machine []).AtRest ∧ 0x7F ≤ 0x7F ∧ ([0xAA] : List Byte) ≠ [] :=
  ⟨machine_atRest _, by decide, by decide⟩

/-- A block written whole, and one that an error cuts short. -/
theorem witness_WriteBlockWritesABeginningOfItsBlock :
    (∃ s t, s.AtRest ∧ exec (.writeBlock 0x7F [7] true) s = .next t ∧ t.response = some (.ok .unit)) ∧
    (∃ s t, s.AtRest ∧ exec (.writeBlock 0x00 [1, 2] true) s = .next t ∧
      t.response = some (.err (busErr s.params .noAcknowledgeReceived))) := by
  obtain ⟨t, h, hp⟩ := exists_of_nextThat
    (o := exec (.writeBlock 0x7F [7] true) (machine [0x00, 0x63, 0x80, 0x40, 0x00]))
    (p := fun t => decide (t.response = some (.ok .unit))) (by decide)
  obtain ⟨u, k, hq⟩ := exists_of_nextThat
    (o := exec (.writeBlock 0x00 [1, 2] true) (machine [0x00, 0x63, 0x80, 0xC0]))
    (p := fun t => decide (t.response = some (errOf .noAcknowledgeReceived))) (by decide)
  exact ⟨⟨_, t, machine_atRest _, h, of_decide_eq_true hp⟩, ⟨_, u, machine_atRest _, k, of_decide_eq_true hq⟩⟩

theorem witness_ReadBlockReadsItsBytesInOrder : (machine []).AtRest ∧ 0x7F ≤ 0x7F ∧ 1 ≤ 1 :=
  ⟨machine_atRest _, by decide, by decide⟩

/-- B13. -/
theorem witness_ReadBlockReturnsTheBytesReceived :
    ∃ s t, s.AtRest ∧ exec (.readBlock 0x50 1) s = .next t ∧ t.response = some (.ok (.bytes [0x99])) := by
  obtain ⟨t, h, hp⟩ := exists_of_nextThat
    (o := exec (.readBlock 0x50 1) (machine [0x00, 0x63, 0x80, 0x40, 0x00, 0x99]))
    (p := fun t => decide (t.response = some (.ok (.bytes [0x99])))) (by decide)
  exact ⟨_, t, machine_atRest _, h, of_decide_eq_true hp⟩

/-- B11 (FULL), B13 (LIGHT) and P-1. -/
theorem witness_SuccessfulTracesHaveTheirSize :
    (∃ s t, s.AtRest ∧ exec (.writeBlock 0x50 [1] true) s = .next t ∧ t.response = some (.ok .unit)) ∧
    (∃ s t bs, s.AtRest ∧ exec (.readBlock 0x50 1) s = .next t ∧ t.response = some (.ok (.bytes bs))) ∧
    (∃ s t, s.AtRest ∧ exec (.ping 0x10) s = .next t ∧ t.response = some (.ok (.bool true))) := by
  obtain ⟨t, h, hp⟩ := exists_of_nextThat
    (o := exec (.writeBlock 0x50 [1] true) (machine [0xFF, 0xFF, 0x00, 0x40, 0x00]))
    (p := fun t => decide (t.response = some (.ok .unit))) (by decide)
  obtain ⟨u, k, hq⟩ := exists_of_nextThat (o := exec (.ping 0x10) (machine [0x40, 0x00, 0x5A]))
    (p := fun t => decide (t.response = some (.ok (.bool true)))) (by decide)
  obtain ⟨s, r, hs, hr, hb⟩ := witness_ReadBlockReturnsTheBytesReceived
  exact ⟨⟨_, t, machine_atRest _, h, of_decide_eq_true hp⟩, ⟨s, r, _, hs, hr, hb⟩,
    ⟨_, u, machine_atRest _, k, of_decide_eq_true hq⟩⟩

/-- B5 (left open) and the three closed ones. -/
theorem witness_TransactionsEndWithTheirStop :
    (∃ s t, s.AtRest ∧ exec (.writeBlock 0x50 [1] false) s = .next t ∧ t.response = some (.ok .unit)) ∧
    (∃ s t, s.AtRest ∧ exec (.writeBlock 0x50 [1] true) s = .next t ∧ t.response = some (.ok .unit)) ∧
    (∃ s t bs, s.AtRest ∧ exec (.readBlock 0x50 1) s = .next t ∧ t.response = some (.ok (.bytes bs))) ∧
    (∃ s t, s.AtRest ∧ exec (.ping 0x10) s = .next t ∧ t.response = some (.ok (.bool true))) := by
  obtain ⟨t, h, hp⟩ := exists_of_nextThat
    (o := exec (.writeBlock 0x50 [1] false) (machine [0x00, 0x63, 0x80, 0x40, 0x40]))
    (p := fun t => decide (t.response = some (.ok .unit))) (by decide)
  exact ⟨⟨_, t, machine_atRest _, h, of_decide_eq_true hp⟩, witness_SuccessfulTracesHaveTheirSize⟩

theorem witness_PingAnswersAndNeverRaises : (machine []).AtRest ∧ 0x7F ≤ 0x7F := ⟨machine_atRest _, by decide⟩

theorem witness_ScanPingsEveryAddress : (machine []).AtRest := machine_atRest _

theorem witness_GetSlaveAddressLooksTheNameUp : (machine []).Ready := (machine_atRest _).toReady

theorem witness_GetSlaveGivesTheHandleOfTheName : (machine []).Ready ∧ RegistryRight (machine []) :=
  ⟨(machine_atRest _).toReady, (machine_inv _).registry⟩

theorem witness_SlaveOperationsDelegateToTheAddress : (machine []).AtRest ∧ ([0] : List Byte) ≠ [] ∧ 1 ≤ 1 :=
  ⟨machine_atRest _, by decide, by decide⟩

theorem witness_PseudoRequestsExpand : (machine []).Ready ∧ lookup "pll" (machine []).slaves = some ⟨7, 0x68⟩ ∧
    lookup "tdc" (machine []).slaves = none :=
  ⟨(machine_atRest _).toReady, by decide, by decide⟩

/-- A11. -/
theorem witness_LastOccurrenceOfANameWins : paramsValid testParams = true ∧
    ([("x", "16"), ("x", "66")] : List (DevName × String)).map (fun e => (e.1, parseUnsigned e.2)) =
      ([("x", 16), ("x", 66)] : List (DevName × Nat)).map (fun e => (e.1, some e.2)) := by decide

theorem witness_AddressStringsAreDecimalBelowTwoToThe32 : paramsValid testParams = true ∧
    ∃ e ∈ ([("x", "4294967296")] : List (DevName × String)), parseUnsigned e.2 = none :=
  ⟨by decide, ("x", "4294967296"), by simp, by decide⟩

theorem witness_ConstructionLeavesAnIdleEngine : ∃ s, construct testParams 0 [("x", "127")] = .next s := by
  obtain ⟨s, h, -⟩ := exists_of_nextThat (o := construct testParams 0 [("x", "127")]) (p := fun _ => true) (by decide)
  exact ⟨s, h⟩

theorem witness_CommandBytesReachTheCommandRegister : (machine []).AtRest := machine_atRest _

/-- One instruction that stores and polls, and one that does neither. -/
theorem witness_InstructionsLeaveTheRestOfTheEngineAlone :
    (machine [0x40]).queue = [] ∧ (∃ t, exec (.sendWrite {} 0x12) (machine [0x40]) = .next t) ∧
      ∃ t, exec (.configure 1) (machine [0x40]) = .next t := by
  obtain ⟨t, h, -⟩ := exists_of_nextThat (o := exec (.sendWrite {} 0x12) (machine [0x40])) (p := fun _ => true) (by decide)
  obtain ⟨u, k, -⟩ := exists_of_nextThat (o := exec (.configure 1) (machine [0x40])) (p := fun _ => true) (by decide)
  exact ⟨rfl, ⟨t, h⟩, ⟨u, k⟩⟩

/-- An address no register has, and one the instruction does not write. -/
theorem witness_InstructionsWriteOnlyTheirRegisters :
    (machine [0x40]).queue = [] ∧ (∃ t, exec (.sendWrite {} 0x12) (machine [0x40]) = .next t) ∧
      (∀ r ∈ registersWritten (.sendWrite {} 0x12), regNumber r ≠ 7) ∧
      ∀ r ∈ registersWritten (.sendWrite {} 0x12), regNumber r ≠ regNumber .ctrl :=
  ⟨rfl, witness_InstructionsLeaveTheRestOfTheEngineAlone.2.1, by decide, by decide⟩

theorem witness_RegistersHoldTheLastWordWritten :
    (machine [0x40]).queue = [] ∧ ∃ t, exec (.sendWrite {} 0x12) (machine [0x40]) = .next t :=
  ⟨rfl, witness_InstructionsLeaveTheRestOfTheEngineAlone.2.1⟩

theorem witness_OperationsAreAppliedInTheOrderEnqueued :
    (machine [0x40]).queue = [] ∧ ∃ t, exec (.sendWrite {} 0x12) (machine [0x40]) = .next t :=
  witness_RegistersHoldTheLastWordWritten

theorem witness_AnswersAreTakenInOrder :
    (machine [0x40]).queue = [] ∧ ∃ t, exec (.sendWrite {} 0x12) (machine [0x40]) = .next t :=
  witness_RegistersHoldTheLastWordWritten

theorem witness_EveryBusEventIsAllowed :
    (machine [0x40]).queue = [] ∧ ∃ t, exec (.sendWrite {} 0x12) (machine [0x40]) = .next t :=
  witness_RegistersHoldTheLastWordWritten

/-- A bus error, and DeviceNotFound. -/
theorem witness_ErrorsCarryTheirContext :
    (∃ i s t e, s.queue = [] ∧ exec i s = .next t ∧ t.response = some (.err e) ∧ isBusError e.kind = true) ∧
    (∃ i s t e, s.queue = [] ∧ exec i s = .next t ∧ t.response = some (.err e) ∧ isBusError e.kind = false) := by
  obtain ⟨t, h, hp⟩ := exists_of_nextThat (o := exec (.sendWrite {} 0x12) (machine [0x80]))
    (p := fun t => decide (t.response = some (errOf .noAcknowledgeReceived))) (by decide)
  obtain ⟨u, k, hq⟩ := exists_of_nextThat (o := exec (.getSlave "tdc") (machine []))
    (p := fun t => decide (t.response = some (.err { kind := .deviceNotFound, master := 7, name := some "tdc" })))
    (by decide)
  exact ⟨⟨_, _, t, _, rfl, h, of_decide_eq_true hp, rfl⟩, ⟨_, _, u, _, rfl, k, of_decide_eq_true hq, rfl⟩⟩

/-- A `WAIT`, and a request whose waits its own commands choose. -/
theorem witness_BusErrorsComeFromTheLastStatus :
    (∃ reqAck reqIdle s t e, s.queue = [] ∧ exec (.wait reqAck reqIdle) s = .next t ∧ t.response = some (.err e) ∧
      isBusError e.kind = true) ∧
    (∃ addr bytes sendStop s t e, s.queue = [] ∧ exec (.writeBlock addr bytes sendStop) s = .next t ∧
      t.response = some (.err e) ∧ isBusError e.kind = true ∧
      lastWaitRequired s.params (.writeBlock addr bytes sendStop) t.trace = (true, true)) := by
  obtain ⟨t, h, hp⟩ := exists_of_nextThat (o := exec (.wait true true) (machine [0xC0]))
    (p := fun t => decide (t.response = some (errOf .noAcknowledgeReceived))) (by decide)
  obtain ⟨u, k, hq⟩ := exists_of_nextThat
    (o := exec (.writeBlock 0x50 [7] true) (machine [0x00, 0x63, 0x80, 0x40, 0xC0]))
    (p := fun t => decide (t.response = some (errOf .noAcknowledgeReceived) ∧
      lastWaitRequired testParams (.writeBlock 0x50 [7] true) t.trace = (true, true))) (by decide)
  obtain ⟨k1, k2⟩ := of_decide_eq_true hq
  exact ⟨⟨_, _, _, t, _, rfl, h, of_decide_eq_true hp, rfl⟩, ⟨_, _, _, _, u, _, rfl, k, k1, rfl, k2⟩⟩

/-- A budget of 0, a command mask of no bit and one given twice, a status mask of two bits, and words of 7 bits. -/
theorem witness_ParametersNotTakenAreRefused :
    (∀ p ∈ [{ testParams with maxRetry := 0 }, { testParams with cmdAck := 0 },
        { testParams with cmdRd := testParams.cmdWr }, { testParams with stAl := 0x30 },
        { testParams with regWidth := 7 }], paramsValid p = false) ∧
      ({ machine [] with params := { testParams with maxRetry := 0 } } : State).params =
        { testParams with maxRetry := 0 } :=
  ⟨by decide, rfl⟩

/-- The machine at a line of an operation. -/
def atLine (f : Frame) (queue : List QueueOp) : State := { machine [] with seq := .running f [], queue := queue }

theorem witness_ConcurrentRequestsFault :
    paramsValid (atLine (startFrame .scan) []).params = true ∧ (atLine (startFrame .scan) []).seq ≠ .idle ∧
      ({ atLine (startFrame .scan) [] with port := [⟨.request 0x08 [.addr 0x10], false⟩] } : State).port =
        { what := .request 0x08 [.addr 0x10], serialized := false } :: [] := by decide

/-- The lines that use a handle: `RESET` 4 (its first read, and its second with the first resolved), `SEND_READ` 6 and
`WAIT` 5 (F3); and a right position. -/
theorem witness_DeferredReadsFaultAndNeverHappen :
    let wait : Frame := { startFrame (.wait true true) with line := 5, handles := [1] }
    let reset : Frame := { startFrame .reset with line := 4, handles := [1, 2, 3] }
    let sendRead : Frame := { startFrame (.sendRead {}) with line := 6, handles := [1] }
    (∀ f, paramsValid (atLine f []).params = true ∧ (atLine f []).seq = .running f []) ∧
      (handlesRight reset ∧ 1 ∈ usedAt reset ∧ (atLine reset []).resolvedValue 1 = none) ∧
      (2 ∈ usedAt reset ∧ ({ atLine reset [] with resolved := [(1, 0)] } : State).resolvedValue 2 = none) ∧
      (handlesRight sendRead ∧ 1 ∈ usedAt sendRead ∧ (atLine sendRead []).resolvedValue 1 = none) ∧
      (handlesRight wait ∧ 1 ∈ usedAt wait ∧ (atLine wait []).resolvedValue 1 = none) ∧
      positionRight { atLine wait [] with resolved := [(1, 0)] } :=
  ⟨fun _ => ⟨show paramsValid testParams = true by decide, rfl⟩, ⟨rfl, by decide, by decide⟩, ⟨by decide, by decide⟩,
    ⟨rfl, by decide, by decide⟩, ⟨rfl, by decide, by decide⟩, rfl, rfl,
    by simp [usedAt, startFrame, State.resolvedValue, lookup], by simp⟩

theorem witness_CommitAppliesTheQueueInOrder :
    (({ machine [] with queue := [.read .psHi 1, .write .data 0, .read .psLo 2] } : State).queue.filterMap (fun op =>
      match op with
      | .read _ h => some h
      | .write _ _ => none)).Nodup := by decide

/-- A command byte; a request presented alone; and one with a second caller that breaks in. -/
theorem witness_StepRunsTheDecodedInstruction :
    (presented [] [⟨.command 0x90, true⟩]).Ready ∧
      decode testParams (.command 0x90) = .ok (.cmdWrite true false false) ∧
      isRequest (.cmdWrite true false false) = false ∧ (presented [] [⟨.request 0x09 [], true⟩]).pace = .whole ∧
      decode testParams (.request 0x09 []) = .ok .scan ∧ isRequest .scan = true ∧
      (∀ w' ∈ ([] : List Presentation).head?, w'.serialized = true) ∧
      ∃ w' ∈ ([⟨.request 0x02 [], false⟩] : List Presentation).head?, w'.serialized = false :=
  ⟨⟨(machine_atRest []).params, rfl⟩, by decide, rfl, rfl, by decide, rfl, by simp, _, rfl, rfl⟩

theorem witness_StepMovesTheSequencerByOneLine :
    ({ presented [] [⟨.request 0x09 [], true⟩] with pace := .line } : State).Ready ∧
      decode testParams (.request 0x09 []) = .ok .scan ∧ isRequest .scan = true ∧
      paramsValid (atLine (startFrame .scan) []).params = true ∧
      (atLine (startFrame .scan) []).seq = .running (startFrame .scan) [] ∧
      ∀ w ∈ (atLine (startFrame .scan) []).port.head?, w.serialized = true :=
  ⟨⟨(machine_atRest []).params, rfl⟩, by decide, rfl, by decide, rfl,
    by simp [atLine, machine, State.constructed]⟩

theorem witness_IdleEngineWaits : (machine []).Ready ∧ (machine []).port = [] := ⟨(machine_atRest _).toReady, rfl⟩

/-- A request that succeeds and one that faults. -/
theorem witness_LinesOfARequestComeToItsOutcome :
    isRequest (.writeBlock 0x50 [1] true) = true ∧ isRequest (.ping 0x80) = true ∧ (machine []).AtRest ∧
      (machine []).port = [] :=
  ⟨rfl, rfl, machine_atRest _, rfl⟩

theorem presented_inv (answers : List Nat) (port : List Presentation) (pace : Pace) :
    ({ presented answers port with pace := pace } : State).Inv :=
  ⟨rfl, { (machine_inv answers).registry with }, rfl, (machine_inv answers).attempt, { machine_words answers with }⟩

theorem presented_inv_whole (answers : List Nat) (port : List Presentation) : (presented answers port).Inv :=
  presented_inv answers port .whole

/-- A whole request, and one line. -/
theorem witness_EveryStepKeepsTheInvariant :
    (∃ s t, s.Inv ∧ step s = .next t ∧ s.pace = .whole ∧ t.response = some (.ok (.addr 0x48))) ∧
    (∃ s t, s.Inv ∧ step s = .next t ∧ s.pace = .line ∧ t.seq = .running (startFrame .reset) []) := by
  obtain ⟨t, h, hp⟩ := exists_of_nextThat (o := step (presented [] [⟨.request 0x0A [.name "sfp"], true⟩]))
    (p := fun t => decide (t.response = some (.ok (.addr 0x48)))) (by decide)
  obtain ⟨u, k, hq⟩ := exists_of_nextThat (o := step { presented [] [⟨.request 0x02 [], true⟩] with pace := .line })
    (p := fun t => decide (t.seq = .running (startFrame .reset) [])) (by decide)
  exact ⟨⟨_, t, presented_inv_whole _ _, h, rfl, of_decide_eq_true hp⟩,
    ⟨_, u, presented_inv [] _ .line, k, rfl, of_decide_eq_true hq⟩⟩

theorem witness_NoStepChangesTheRegistry : ∃ s t, step s = .next t ∧ t.response = some (.ok (.addr 0x48)) := by
  obtain ⟨⟨s, t, -, h, -, hr⟩, -⟩ := witness_EveryStepKeepsTheInvariant
  exact ⟨s, t, h, hr⟩

end Sys2Proof.Machine
end

section
/-! PROOFS. The encoding family (30_encoding.md): what a send writes to `CMD`. The trace of a send comes from
`sendWriteOp_spec` and `sendReadOp_spec`; of its events only the command's own write goes to `CMD`. -/

namespace Sys2Proof.Machine

/-! ## The writes of a send's trace -/

/-- Polling only reads. -/
@[simp] theorem writesTo_pollEvents (r : Reg) (h : Nat) (ws : List Word) : writesTo r (pollEvents h ws) = [] := by
  induction ws generalizing h with
  | nil => rfl
  | cons w ws ih => rw [pollEvents, writesTo_append, ih]; rfl

@[simp] theorem writesTo_receiveEvents (r : Reg) (h : Nat) (w : Word) : writesTo r (receiveEvents h w) = [] := rfl

@[simp] theorem writesTo_cmd_sendWriteEvents (p : Params) (cmd : Flags) (data : Byte) (h : Nat) (ws : List Word) :
    writesTo .cmd (sendWriteEvents p cmd data h ws) = [wordOfByte (writeCommand p cmd)] := by
  rw [sendWriteEvents, writesTo_append, writesTo_pollEvents]; rfl

@[simp] theorem writesTo_cmd_sendReadEvents (p : Params) (cmd : Flags) (h : Nat) (ws : List Word) :
    writesTo .cmd (sendReadEvents p cmd h ws) = [wordOfByte (readCommand p cmd)] := by
  rw [sendReadEvents, writesTo_append, writesTo_pollEvents]; rfl

/-! ## A flag that was set already -/

/-- The write mask or'd into flags that have it changes nothing (R63). -/
theorem writeCommand_of_wr {cmd : Flags} (p : Params) (h : cmd.wr = true) : writeCommand p cmd = flagsByte p cmd := by
  rw [writeCommand_eq, ← h]

/-- The read mask or'd into flags that have it changes nothing (R64). -/
theorem readCommand_of_rd {cmd : Flags} (p : Params) (h : cmd.rd = true) : readCommand p cmd = flagsByte p cmd := by
  rw [readCommand_eq, ← h]

/-! ## The two sends of a ready engine -/

/-- A ready engine runs a `SEND_WRITE` without the read flag (R72, R86). -/
theorem exec_sendWrite_of_ready {cmd : Flags} (data : Byte) {s : State} (hs : s.Ready) (hrd : cmd.rd = false) :
    exec (.sendWrite cmd data) s = .next (respond unitVal (sendWriteOp cmd data s.accept)) := by
  show execSendWrite cmd data s = _
  rw [execSendWrite, whenReady_of_ready hs, hrd]; rfl

/-- A ready engine runs a `SEND_READ` without the write flag (R72, R87). -/
theorem exec_sendRead_of_ready {cmd : Flags} {s : State} (hs : s.Ready) (hwr : cmd.wr = false) :
    exec (.sendRead cmd) s = .next (respond Val.byte (sendReadOp cmd s.accept)) := by
  show execSendRead cmd s = _
  rw [execSendRead, whenReady_of_ready hs, hwr]; rfl

/-- `SEND_WRITE` writes `CMD` once, with the write flag forced on. -/
theorem writesTo_cmd_sendWriteOp (cmd : Flags) (data : Byte) {s : State} (hs : s.AtRest) :
    writesTo .cmd (sendWriteOp cmd data s.accept).1.trace = [wordOfByte (writeCommand s.params cmd)] := by
  obtain ⟨ws, t, -, ht, -, -, -, -, hrun⟩ := sendWriteOp_spec cmd data (Between.accept hs.queue) hs.params
  rw [hrun, ht.trace]
  simp

/-- `SEND_READ` writes `CMD` once, with the read flag forced on: receiving the byte writes nothing. -/
theorem writesTo_cmd_sendReadOp (cmd : Flags) {s : State} (hs : s.AtRest) :
    writesTo .cmd (sendReadOp cmd s.accept).1.trace = [wordOfByte (readCommand s.params cmd)] := by
  obtain ⟨ws, t, tr, out, -, ht, -, -, hrun, hout⟩ := sendReadOp_spec cmd (Between.accept hs.queue) hs.params
  have htr : writesTo .cmd tr = [] := by
    split at hout
    · obtain ⟨rfl, -⟩ := hout
      rfl
    · obtain ⟨w, rfl, -⟩ := hout
      exact writesTo_receiveEvents ..
  rw [hrun, ht.trace]
  simp [writesTo_append, htr]

/-- Settles O5: `exec` of a send is the operation's own run, whose trace has the one write of `CMD`. -/
theorem sendsForceTheirDirectionFlag : Obligations.SendsForceTheirDirectionFlag := by
  refine ⟨fun cmd data s hs hrd => ?_, fun cmd s hs hwr => ?_⟩
  · exact ⟨_, exec_sendWrite_of_ready data hs.toReady hrd, writesTo_cmd_sendWriteOp cmd data hs,
      writeCommand_of_wr s.params⟩
  · exact ⟨_, exec_sendRead_of_ready hs.toReady hwr, writesTo_cmd_sendReadOp cmd hs, readCommand_of_rd s.params⟩

end Sys2Proof.Machine
end

section
/-! PROOFS. The primitives family (40_primitives.md): which path `RESET` takes, and what decides the post-conditions of
`WAIT`. What the two requests do comes from `resetOp_spec` and `waitOp_spec`; the order of the tests on the last status
word is said by `verdictOf` alone. -/

namespace Sys2Proof.Machine

/-! ## RESET -/

/-- A ready engine runs a `RESET`. -/
theorem exec_reset_of_ready {s : State} (hs : s.Ready) : exec .reset s = .next (respond unitVal (resetOp s.accept)) := by
  show execReset s = _
  rw [execReset, whenReady_of_ready hs]

/-- Settles O11: the events of `resetOp_spec` are the three reads in one commit and then the path that the two prescale
words read choose. -/
theorem resetTakesThePathItsPrescaleChooses : Obligations.ResetTakesThePathItsPrescaleChooses := by
  intro s hs
  obtain ⟨hi, lo, ctrl, t, ht, -, -, -, -, -, hrun⟩ := resetOp_spec (Between.accept hs.queue)
  refine ⟨hi, lo, ctrl, _, exec_reset_of_ready hs.toReady, ?_, ?_⟩
  · rw [hrun]; rfl
  · rw [hrun]; exact ht.trace

/-! ## The status words of a poll -/

/-- The device sees one answered read of `STATUS` a poll. -/
theorem accessesFrom_pollEvents (h : Nat) (ws : List Word) :
    accessesFrom [] (pollEvents h ws) = ws.map (Access.answered .status) := by
  induction ws generalizing h with
  | nil => rfl
  | cons w ws ih => simp [pollEvents, accessesFrom, appliedBy, lookup, ih]

/-- The status words of a poll's trace are those it read. -/
@[simp] theorem statusWords_pollEvents (h : Nat) (ws : List Word) : statusWords (pollEvents h ws) = ws := by
  rw [statusWords, accessesFrom_pollEvents, List.filterMap_map]
  exact List.filterMap_some

/-! ## WAIT -/

/-- A ready engine runs a `WAIT`. -/
theorem exec_wait_of_ready (reqAck reqIdle : Bool) {s : State} (hs : s.Ready) :
    exec (.wait reqAck reqIdle) s = .next (respond unitVal (waitOp reqAck reqIdle s.accept)) := by
  show execWait reqAck reqIdle s = _
  rw [execWait, whenReady_of_ready hs]

/-- A `WAIT` at rest polls, and delivers what the status words it read decide (R88 to R91). -/
theorem exec_wait_spec (reqAck reqIdle : Bool) {s : State} (hs : s.AtRest) :
    ∃ ws t, PollWords s.params ws ∧ exec (.wait reqAck reqIdle) s = .next t ∧ t.trace = pollEvents 1 ws ∧
      t.response = some (replyOf unitVal (waitVerdict s.params reqAck reqIdle ws)) := by
  obtain ⟨ws, t, hw, ht, -, -, hrun⟩ := waitOp_spec reqAck reqIdle (Between.accept hs.queue) hs.params
  refine ⟨ws, _, hw, exec_wait_of_ready reqAck reqIdle hs.toReady, ?_, ?_⟩
  · rw [hrun]; exact ht.trace
  · rw [hrun]; rfl

/-! ## The outcome of a WAIT -/

/-- An error is delivered exactly when it was raised. -/
theorem replyOf_eq_err_iff {α : Type} (wrap : α → Val) (out : Except Err α) (e : Err) :
    replyOf wrap out = .err e ↔ out = .error e := by
  cases out <;> simp [replyOf]

/-- A missing acknowledge is reported on a word that ends the loop, if acknowledge is required. -/
theorem verdictOf_eq_noAcknowledge_iff (p : Params) (reqAck reqIdle : Bool) (w : Word) :
    verdictOf p reqAck reqIdle w = .error (busErr p .noAcknowledgeReceived) ↔
      arbLost p w = false ∧ inProgress p w = false ∧ reqAck = true ∧ receivedAck p w = false := by
  rw [verdictOf]
  split_ifs with hlost hprogress hack
  · simp [busErr, hlost]
  · simp [busErr, hprogress]
  · simpa [hlost, hprogress] using hack
  · simpa [busErr, hlost, hprogress] using hack
  · simpa [hlost, hprogress] using hack

/-- A busy bus is reported on a word that ends the loop, if idle is required and acknowledge raises nothing. -/
theorem verdictOf_eq_stillBusy_iff (p : Params) (reqAck reqIdle : Bool) (w : Word) :
    verdictOf p reqAck reqIdle w = .error (busErr p .transferFinishedBusStillBusy) ↔
      arbLost p w = false ∧ inProgress p w = false ∧ ¬(reqAck = true ∧ receivedAck p w = false) ∧ reqIdle = true ∧
        busBusy p w = true := by
  rw [verdictOf]
  -- the conditions in the form in which `verdictOf` tests them
  simp only [← Bool.not_eq_true', ← Bool.and_eq_true]
  split_ifs with hlost hprogress hack hidle
  · simp [busErr, hlost]
  · simp [busErr, hprogress]
  · simp [busErr, hack]
  · simp [hlost, hprogress, hack, hidle]
  · simp [hidle]

/-- Settles O19: the words of the trace are those the `WAIT` polled, so its outcome is `verdictOf` of the last of them,
and the two equivalences are those of `verdictOf`. -/
theorem waitChecksPostConditionsOnItsLastStatus : Obligations.WaitChecksPostConditionsOnItsLastStatus := by
  intro reqAck reqIdle s t before last hs hexec hwords
  obtain ⟨ws, u, -, hu, htrace, hresp⟩ := exec_wait_spec reqAck reqIdle hs
  obtain rfl : u = t := by rw [hu] at hexec; injection hexec
  rw [htrace, statusWords_pollEvents] at hwords
  rw [hwords, waitVerdict, getLastD_append_one] at hresp
  simp only [hresp, Option.some.injEq, replyOf_eq_err_iff]
  exact ⟨verdictOf_eq_noAcknowledge_iff .., verdictOf_eq_stillBusy_iff ..⟩

end Sys2Proof.Machine
end

section
/-! PROOFS. The registry family (42_registry.md), construction: what `PARSE_UNSIGNED` takes, when a mapping parses, and
what a name looks up to in the registry built from it. -/

namespace Sys2Proof.Machine

/-! ## PARSE_UNSIGNED -/

/-- Digits are read left to right after `acc`; one character that is no digit spoils them all (R116). -/
theorem digitsValue_eq_some_iff (cs : List Char) (acc v : Nat) :
    digitsValue cs acc = some v ↔
      (∀ c ∈ cs, '0' ≤ c ∧ c ≤ '9') ∧ v = cs.foldl (fun acc c => 10 * acc + (c.toNat - '0'.toNat)) acc := by
  induction cs generalizing acc with
  | nil => simp [digitsValue, eq_comm]
  | cons c cs ih =>
    rw [digitsValue, List.forall_mem_cons, List.foldl_cons]
    split
    · next hc => rw [ih, and_iff_right hc]
    · next hc => simp [hc]

/-- `PARSE_UNSIGNED` takes the non-empty strings of digits whose value is below 2^32 (R116). -/
theorem parseUnsigned_eq_some_iff (str : String) (v : Nat) :
    parseUnsigned str = some v ↔ str.toList ≠ [] ∧ digitsValue str.toList 0 = some v ∧ v < 2 ^ 32 := by
  rw [parseUnsigned]
  split
  · next hnil => simp [hnil]
  · next hcons =>
    cases digitsValue str.toList 0 with
    | none => exact ⟨nofun, fun ⟨_, he, _⟩ => nomatch he⟩
    | some w =>
      refine Option.ite_none_right_eq_some.trans ⟨fun ⟨hlt, he⟩ => ?_, fun ⟨_, he, hlt⟩ => ?_⟩
      · exact ⟨hcons, he, Option.some.inj he ▸ hlt⟩
      · exact ⟨Option.some.inj he ▸ hlt, he⟩

/-! ## Mappings -/

/-- A mapping parses exactly when each of its strings does, name by name. -/
theorem parseMapping_eq_some_iff (mapping : List (DevName × String)) (parsed : List (DevName × Nat)) :
    parseMapping mapping = some parsed ↔
      mapping.map (fun e => (e.1, parseUnsigned e.2)) = parsed.map (fun e => (e.1, some e.2)) := by
  induction mapping generalizing parsed with
  | nil => cases parsed <;> simp [parseMapping]
  | cons e mapping ih =>
    rw [parseMapping]
    cases parsed with
    | nil => split <;> simp
    | cons d parsed =>
      rw [List.map_cons, List.map_cons, List.cons.injEq, ← ih]
      cases parseUnsigned e.2 <;> cases parseMapping mapping <;> simp [Prod.ext_iff, and_assoc]

/-- One string that does not parse spoils the mapping. -/
theorem parseMapping_eq_none {mapping : List (DevName × String)} (h : ∃ e ∈ mapping, parseUnsigned e.2 = none) :
    parseMapping mapping = none := by
  obtain ⟨e, he, hnone⟩ := h
  rw [Option.eq_none_iff_forall_ne_some]
  intro parsed hp
  have hmem := List.mem_map_of_mem (f := fun e => (e.1, parseUnsigned e.2)) he
  rw [(parseMapping_eq_some_iff mapping parsed).1 hp, hnone] at hmem
  simp at hmem

/-- A mapping that parses is constructed, with the registry of its parsed values (R115). -/
theorem construct_of_parses {p : Params} {mapping : List (DevName × String)} {parsed : List (DevName × Nat)}
    (ratio : Ratio) (hp : paramsValid p = true)
    (h : mapping.map (fun e => (e.1, parseUnsigned e.2)) = parsed.map (fun e => (e.1, some e.2))) :
    construct p ratio mapping = .next (State.constructed p (Config.prescaleOf ratio) (buildRegistry p parsed)) := by
  rw [construct, if_pos hp, (parseMapping_eq_some_iff mapping parsed).2 h]

/-- Settles O38: the digits of a string are those of `digitsValue`, and a mapping with a string that does not parse does
not parse. -/
theorem addressStringsAreDecimalBelowTwoToThe32 : Obligations.AddressStringsAreDecimalBelowTwoToThe32 := by
  refine ⟨fun str v => ?_, fun p ratio mapping hp h => ?_⟩
  · rw [parseUnsigned_eq_some_iff, digitsValue_eq_some_iff, and_assoc]
  · rw [construct, if_pos hp, parseMapping_eq_none h]

/-! ## Lookups in the registry built -/

/-- The entry inserted is found under its name, and every other name as before (R118). -/
theorem lookup_insertEntry {α : Type} (n m : DevName) (a : α) (reg : List (DevName × α)) :
    lookup n (insertEntry m a reg) = if m = n then some a else lookup n reg := by
  induction reg with
  | nil => rfl
  | cons e reg ih =>
    obtain ⟨k, b⟩ := e
    rw [insertEntry]
    split
    · next hk => subst hk; by_cases h : k = n <;> simp [lookup, h]
    · next hk =>
      rw [lookup, lookup, ih]
      split_ifs with h1 h2
      · exact absurd (h1.trans h2.symm) hk
      all_goals rfl

/-- After the loop of `BUILD_REGISTRY` a name has the value of its last occurrence, or else what it had before. -/
theorem lookup_buildFrom (p : Params) (n : DevName) (parsed : List (DevName × Nat)) (reg : List (DevName × Addr7)) :
    lookup n (buildFrom p reg parsed) =
      (((parsed.filter fun e => e.1 = n).getLast?).map fun e => maskAddress p e.2).or (lookup n reg) := by
  induction parsed generalizing reg with
  | nil => rfl
  | cons e parsed ih =>
    obtain ⟨m, v⟩ := e
    rw [buildFrom, ih, lookup_insertEntry]
    by_cases h : m = n
    · simp only [h, if_true, List.filter_cons, decide_true, List.getLast?_cons]
      cases (parsed.filter fun e => e.1 = n).getLast? <;> rfl
    · simp [h]

/-- Settles O37: the mapping is constructed, and its registry starts empty. -/
theorem lastOccurrenceOfANameWins : Obligations.LastOccurrenceOfANameWins := by
  intro p ratio mapping parsed hp h
  exact ⟨_, construct_of_parses ratio hp h, fun n => (lookup_buildFrom p n parsed []).trans Option.or_none⟩

/-! ## The address mask -/

/-- The default mask keeps the low 7 bits (R117). -/
theorem maskAddress_defaults_toNat (v : Nat) : (maskAddress Config.defaults v).toNat = v % 128 := by
  have hmask : v &&& Config.defaults.addrMask = v % 2 ^ 7 := Nat.and_two_pow_sub_one_eq_mod v 7
  rw [maskAddress, hmask, BitVec.toNat_ofNat]
  exact Nat.mod_mod v 128

/-- Settles O39: "200" parses to 200, which is 0x48 modulo 128. -/
theorem parsedAddressIsMaskedToSevenBits : Obligations.ParsedAddressIsMaskedToSevenBits := by
  refine ⟨maskAddress_defaults_toNat, fun ratio => ?_⟩
  obtain ⟨s, hs, hlookup⟩ :=
    lastOccurrenceOfANameWins Config.defaults ratio [("x", "200")] [("x", 200)] rfl (by decide)
  refine ⟨s, hs, (hlookup "x").trans ?_⟩
  exact congrArg some (BitVec.eq_of_toNat_eq (maskAddress_defaults_toNat 200))

end Sys2Proof.Machine
end

section
/-! PROOFS. The registry family (42_registry.md), after construction: nothing a step is made of writes the parameters, the
registry or the handles, and `CONFIGURE` alone writes the prescale. It holds of every state, whatever is pending in its
queue, so the stretches of Laws/Interface.lean, which begin with nothing pending, do not say it. -/

namespace Sys2Proof.Machine

/-- `t` has the parameters, the registry and the handles of `s`, and its prescale or one of a ratio (R21, R27, R123). -/
structure KeepsRegistry (s t : State) : Prop where
  params   : t.params = s.params
  registry : t.registry = s.registry
  slaves   : t.slaves = s.slaves
  prescale : t.prescale = s.prescale ∨ ∃ ratio, t.prescale = Config.prescaleOf ratio

theorem KeepsRegistry.refl (s : State) : KeepsRegistry s s := ⟨rfl, rfl, rfl, .inl rfl⟩

/-- A state with the same four fields keeps the registry alike. -/
theorem keepsRegistry_congr {s t u : State} (hp : u.params = t.params) (hr : u.registry = t.registry)
    (hs : u.slaves = t.slaves) (hps : u.prescale = t.prescale) : KeepsRegistry s u ↔ KeepsRegistry s t := by
  constructor
  · rintro ⟨kp, kr, ks, kps⟩
    exact ⟨hp ▸ kp, hr ▸ kr, hs ▸ ks, hps ▸ kps⟩
  · rintro ⟨kp, kr, ks, kps⟩
    exact ⟨hp.trans kp, hr.trans kr, hs.trans ks, hps.symm ▸ kps⟩

/-- If the outcome is a next state, it keeps the registry of `s`. -/
def NextKeeps (s : State) : Host.Outcome State Fault Refusal → Prop
  | .next t => KeepsRegistry s t
  | .fault _ => True
  | .refused _ => True

@[simp] theorem nextKeeps_next (s t : State) : NextKeeps s (.next t) ↔ KeepsRegistry s t := Iff.rfl

@[simp] theorem nextKeeps_fault (s : State) (r : Fault) : NextKeeps s (.fault r) := trivial

@[simp] theorem nextKeeps_refused (s : State) (r : Refusal) : NextKeeps s (.refused r) := trivial

@[simp] theorem keepsRegistry_ite {s : State} {c : Prop} [Decidable c] {a b : State} (ha : KeepsRegistry s a)
    (hb : KeepsRegistry s b) : KeepsRegistry s (if c then a else b) := by
  split
  · exact ha
  · exact hb

@[simp] theorem nextKeeps_ite {s : State} {c : Prop} [Decidable c] {a b : Host.Outcome State Fault Refusal}
    (ha : NextKeeps s a) (hb : NextKeeps s b) : NextKeeps s (if c then a else b) := by
  split
  · exact ha
  · exact hb

/-- Only next states matter. -/
theorem nextKeeps_of_next {s : State} {o : Host.Outcome State Fault Refusal}
    (h : ∀ t, o = .next t → KeepsRegistry s t) : NextKeeps s o := by
  cases o with
  | next t => exact h t rfl
  | fault r => exact nextKeeps_fault s r
  | refused r => exact nextKeeps_refused s r

section
variable {s t : State}

/-! ## The operations of the state -/

@[simp] theorem keeps_memWrite {r : Reg} {v : Word} : KeepsRegistry s (t.memWrite r v) ↔ KeepsRegistry s t :=
  keepsRegistry_congr rfl rfl rfl rfl

@[simp] theorem keeps_memRead {r : Reg} : KeepsRegistry s (t.memRead r) ↔ KeepsRegistry s t :=
  keepsRegistry_congr rfl rfl rfl rfl

@[simp] theorem keeps_commit : KeepsRegistry s t.commit ↔ KeepsRegistry s t :=
  keepsRegistry_congr (commit_params t) (commit_registry t) (commit_slaves t) (commit_prescale t)

@[simp] theorem keeps_sleep : KeepsRegistry s t.sleep ↔ KeepsRegistry s t :=
  keepsRegistry_congr rfl rfl rfl rfl

@[simp] theorem keeps_accept : KeepsRegistry s t.accept ↔ KeepsRegistry s t :=
  keepsRegistry_congr rfl rfl rfl rfl

@[simp] theorem keeps_finish {reply : Reply} : KeepsRegistry s (t.finish reply) ↔ KeepsRegistry s t :=
  keepsRegistry_congr rfl rfl rfl rfl

@[simp] theorem keeps_setAttempt {n : Nat} : KeepsRegistry s (t.setAttempt n) ↔ KeepsRegistry s t :=
  keepsRegistry_congr rfl rfl rfl rfl

@[simp] theorem keeps_setStatus {w : Word} : KeepsRegistry s (t.setStatus w) ↔ KeepsRegistry s t :=
  keepsRegistry_congr rfl rfl rfl rfl

@[simp] theorem keeps_undefine : KeepsRegistry s t.undefine ↔ KeepsRegistry s t :=
  keepsRegistry_congr rfl rfl rfl rfl

@[simp] theorem keeps_setSeq {q : Seq} : KeepsRegistry s (t.setSeq q) ↔ KeepsRegistry s t :=
  keepsRegistry_congr rfl rfl rfl rfl

@[simp] theorem keeps_goTo {f : Frame} {cs : List Frame} {n : Nat} : KeepsRegistry s (t.goTo f cs n) ↔ KeepsRegistry s t :=
  keepsRegistry_congr rfl rfl rfl rfl

@[simp] theorem keeps_callOp {f : Frame} {cs : List Frame} {n : Nat} {i : Instr} :
    KeepsRegistry s (t.callOp f cs n i) ↔ KeepsRegistry s t :=
  keepsRegistry_congr rfl rfl rfl rfl

@[simp] theorem keeps_readAt {f : Frame} {cs : List Frame} {n : Nat} {r : Reg} :
    KeepsRegistry s (t.readAt f cs n r) ↔ KeepsRegistry s t :=
  keepsRegistry_congr rfl rfl rfl rfl

@[simp] theorem keeps_returnTo {v : Val} {cs : List Frame} : KeepsRegistry s (t.returnTo v cs) ↔ KeepsRegistry s t := by
  cases cs with
  | nil => exact keeps_finish
  | cons f cs => exact keeps_setSeq

@[simp] theorem keeps_unwind {e : Err} {cs : List Frame} : KeepsRegistry s (t.unwind e cs) ↔ KeepsRegistry s t := by
  induction cs with
  | nil => exact keeps_finish
  | cons f cs ih =>
    rw [State.unwind]
    split
    · exact keeps_goTo
    · exact ih

@[simp] theorem keeps_raiseAt {kind : ErrorKind} {cs : List Frame} :
    KeepsRegistry s (t.raiseAt kind cs) ↔ KeepsRegistry s t := keeps_unwind

@[simp] theorem keeps_writeCommitted {r : Reg} {b : Byte} :
    KeepsRegistry s (t.writeCommitted r b) ↔ KeepsRegistry s t := keeps_commit.trans keeps_memWrite

@[simp] theorem keeps_zeroDataAndCommand : KeepsRegistry s (zeroDataAndCommand t) ↔ KeepsRegistry s t := by
  simp [zeroDataAndCommand]

@[simp] theorem keeps_pollOnce : KeepsRegistry s (pollOnce t) ↔ KeepsRegistry s t := by simp [pollOnce]

/-! ## Operations put together from others -/

/-- A caller keeps the registry if what it calls and what follows do. -/
theorem keeps_andThen {α β : Type} {r : Run α} {k : State → α → Run β} (hr : KeepsRegistry s r.1)
    (hk : ∀ u a, KeepsRegistry s u → KeepsRegistry s (k u a).1) : KeepsRegistry s (andThen r k).1 := by
  obtain ⟨u, out⟩ := r
  cases out with
  | ok a => exact hk u a hr
  | error e => exact hr

/-- So does a caller that catches, if its handler does. -/
theorem keeps_catchBusError {α : Type} {r : Run α} {handler : State → Run α} (hr : KeepsRegistry s r.1)
    (hk : ∀ u, KeepsRegistry s u → KeepsRegistry s (handler u).1) : KeepsRegistry s (catchBusError r handler).1 := by
  obtain ⟨u, out⟩ := r
  cases out with
  | ok a => exact hr
  | error e =>
    simp only [catchBusError]
    split
    · exact hk u hr
    · exact hr

theorem nextKeeps_respond {α : Type} (wrap : α → Val) {r : Run α} (hr : KeepsRegistry s r.1) :
    NextKeeps s (.next (respond wrap r)) := keeps_finish.2 hr

theorem nextKeeps_whenBlockArgs {addr : Nat} {isEmpty : Bool} {k : Addr7 → Host.Outcome State Fault Refusal}
    (hk : ∀ a, NextKeeps s (k a)) : NextKeeps s (whenBlockArgs addr isEmpty k) := by
  refine nextKeeps_of_next fun u e => ?_
  obtain ⟨-, -, e⟩ := whenBlockArgs_next e
  exact (nextKeeps_next s u).1 (e ▸ hk _)

@[simp] theorem nextKeeps_noLine (f : Frame) : NextKeeps s (noLine f) := nextKeeps_refused ..

@[simp] theorem nextKeeps_withVal {n : Nat} {k : Word → Host.Outcome State Fault Refusal} (hk : ∀ w, NextKeeps s (k w)) :
    NextKeeps s (withVal t n k) := by
  rw [withVal]
  split
  · exact hk _
  · exact nextKeeps_fault ..

variable (h : KeepsRegistry s t)
include h

/-! ## The operations of 40_primitives.md, 41_transactions.md and 42_registry.md -/

/-- The one write of the prescale (R80). -/
@[simp] theorem keeps_setPrescale (ratio : Ratio) : KeepsRegistry s (t.setPrescale (Config.prescaleOf ratio)) :=
  ⟨h.params, h.registry, h.slaves, .inr ⟨ratio, rfl⟩⟩

theorem keeps_resetOp : KeepsRegistry s (resetOp t).1 := by
  have hr : KeepsRegistry s (resetReads t) := by simp [resetReads, h]
  simp only [resetOp, returning]
  split
  · exact keeps_zeroDataAndCommand.2 hr
  · simp [fullReset, hr]

theorem keeps_pollLoop (n : Nat) : KeepsRegistry s (pollLoop n t).1 := by
  induction n generalizing t with
  | zero => exact h
  | succ n ih =>
    rw [pollLoop]
    split_ifs
    · exact keeps_pollOnce.2 h
    · exact ih (keeps_setAttempt.2 (keeps_pollOnce.2 h))
    · exact keeps_pollOnce.2 h

theorem keeps_postConditions (reqAck reqIdle : Bool) : KeepsRegistry s (postConditions reqAck reqIdle t).1 := by
  rw [postConditions]
  split_ifs <;> exact h

theorem keeps_waitOp (reqAck reqIdle : Bool) : KeepsRegistry s (waitOp reqAck reqIdle t).1 :=
  keeps_undefine.2 <| keeps_andThen (keeps_pollLoop (keeps_setAttempt.2 h) _) fun _ _ hu => keeps_postConditions hu _ _

theorem keeps_sendWriteOp (cmd : Flags) (data : Byte) : KeepsRegistry s (sendWriteOp cmd data t).1 :=
  keeps_waitOp (by simp [h]) _ _

theorem keeps_readReceived : KeepsRegistry s (readReceived t).1 := by simp [readReceived, returning, h]

theorem keeps_sendReadOp (cmd : Flags) : KeepsRegistry s (sendReadOp cmd t).1 :=
  keeps_andThen (keeps_waitOp (keeps_writeCommitted.2 h) _ _) fun _ _ hu => keeps_readReceived hu

theorem keeps_writeBytes (sendStop : Bool) (bytes : List Byte) : KeepsRegistry s (writeBytes sendStop bytes t).1 := by
  induction bytes generalizing t with
  | nil => exact h
  | cons b rest ih => exact keeps_andThen (keeps_sendWriteOp h _ _) fun _ _ hu => ih hu

theorem keeps_writeBlockOp (a : Addr7) (bytes : List Byte) (sendStop : Bool) :
    KeepsRegistry s (writeBlockOp a bytes sendStop t).1 :=
  keeps_andThen (keeps_resetOp h) fun _ _ hu =>
    keeps_andThen (keeps_sendWriteOp hu _ _) fun _ _ hw => keeps_writeBytes hw _ _

theorem keeps_readBytes (n : Nat) (out : List Byte) : KeepsRegistry s (readBytes n out t).1 := by
  induction n generalizing out t with
  | zero => exact h
  | succ n ih => exact keeps_andThen (keeps_sendReadOp h _) fun _ _ hu => ih hu _

theorem keeps_readBlockOp (a : Addr7) (count : Nat) : KeepsRegistry s (readBlockOp a count t).1 :=
  keeps_andThen (keeps_resetOp h) fun _ _ hu =>
    keeps_andThen (keeps_sendWriteOp hu _ _) fun _ _ hw => keeps_readBytes hw _ _

theorem keeps_pingOp (a : Addr7) : KeepsRegistry s (pingOp a t).1 := by
  have hbody : KeepsRegistry s (pingBody a t).1 :=
    keeps_andThen (keeps_sendWriteOp h _ _) fun _ _ hu => keeps_andThen (keeps_sendReadOp hu _) fun _ _ hv => hv
  exact keeps_catchBusError hbody fun _ hu => hu

theorem keeps_scanLoop (as : List Nat) (out : List Addr7) : KeepsRegistry s (scanLoop as out t).1 := by
  induction as generalizing out t with
  | nil => exact h
  | cons a as ih => exact keeps_andThen (keeps_pingOp h _) fun _ _ hu => ih hu _

theorem keeps_getSlaveAddressOp (n : DevName) : KeepsRegistry s (getSlaveAddressOp n t).1 := by
  rw [getSlaveAddressOp]
  split <;> exact h

theorem keeps_getSlaveOp (n : DevName) : KeepsRegistry s (getSlaveOp n t).1 := by
  rw [getSlaveOp]
  split <;> exact h

/-! ## Whole instructions -/

/-- What runs in a ready engine begins by accepting the request, which keeps the registry. -/
theorem nextKeeps_whenReady {k : State → Host.Outcome State Fault Refusal}
    (hk : ∀ u, KeepsRegistry s u → NextKeeps s (k u)) : NextKeeps s (whenReady t k) := by
  have hnext := hk _ (keeps_accept.2 h)
  refine nextKeeps_of_next fun u e => ?_
  rwa [(whenReady_next e).2] at hnext

theorem nextKeeps_execWriteBlock (addr : Nat) (bytes : List Byte) (sendStop : Bool) :
    NextKeeps s (execWriteBlock addr bytes sendStop t) :=
  nextKeeps_whenReady h fun _ hu => nextKeeps_whenBlockArgs fun a => nextKeeps_respond _ (keeps_writeBlockOp hu a _ _)

theorem nextKeeps_execReadBlock (addr count : Nat) : NextKeeps s (execReadBlock addr count t) :=
  nextKeeps_whenReady h fun _ hu => nextKeeps_whenBlockArgs fun a => nextKeeps_respond _ (keeps_readBlockOp hu a _)

theorem nextKeeps_command (v : State → Byte) : NextKeeps s (whenReady t fun u => .next (commandOp (v u) u)) :=
  nextKeeps_whenReady h fun _ hu => keeps_writeCommitted.2 hu

/-- Every instruction keeps the registry. -/
theorem nextKeeps_exec (i : Instr) : NextKeeps s (exec i t) := by
  cases i with
  | configure ratio => exact nextKeeps_whenReady h fun _ hu => nextKeeps_respond _ (keeps_setPrescale hu ratio)
  | reset => exact nextKeeps_whenReady h fun _ hu => nextKeeps_respond _ (keeps_resetOp hu)
  | sendWrite cmd data =>
    exact nextKeeps_whenReady h fun _ hu => nextKeeps_ite (nextKeeps_fault ..)
      (nextKeeps_respond _ (keeps_sendWriteOp hu cmd data))
  | sendRead cmd =>
    exact nextKeeps_whenReady h fun _ hu => nextKeeps_ite (nextKeeps_fault ..)
      (nextKeeps_respond _ (keeps_sendReadOp hu cmd))
  | wait reqAck reqIdle => exact nextKeeps_whenReady h fun _ hu => nextKeeps_respond _ (keeps_waitOp hu _ _)
  | writeBlock addr bytes sendStop => exact nextKeeps_execWriteBlock h ..
  | readBlock addr count => exact nextKeeps_execReadBlock h ..
  | ping addr =>
    exact nextKeeps_whenReady h fun _ hu => nextKeeps_ite (nextKeeps_respond _ (keeps_pingOp hu _)) (nextKeeps_fault ..)
  | scan => exact nextKeeps_whenReady h fun _ hu => nextKeeps_respond _ (keeps_scanLoop hu _ _)
  | getSlaveAddress n => exact nextKeeps_whenReady h fun _ hu => nextKeeps_respond _ (keeps_getSlaveAddressOp hu n)
  | getSlave n => exact nextKeeps_whenReady h fun _ hu => nextKeeps_respond _ (keeps_getSlaveOp hu n)
  | slaveWriteBlock hd bytes sendStop => exact nextKeeps_execWriteBlock h ..
  | slaveReadBlock hd count => exact nextKeeps_execReadBlock h ..
  | cmdZero => exact nextKeeps_command h fun _ => 0
  | cmdWrite sta sto ack => exact nextKeeps_command h fun u => writeCommand u.params _
  | cmdRead sta sto ack => exact nextKeeps_command h fun u => readCommand u.params _

/-! ## One line of an operation

A line moves the position, enqueues, commits, stores a field, calls, returns or raises. A line that first matches on a
handle, a byte or a value returned is split once more. -/

theorem nextKeeps_lineConfigure (ratio : Ratio) (f : Frame) (cs : List Frame) :
    NextKeeps s (lineConfigure ratio f cs t) := by
  rw [lineConfigure]
  split <;> simp [h]

theorem nextKeeps_lineReset (f : Frame) (cs : List Frame) : NextKeeps s (lineReset f cs t) := by
  rw [lineReset]
  split
  case h_5 => split <;> simp [h] -- `latched` reads two of the handles bound
  all_goals simp [h]

theorem nextKeeps_lineSendWrite (cmd : Flags) (data : Byte) (f : Frame) (cs : List Frame) :
    NextKeeps s (lineSendWrite cmd data f cs t) := by
  rw [lineSendWrite]
  split <;> simp [h]

theorem nextKeeps_lineSendRead (cmd : Flags) (f : Frame) (cs : List Frame) : NextKeeps s (lineSendRead cmd f cs t) := by
  rw [lineSendRead]
  split
  case h_7 => split <;> simp [h] -- the byte returned reads the handle bound
  all_goals simp [h]

theorem nextKeeps_lineWait (reqAck reqIdle : Bool) (f : Frame) (cs : List Frame) :
    NextKeeps s (lineWait reqAck reqIdle f cs t) := by
  rw [lineWait]
  split
  case h_6 => split <;> simp [h] -- `status` reads the handle bound
  all_goals simp [h]

theorem nextKeeps_lineWriteBlock (addr : Nat) (bytes : List Byte) (sendStop : Bool) (f : Frame) (cs : List Frame) :
    NextKeeps s (lineWriteBlock addr bytes sendStop f cs t) := by
  rw [lineWriteBlock]
  split
  case h_7 => split <;> simp [h] -- the call sends the byte at the index
  all_goals simp [h]

theorem nextKeeps_lineReadBlock (addr count : Nat) (f : Frame) (cs : List Frame) :
    NextKeeps s (lineReadBlock addr count f cs t) := by
  rw [lineReadBlock]
  split
  case h_9 => split <;> simp [h] -- the byte appended is the value returned
  all_goals simp [h]

theorem nextKeeps_linePing (addr : Nat) (f : Frame) (cs : List Frame) : NextKeeps s (linePing addr f cs t) := by
  rw [linePing]
  split <;> simp [h]

theorem nextKeeps_lineScan (f : Frame) (cs : List Frame) : NextKeeps s (lineScan f cs t) := by
  rw [lineScan]
  split <;> simp [h]

theorem nextKeeps_lineGetSlaveAddress (n : DevName) (f : Frame) (cs : List Frame) :
    NextKeeps s (lineGetSlaveAddress n f cs t) := by
  rw [lineGetSlaveAddress]
  split <;> simp [h]

theorem nextKeeps_lineGetSlave (n : DevName) (f : Frame) (cs : List Frame) : NextKeeps s (lineGetSlave n f cs t) := by
  rw [lineGetSlave]
  split <;> simp [h]

theorem nextKeeps_lineSlave (delegated : Instr) (f : Frame) (cs : List Frame) :
    NextKeeps s (lineSlave delegated f cs t) := by
  rw [lineSlave]
  split <;> simp [h]

/-- Every line of every operation keeps the registry. -/
theorem nextKeeps_lineOf (f : Frame) (cs : List Frame) : NextKeeps s (lineOf f cs t) := by
  rw [lineOf]
  cases f.op with
  | configure ratio => exact nextKeeps_lineConfigure h ..
  | reset => exact nextKeeps_lineReset h ..
  | sendWrite cmd data => exact nextKeeps_lineSendWrite h ..
  | sendRead cmd => exact nextKeeps_lineSendRead h ..
  | wait reqAck reqIdle => exact nextKeeps_lineWait h ..
  | writeBlock addr bytes sendStop => exact nextKeeps_lineWriteBlock h ..
  | readBlock addr count => exact nextKeeps_lineReadBlock h ..
  | ping addr => exact nextKeeps_linePing h ..
  | scan => exact nextKeeps_lineScan h ..
  | getSlaveAddress n => exact nextKeeps_lineGetSlaveAddress h ..
  | getSlave n => exact nextKeeps_lineGetSlave h ..
  | slaveWriteBlock hd bytes sendStop => exact nextKeeps_lineSlave h ..
  | slaveReadBlock hd count => exact nextKeeps_lineSlave h ..
  | cmdZero => exact nextKeeps_noLine _
  | cmdWrite sta sto ack => exact nextKeeps_noLine _
  | cmdRead sta sto ack => exact nextKeeps_noLine _

theorem nextKeeps_tick : NextKeeps s (tick t) := by
  rw [tick]
  split
  · exact h
  · exact nextKeeps_ite (nextKeeps_lineOf h ..) (nextKeeps_fault ..)

/-! ## A step -/

/-- A fetched instruction runs whole or is accepted at its first line; either keeps the registry. -/
theorem nextKeeps_runFetched (i : Instr) : NextKeeps s (runFetched i t) := by
  have hstart : NextKeeps s (startRequest i t) :=
    nextKeeps_whenReady h fun _ hu => keeps_setSeq.2 hu
  rw [runFetched]
  split
  · split
    · exact nextKeeps_ite (nextKeeps_fault ..) (nextKeeps_exec h i)
    · exact hstart
  · exact nextKeeps_exec h i

end

/-- Taking a presentation changes the port alone. -/
theorem keeps_of_fetch {s t : State} {i : Instr} (h : fetch s = .instr i t) : KeepsRegistry s t := by
  rw [fetch] at h
  split at h
  · cases h
  · split at h <;> cases h
    exact ⟨rfl, rfl, rfl, .inl rfl⟩

/-- Settles O60: a step is a line of the operation in progress, or the instruction fetched. -/
theorem noStepChangesTheRegistry : Obligations.NoStepChangesTheRegistry := by
  intro s t hstep
  have hkeeps : NextKeeps s (step s) := by
    rw [step, advance]
    split
    · split
      · exact nextKeeps_ite (nextKeeps_fault ..) (nextKeeps_tick (.refl s))
      · split
        · exact KeepsRegistry.refl s
        · next hfetch => exact nextKeeps_runFetched (keeps_of_fetch hfetch) _
        · exact nextKeeps_fault ..
        · exact nextKeeps_refused ..
    · exact nextKeeps_fault ..
  rw [hstep] at hkeeps
  obtain ⟨hparams, hregistry, hslaves, hprescale⟩ := hkeeps
  exact ⟨hparams, hregistry, hslaves, hprescale⟩

end Sys2Proof.Machine
end

section
/-! PROOFS. The errors family (60_exceptions.md): when a `WAIT` reports ArbitrationLost and TransactionTimeout, and what an
error carries. The words a `WAIT` may read are `PollWords`; every bus error is the verdict of some status word, and the
one other error is raised by a failed lookup. -/

namespace Sys2Proof.Machine

/-! ## The verdicts that end a poll in an error -/

/-- Arbitration is tested first, so its bit alone decides (R89). -/
theorem verdictOf_eq_arbitrationLost_iff (p : Params) (reqAck reqIdle : Bool) (w : Word) :
    verdictOf p reqAck reqIdle w = .error (busErr p .arbitrationLost) ↔ arbLost p w = true := by
  rw [verdictOf]
  split_ifs with hlost
  · simp [hlost]
  all_goals simp [busErr, hlost]

/-- The budget is spent on a last word that would have let the loop go on (R90). -/
theorem verdictOf_eq_timeout_iff (p : Params) (reqAck reqIdle : Bool) (w : Word) :
    verdictOf p reqAck reqIdle w = .error (busErr p .transactionTimeout) ↔ pollsOn p w = true := by
  rw [verdictOf, pollsOn]
  split_ifs with hlost hprogress
  · simp [busErr, hlost]
  · simp [hlost, hprogress]
  all_goals simp [busErr, hprogress]

theorem pollsOn_eq_true_iff (p : Params) (w : Word) :
    pollsOn p w = true ↔ inProgress p w = true ∧ arbLost p w = false := by
  simp [pollsOn]

/-! ## The words a WAIT has read -/

/-- A `WAIT` that has answered has read words as the poll allows, and reports the verdict of the last of them. -/
theorem wait_next {reqAck reqIdle : Bool} {s t : State} (hs : s.AtRest) (hexec : exec (.wait reqAck reqIdle) s = .next t) :
    PollWords s.params (statusWords t.trace) ∧
      t.response = some (replyOf unitVal (waitVerdict s.params reqAck reqIdle (statusWords t.trace))) := by
  obtain ⟨ws, u, hpoll, hu, htrace, hresp⟩ := exec_wait_spec reqAck reqIdle hs
  obtain rfl : u = t := by rw [hu] at hexec; injection hexec
  rw [htrace, statusWords_pollEvents]
  exact ⟨hpoll, hresp⟩

/-- Only the last word of a poll can have the arbitration-lost bit, which ends the loop (R89). -/
theorem eq_nil_of_arbLost {p : Params} {before after : List Word} {w : Word} (hpoll : PollWords p (before ++ w :: after))
    (hw : arbLost p w = true) : after = [] := by
  obtain ⟨polled, last, hws, -, hon, -⟩ := hpoll
  by_contra hne
  have hpolled : w ∈ (before ++ w :: after).dropLast := by
    simp [List.dropLast_append_of_ne_nil, List.dropLast_cons_of_ne_nil hne]
  rw [hws, List.dropLast_concat] at hpolled
  obtain ⟨-, hclear⟩ := (pollsOn_eq_true_iff p w).1 (hon w hpolled)
  cases hw.symm.trans hclear

/-- A poll reads a word with arbitration lost exactly when its last word has the bit. -/
theorem exists_arbLost_iff {p : Params} {polled : List Word} {last : Word} (hon : ∀ w ∈ polled, pollsOn p w = true) :
    (∃ w ∈ polled ++ [last], arbLost p w = true) ↔ arbLost p last = true := by
  refine ⟨fun ⟨w, hmem, hw⟩ => ?_, fun hlost => ⟨last, by simp, hlost⟩⟩
  obtain hpolled | rfl : w ∈ polled ∨ w = last := by simpa using hmem
  · obtain ⟨-, hclear⟩ := (pollsOn_eq_true_iff p w).1 (hon w hpolled)
    cases hw.symm.trans hclear
  · exact hw

/-- Settles O17: the outcome is `verdictOf` of the last word, whose first test is arbitration; the words before it have
the bit clear, or the loop had ended on them. -/
theorem waitReportsArbitrationLostExactlyOnItsBit : Obligations.WaitReportsArbitrationLostExactlyOnItsBit := by
  intro reqAck reqIdle s t hs hexec
  obtain ⟨hpoll, hresp⟩ := wait_next hs hexec
  refine ⟨?_, fun before w after hws hw => eq_nil_of_arbLost (hws ▸ hpoll) hw⟩
  obtain ⟨polled, last, hws, -, hon, -⟩ := hpoll
  rw [hresp, hws, waitVerdict, getLastD_append_one, Option.some.injEq, replyOf_eq_err_iff,
    verdictOf_eq_arbitrationLost_iff, exists_arbLost_iff hon]

/-- Settles O18: a timeout is a last word that lets the loop go on, which only the `MAX_RETRY`th can be; the words before
it all let it go on. -/
theorem waitTimesOutExactlyWhenTheBudgetIsSpent : Obligations.WaitTimesOutExactlyWhenTheBudgetIsSpent := by
  intro reqAck reqIdle s t hs hexec
  obtain ⟨⟨polled, last, hws, -, hon, hspent⟩, hresp⟩ := wait_next hs hexec
  simp only [hresp, Option.some.injEq, replyOf_eq_err_iff, hws, waitVerdict, getLastD_append_one,
    verdictOf_eq_timeout_iff, ← pollsOn_eq_true_iff]
  constructor
  · intro hlast
    exact ⟨hws ▸ hspent hlast, List.forall_mem_append.2 ⟨hon, List.forall_mem_singleton.2 hlast⟩⟩
  · intro ⟨_, hall⟩
    exact hall last (by simp)

/-! ## What an error carries -/

/-- A bus error of the engine: its identifier, and no name (R132). -/
def IsBusErr (p : Params) (e : Err) : Prop := ∃ kind, isBusError kind = true ∧ e = busErr p kind

/-- The error of a failed lookup: the engine's identifier and the name asked for (R131, R132). -/
def notFoundErr (p : Params) (n : DevName) : Err := { kind := .deviceNotFound, master := p.masterId, name := some n }

/-- Every error a status word decides is a bus error of the engine. -/
theorem verdictOf_error {p : Params} {reqAck reqIdle : Bool} {w : Word} {e : Err}
    (h : verdictOf p reqAck reqIdle w = .error e) : IsBusErr p e := by
  rw [verdictOf] at h
  split_ifs at h
  all_goals cases h
  all_goals exact ⟨_, rfl, rfl⟩

theorem writeSequence_error {p : Params} {bytes : List (Flags × Byte)} {h : Nat} {trace : List Event} {e : Err}
    (hseq : WriteSequence p bytes h trace (.error e)) : IsBusErr p e := by
  induction bytes generalizing h trace with
  | nil =>
    obtain ⟨-, hout⟩ := hseq
    cases hout
  | cons b rest ih =>
    obtain ⟨ws, more, -, -, hrest⟩ := hseq
    split at hrest
    · next hverdict =>
      obtain ⟨-, hout⟩ := hrest
      cases hout
      exact verdictOf_error hverdict
    · exact ih hrest

theorem readSequence_error {p : Params} {cmds : List Flags} {got : List Byte} {h : Nat} {trace : List Event} {e : Err}
    (hseq : ReadSequence p cmds got h trace (.error e)) : IsBusErr p e := by
  induction cmds generalizing got h trace with
  | nil =>
    obtain ⟨-, hout⟩ := hseq
    cases hout
  | cons cmd rest ih =>
    obtain ⟨ws, more, -, -, hrest⟩ := hseq
    split at hrest
    · next hverdict =>
      obtain ⟨-, hout⟩ := hrest
      cases hout
      exact verdictOf_error hverdict
    · obtain ⟨w, after, -, hafter⟩ := hrest
      exact ih hafter

section
variable {s : State} {e : Err} (hb : Between s) (hv : paramsValid s.params = true)
include hb hv

theorem waitOp_error {reqAck reqIdle : Bool} (h : (waitOp reqAck reqIdle s).2 = .error e) : IsBusErr s.params e := by
  obtain ⟨ws, t, -, -, -, -, hrun⟩ := waitOp_spec reqAck reqIdle hb hv
  rw [hrun] at h
  exact verdictOf_error h

theorem sendWriteOp_error {cmd : Flags} {data : Byte} (h : (sendWriteOp cmd data s).2 = .error e) :
    IsBusErr s.params e := by
  obtain ⟨ws, t, -, -, -, -, -, -, hrun⟩ := sendWriteOp_spec cmd data hb hv
  rw [hrun] at h
  exact verdictOf_error h

theorem sendReadOp_error {cmd : Flags} (h : (sendReadOp cmd s).2 = .error e) : IsBusErr s.params e := by
  obtain ⟨ws, t, tr, out, -, -, -, -, hrun, hout⟩ := sendReadOp_spec cmd hb hv
  rw [hrun] at h
  obtain rfl : out = .error e := h
  split at hout
  · next hverdict =>
    obtain ⟨-, hout, -⟩ := hout
    cases hout
    exact verdictOf_error hverdict
  · obtain ⟨w, -, hout, -⟩ := hout
    cases hout

theorem writeBlockOp_error {a : Addr7} {bytes : List Byte} {sendStop : Bool}
    (h : (writeBlockOp a bytes sendStop s).2 = .error e) : IsBusErr s.params e := by
  obtain ⟨hi, lo, ctrl, t, tr, out, hseq, -, -, hrun⟩ := writeBlockOp_spec a bytes sendStop hb hv
  rw [hrun] at h
  obtain rfl : out = .error e := h
  exact writeSequence_error hseq

theorem readBlockOp_error {a : Addr7} {count : Nat} (h : (readBlockOp a count s).2 = .error e) :
    IsBusErr s.params e := by
  obtain ⟨hi, lo, ctrl, ws, t, more, out, -, -, -, hrun, hout⟩ := readBlockOp_spec a count hb hv
  rw [hrun] at h
  obtain rfl : out = .error e := h
  split at hout
  · next hverdict =>
    obtain ⟨-, hout⟩ := hout
    cases hout
    exact verdictOf_error hverdict
  · exact readSequence_error hout

end

theorem getSlaveAddressOp_error {n : DevName} {s : State} {e : Err} (h : (getSlaveAddressOp n s).2 = .error e) :
    e = notFoundErr s.params n := by
  rw [getSlaveAddressOp] at h
  split at h <;> cases h
  rfl

theorem getSlaveOp_error {n : DevName} {s : State} {e : Err} (h : (getSlaveOp n s).2 = .error e) :
    e = notFoundErr s.params n := by
  rw [getSlaveOp] at h
  split at h <;> cases h
  rfl

/-! ## The error an instruction delivers -/

/-- The error delivered is the one the operation raised. -/
theorem raised_of_next {α : Type} {wrap : α → Val} {r : Run α} {t : State} {e : Err}
    (h : (.next (respond wrap r) : Host.Outcome State Fault Refusal) = .next t) (he : t.response = some (.err e)) :
    r.2 = .error e := by
  cases h
  exact (replyOf_eq_err_iff wrap r.2 e).1 (Option.some.inj he)

/-- A command byte has no outcome. -/
theorem command_response {s t : State} {v : State → Byte}
    (h : whenReady s (fun u => .next (commandOp (v u) u)) = .next t) : t.response = none := by
  obtain ⟨-, h⟩ := whenReady_next h
  cases h
  simp [commandOp, State.writeCommitted]

theorem execWriteBlock_error {addr : Nat} {bytes : List Byte} {sendStop : Bool} {s t : State} {e : Err}
    (hq : s.queue = []) (h : execWriteBlock addr bytes sendStop s = .next t) (he : t.response = some (.err e)) :
    IsBusErr s.params e := by
  obtain ⟨hr, h⟩ := whenReady_next h
  obtain ⟨-, -, h⟩ := whenBlockArgs_next h
  exact writeBlockOp_error (s := s.accept) (Between.accept hq) hr.params (raised_of_next h he)

theorem execReadBlock_error {addr count : Nat} {s t : State} {e : Err}
    (hq : s.queue = []) (h : execReadBlock addr count s = .next t) (he : t.response = some (.err e)) :
    IsBusErr s.params e := by
  obtain ⟨hr, h⟩ := whenReady_next h
  obtain ⟨-, -, h⟩ := whenBlockArgs_next h
  exact readBlockOp_error (s := s.accept) (Between.accept hq) hr.params (raised_of_next h he)

/-- Every error an instruction delivers is a bus error of the engine, or that of the lookup it is. -/
theorem exec_error {i : Instr} {s t : State} {e : Err} (hq : s.queue = []) (h : exec i s = .next t)
    (he : t.response = some (.err e)) :
    IsBusErr s.params e ∨ ∃ n, e = notFoundErr s.params n ∧ (i = .getSlaveAddress n ∨ i = .getSlave n) := by
  have hb : Between s.accept := Between.accept hq
  cases i with
  | configure ratio =>
    obtain ⟨-, h⟩ := whenReady_next (id h : execConfigure ratio s = .next t)
    cases raised_of_next h he
  | reset =>
    obtain ⟨-, h⟩ := whenReady_next (id h : execReset s = .next t)
    cases raised_of_next h he
  | sendWrite cmd data =>
    obtain ⟨hr, h⟩ := whenReady_next (id h : execSendWrite cmd data s = .next t)
    split at h
    · cases h
    · exact .inl (sendWriteOp_error (s := s.accept) hb hr.params (raised_of_next h he))
  | sendRead cmd =>
    obtain ⟨hr, h⟩ := whenReady_next (id h : execSendRead cmd s = .next t)
    split at h
    · cases h
    · exact .inl (sendReadOp_error (s := s.accept) hb hr.params (raised_of_next h he))
  | wait reqAck reqIdle =>
    obtain ⟨hr, h⟩ := whenReady_next (id h : execWait reqAck reqIdle s = .next t)
    exact .inl (waitOp_error (s := s.accept) hb hr.params (raised_of_next h he))
  | writeBlock addr bytes sendStop => exact .inl (execWriteBlock_error hq h he)
  | readBlock addr count => exact .inl (execReadBlock_error hq h he)
  | ping addr =>
    obtain ⟨hr, h⟩ := whenReady_next (id h : execPing addr s = .next t)
    split at h
    · obtain ⟨u, tr, answer, -, -, -, hrun⟩ := pingOp_spec (addrOfArg addr) hb hr.params
      cases hrun ▸ raised_of_next h he
    · cases h
  | scan =>
    obtain ⟨hr, h⟩ := whenReady_next (id h : execScan s = .next t)
    obtain ⟨u, tr, found, -, -, -, hrun⟩ :=
      scanLoop_spec (List.range (s.accept.params.scanLast.toNat + 1)) [] hb hr.params
    cases (congrArg Prod.snd hrun).symm.trans (raised_of_next h he)
  | getSlaveAddress n =>
    obtain ⟨-, h⟩ := whenReady_next (id h : execGetSlaveAddress n s = .next t)
    exact .inr ⟨n, getSlaveAddressOp_error (s := s.accept) (raised_of_next h he), .inl rfl⟩
  | getSlave n =>
    obtain ⟨-, h⟩ := whenReady_next (id h : execGetSlave n s = .next t)
    exact .inr ⟨n, getSlaveOp_error (s := s.accept) (raised_of_next h he), .inr rfl⟩
  | slaveWriteBlock hd bytes sendStop => exact .inl (execWriteBlock_error hq h he)
  | slaveReadBlock hd count => exact .inl (execReadBlock_error hq h he)
  | cmdZero => cases (command_response (id h : execCmdZero s = .next t)).symm.trans he
  | cmdWrite sta sto ack => cases (command_response (id h : execCmdWrite sta sto ack s = .next t)).symm.trans he
  | cmdRead sta sto ack => cases (command_response (id h : execCmdRead sta sto ack s = .next t)).symm.trans he

/-- Settles O48: both forms of an error carry the engine's identifier; the bus errors have no name, and the other is the
lookup's own. -/
theorem errorsCarryTheirContext : Obligations.ErrorsCarryTheirContext := by
  intro i s t e hq hexec he
  obtain ⟨kind, hbus, rfl⟩ | ⟨n, rfl, hi⟩ := exec_error hq hexec he
  · exact ⟨rfl, fun _ => rfl, fun hnot => absurd (hnot.symm.trans hbus) Bool.false_ne_true⟩
  · exact ⟨rfl, fun hbus => absurd hbus Bool.false_ne_true, fun _ => ⟨n, rfl, hi⟩⟩

end Sys2Proof.Machine
end

section
/-! PROOFS. The encodings (30_encoding.md): command bytes and requests decode to what was encoded and encode to what was
decoded; address bytes, prescale bytes, and the masks the model takes. -/

namespace Sys2Proof.Machine

/-! ## Command bytes -/

/-- A byte with one of its flags set is not 0. -/
theorem flagsByte_ne_zero {p : Params} (m : CommandMasks p) {f : Flags} (h : (f.rd || f.wr) = true) :
    flagsByte p f ≠ 0 := by
  intro hzero
  have hf := flagsOfByte_flagsByte m f
  rw [hzero] at hf
  rw [← hf] at h
  simp [flagsOfByte] at h

/-- The byte of a set of flags decodes by its two direction flags (R65). -/
theorem decodeCommand_flagsByte {p : Params} (m : CommandMasks p) (sta sto ack : Bool) :
    decodeCommand p (flagsByte p ⟨sta, sto, false, true, ack⟩) = .ok (.cmdWrite sta sto ack) ∧
      decodeCommand p (flagsByte p ⟨sta, sto, true, false, ack⟩) = .ok (.cmdRead sta sto ack) := by
  constructor <;> rw [decodeCommand, if_neg (flagsByte_ne_zero m rfl)] <;> simp [flagsOfByte_flagsByte m]

/-- A byte that decodes is what the encoder gives (R65). -/
theorem encode_of_decodeCommand {p : Params} {v : Byte} {i : Instr} (h : decodeCommand p v = .ok i) :
    encode p i = .command v := by
  rw [decodeCommand] at h
  split at h
  · next hzero => cases h; rw [hzero]; rfl
  · generalize flagsOfByte p v = f at h
    simp only at h
    split at h
    · next hbyte =>
      subst hbyte
      split at h <;> cases h
      · next hrd hwr => rw [encode, writeCommand_eq, flagsByte, flagsByte, hrd, hwr]
      · next hrd hwr => rw [encode, readCommand_eq, flagsByte, flagsByte, hrd, hwr]
    · cases h

/-! ## Requests -/

/-- A request that decodes is what the encoder gives, but for a `sendStop` left out (R61, R76). -/
theorem encode_of_decodeRequest (p : Params) {code : Byte} {args : List Arg} {i : Instr}
    (h : decodeRequest code args = .ok i) :
    encode p i = .request code args ∨ encode p i = .request code (args ++ [.bool true]) := by
  have hcode : ∀ {c : Nat}, code.toNat = c → BitVec.ofNat 8 c = code := fun hc => by simp [← hc]
  unfold decodeRequest at h
  split at h
  case h_16 => split at h <;> cases h
  case h_7 hc => cases h; exact .inr (by rw [← hcode hc]; rfl)
  case h_14 hc => cases h; exact .inr (by rw [← hcode hc]; rfl)
  all_goals
    next hc => cases h; exact .inl (by rw [← hcode hc]; rfl)

/-- Settles O1: a request's code and typed arguments are its own, and the flags of a command byte are those it was made
of, since no two masks share a bit. -/
theorem decodeOfEncodeIsTheInstruction : Obligations.DecodeOfEncodeIsTheInstruction := by
  intro p i hp
  cases i with
  | cmdWrite sta sto ack =>
    rw [encode, writeCommand_eq]
    exact (decodeCommand_flagsByte (commandMasks_of_valid hp) sta sto ack).1
  | cmdRead sta sto ack =>
    rw [encode, readCommand_eq]
    exact (decodeCommand_flagsByte (commandMasks_of_valid hp) sta sto ack).2
  | _ => rfl

/-- Settles O2: by the cases of the two decoders. -/
theorem encodeOfDecodeIsThePresentation : Obligations.EncodeOfDecodeIsThePresentation :=
  ⟨fun _ _ _ _ h => encode_of_decodeCommand h, fun p _ _ _ h => encode_of_decodeRequest p h⟩

/-- Settles O3: the 256 bytes, one by one. -/
theorem commandBytesAreTheTablesOwn : Obligations.CommandBytesAreTheTablesOwn := by
  unfold Obligations.CommandBytesAreTheTablesOwn
  decide

/-- Settles O4: seven words, decoded. -/
theorem tableWordsDecode : Obligations.TableWordsDecode := by
  unfold Obligations.TableWordsDecode
  decide

/-! ## Address and prescale bytes -/

/-- Settles O6: the shift leaves bit 0 clear for the direction bit, and 7 bits shifted by one fit a byte. -/
theorem addressByteIsTwiceTheAddressPlusDirection : Obligations.AddressByteIsTwiceTheAddressPlusDirection := by
  unfold Obligations.AddressByteIsTwiceTheAddressPlusDirection
  decide

/-- The latched prescale as a number (R70). -/
theorem latchedPrescale_toNat (hi lo : Word) : (latchedPrescale hi lo).toNat = 256 * (hi % 256) + lo % 256 := by
  have hlo : lo % 256 < 2 ^ 8 := Nat.mod_lt _ (by decide)
  have hhi : hi % 256 < 2 ^ 8 := Nat.mod_lt _ (by decide)
  have hor : (hi % 256) <<< 8 ||| lo % 256 = 256 * (hi % 256) + lo % 256 := by
    rw [← Nat.shiftLeft_add_eq_or_of_lt hlo, Nat.shiftLeft_eq, Nat.mul_comm]
  simp only [latchedPrescale, lowByte, Config.prescaleW, BitVec.toNat_or, BitVec.toNat_shiftLeft, BitVec.toNat_setWidth,
    BitVec.toNat_ofNat]
  rw [← hor, Nat.mod_eq_of_lt (a := hi % 2 ^ 8) (by omega), Nat.mod_eq_of_lt (a := lo % 2 ^ 8) (by omega),
    Nat.mod_eq_of_lt (by rw [Nat.shiftLeft_eq]; omega)]

/-- Settles O7: the two bytes of a prescale are its quotient and its remainder by 256. -/
theorem prescaleSplitsAndAssembles : Obligations.PrescaleSplitsAndAssembles := by
  refine ⟨fun ps => BitVec.eq_of_toNat_eq ?_, latchedPrescale_toNat⟩
  have hps : ps.toNat < 2 ^ 16 := ps.isLt
  rw [latchedPrescale_toNat]
  simp only [wordOfByte, prescaleHigh, prescaleLow, BitVec.extractLsb'_toNat, Nat.shiftRight_eq_div_pow]
  omega

/-! ## The masks the model takes -/

theorem isSingleBit_iff : ∀ m : Byte, isSingleBit m = true ↔ ∃ k < 8, m = 1 <<< k := by decide

theorem allDistinct_iff (ms : List Byte) : allDistinct ms = true ↔ ms.Nodup := by
  induction ms with
  | nil => simp [allDistinct]
  | cons m ms ih => simp [allDistinct, ih]

/-- The masks of one register are single bits, each once (R7). -/
theorem goodMasks_iff (ms : List Byte) : goodMasks ms = true ↔ (∀ m ∈ ms, ∃ k < 8, m = 1 <<< k) ∧ ms.Nodup := by
  rw [goodMasks, Bool.and_eq_true, List.all_eq_true, allDistinct_iff]
  simp only [isSingleBit_iff]

/-- Settles O9: the two mask conditions, the retry budget and the width, in the order `paramsValid` tests them. -/
theorem parametersTakenHaveDistinctSingleBitMasks : Obligations.ParametersTakenHaveDistinctSingleBitMasks := by
  intro p
  simp only [paramsValid, Bool.and_eq_true, decide_eq_true_eq, goodMasks_iff, and_assoc]

end Sys2Proof.Machine
end

section
/-! PROOFS. Whole instructions: each is `whenReady` of its own body, which is what `exec` runs on the accepted state of a ready
engine. The faults of an engine that is not ready, the illegal forms, the lookups and the pseudo-requests follow. -/

namespace Sys2Proof.Machine

/-- What an instruction does once it is accepted. -/
def instrBody (i : Instr) (s : State) : Host.Outcome State Fault Refusal :=
  match i with
  | .configure ratio => .next (respond unitVal (configureOp ratio s))
  | .reset => .next (respond unitVal (resetOp s))
  | .sendWrite cmd data => if cmd.rd then .fault .precondWriteHasRd else .next (respond unitVal (sendWriteOp cmd data s))
  | .sendRead cmd => if cmd.wr then .fault .precondReadHasWr else .next (respond Val.byte (sendReadOp cmd s))
  | .wait reqAck reqIdle => .next (respond unitVal (waitOp reqAck reqIdle s))
  | .writeBlock addr bytes sendStop =>
    whenBlockArgs addr bytes.isEmpty fun a => .next (respond unitVal (writeBlockOp a bytes sendStop s))
  | .readBlock addr count => whenBlockArgs addr (count == 0) fun a => .next (respond Val.bytes (readBlockOp a count s))
  | .ping addr => if addrFits addr then .next (respond Val.bool (pingOp (addrOfArg addr) s)) else .fault .addrRange
  | .scan => .next (respond Val.addrs (scanOp s))
  | .getSlaveAddress n => .next (respond Val.addr (getSlaveAddressOp n s))
  | .getSlave n => .next (respond Val.handle (getSlaveOp n s))
  | .slaveWriteBlock h bytes sendStop =>
    whenBlockArgs h.addr.toNat bytes.isEmpty fun a => .next (respond unitVal (writeBlockOp a bytes sendStop s))
  | .slaveReadBlock h count =>
    whenBlockArgs h.addr.toNat (count == 0) fun a => .next (respond Val.bytes (readBlockOp a count s))
  | .cmdZero => .next (commandOp 0 s)
  | .cmdWrite sta sto ack => .next (commandOp (writeCommand s.params { sta := sta, sto := sto, ack := ack }) s)
  | .cmdRead sta sto ack => .next (commandOp (readCommand s.params { sta := sta, sto := sto, ack := ack }) s)

theorem exec_eq_whenReady (i : Instr) (s : State) : exec i s = whenReady s (instrBody i) := by
  cases i <;> rfl

/-- A ready engine runs the body on the accepted state. -/
theorem exec_of_ready (i : Instr) {s : State} (hs : s.Ready) : exec i s = instrBody i s.accept := by
  rw [exec_eq_whenReady, whenReady_of_ready hs]

/-! ## Engines that are not ready -/

/-- Parameters the model does not take fault first (log entry 34). -/
theorem whenReady_of_badParams {s : State} (h : paramsValid s.params = false)
    (k : State → Host.Outcome State Fault Refusal) : whenReady s k = .fault .badParameter := by
  rw [whenReady, h]; rfl

/-- An engine in an operation takes no other (R23). -/
theorem whenReady_of_busy {s : State} (hv : paramsValid s.params = true) (hb : s.seq ≠ .idle)
    (k : State → Host.Outcome State Fault Refusal) : whenReady s k = .fault .concurrentRequest := by
  have hidle : s.seq.isIdle = false := by
    cases hs : s.seq with
    | idle => exact absurd hs hb
    | running f cs => rfl
  rw [whenReady, if_pos hv, hidle]; rfl

/-- Settles O50: construction, `whenReady` and `advance` test the parameters first. -/
theorem parametersNotTakenAreRefused : Obligations.ParametersNotTakenAreRefused := by
  intro p hp
  refine ⟨fun ratio mapping => ?_, fun i s hs => ⟨?_, ?_⟩⟩
  · rw [construct, hp]; rfl
  · rw [exec_eq_whenReady, whenReady_of_badParams (hs ▸ hp)]
  · rw [step, advance, hs, hp]; rfl

/-- Settles O51: `whenReady` refuses a busy engine, and so does the port a caller that does not wait. -/
theorem concurrentRequestsFault : Obligations.ConcurrentRequestsFault := by
  refine ⟨fun i s hv hb => ?_, fun s w rest hv hb hport => ?_⟩
  · rw [exec_eq_whenReady, whenReady_of_busy hv hb]
  · rw [step, advance, if_pos hv]
    split
    · rw [intruded, hport]; rfl
    · next hidle => exact absurd hidle hb

/-- What an idle engine does with what its port gives. -/
def onFetched (s : State) : Fetched → Host.Outcome State Fault Refusal
  | .waiting => .next s
  | .instr i t => runFetched i t
  | .fault r => .fault r
  | .refused r => .refused r

/-- A step of a ready engine is what its port gives. -/
theorem step_of_ready {s : State} (hs : s.Ready) : step s = onFetched s (fetch s) := by
  rw [step, advance, if_pos hs.params]
  split
  · next hseq => cases hs.idle.symm.trans hseq
  · cases fetch s <;> rfl

/-! ## Illegal forms -/

theorem whenBlockArgs_of_range {addr : Nat} (h : 0x7F < addr) (isEmpty : Bool)
    (k : Addr7 → Host.Outcome State Fault Refusal) : whenBlockArgs addr isEmpty k = .fault .addrRange := by
  simp [whenBlockArgs, addrFits, Nat.not_le.2 h]

theorem whenBlockArgs_of_empty {addr : Nat} (h : addr ≤ 0x7F) (k : Addr7 → Host.Outcome State Fault Refusal) :
    whenBlockArgs addr true k = .fault .emptyBlock := by
  simp [whenBlockArgs, addrFits, h]

theorem whenBlockArgs_of_legal {addr : Nat} (h : addr ≤ 0x7F) (k : Addr7 → Host.Outcome State Fault Refusal) :
    whenBlockArgs addr false k = k (BitVec.ofNat 7 addr) := by
  simp [whenBlockArgs, addrFits, h, addrOfArg]

/-- The address of a handle is in range. -/
theorem handleAddr_le (h : SlaveHandle) : h.addr.toNat ≤ 0x7F := Nat.le_of_lt_succ h.addr.isLt

/-- A code outside R61's table decodes to nothing. -/
theorem decodeRequest_of_badCode {code : Byte} (args : List Arg) (h : code = 0 ∨ 0x0E ≤ code.toNat) :
    decodeRequest code args = .error (.badCode code) := by
  have hcode : ¬(1 ≤ code.toNat ∧ code.toNat ≤ 0x0D) := by
    rintro ⟨h1, h2⟩
    obtain rfl | h := h
    · simp at h1
    · omega
  unfold decodeRequest
  split
  case h_16 => rw [if_neg hcode]
  all_goals next hc => exact absurd (by omega) hcode

/-- The reserved bits of a command byte are not in the default masks. -/
theorem reserved_bits_clear : ∀ sta sto rd wr ack : Bool,
    writeCommand Config.defaults ⟨sta, sto, rd, wr, ack⟩ &&& 0x07 = 0 ∧
      readCommand Config.defaults ⟨sta, sto, rd, wr, ack⟩ &&& 0x07 = 0 := by decide

/-- Settles O8: each form has its own test in the body of its instruction, and a code outside the table its own in the
decoder. -/
theorem illegalFormsFault : Obligations.IllegalFormsFault := by
  refine ⟨fun s cmd data hs hrd => ?_, fun s cmd hs hwr => ?_, fun s addr bytes stop count hs ha => ⟨?_, ?_, ?_⟩,
    fun s addr stop hs ha => ⟨?_, ?_⟩, fun s h stop hs => ⟨?_, ?_⟩, fun s code args serialized rest hs hport hcode => ?_,
    fun f => reserved_bits_clear ..⟩
  · rw [exec_of_ready _ hs, instrBody, if_pos hrd]
  · rw [exec_of_ready _ hs, instrBody, if_pos hwr]
  · rw [exec_of_ready _ hs, instrBody, whenBlockArgs_of_range ha]
  · rw [exec_of_ready _ hs, instrBody, whenBlockArgs_of_range ha]
  · have hfit : addrFits addr = false := by simpa [addrFits] using ha
    rw [exec_of_ready _ hs, instrBody, hfit]; rfl
  · rw [exec_of_ready _ hs, instrBody, List.isEmpty_nil, whenBlockArgs_of_empty ha]
  · rw [exec_of_ready _ hs, instrBody, beq_self_eq_true, whenBlockArgs_of_empty ha]
  · rw [exec_of_ready _ hs, instrBody, List.isEmpty_nil, whenBlockArgs_of_empty (handleAddr_le h)]
  · rw [exec_of_ready _ hs, instrBody, beq_self_eq_true, whenBlockArgs_of_empty (handleAddr_le h)]
  · have hfetch : fetch s = .fault .badRequest := by
      rw [fetch, hport]
      simp only [decode, decodeRequest_of_badCode args hcode]
    rw [step_of_ready hs, hfetch]; rfl

/-! ## Operations without a register operation -/

/-- Settles O10: the body of `CONFIGURE` on the accepted state, field by field. -/
theorem configureStoresThePrescale : Obligations.ConfigureStoresThePrescale := by
  intro ratio s hs
  rw [exec_of_ready _ hs]
  simp [instrBody, configureOp, returning, respond, replyOf, unitVal, State.accept, State.setPrescale, State.finish,
    State.withReply, State.undefine, hs.idle]

/-- A reply delivered on the accepted state of an idle engine. -/
theorem accept_finish {s : State} (hs : s.Ready) (reply : Reply) : s.accept.finish reply = s.withReply reply := by
  simp [State.accept, State.finish, State.withReply, State.undefine, hs.idle]

/-- Settles O33: by the two outcomes of the lookup. -/
theorem getSlaveAddressLooksTheNameUp : Obligations.GetSlaveAddressLooksTheNameUp := by
  intro n s hs
  rw [exec_of_ready _ hs, instrBody, respond, getSlaveAddressOp, accept_registry]
  cases lookup n s.registry with
  | none => exact congrArg _ (accept_finish hs _)
  | some a => exact congrArg _ (accept_finish hs _)

/-- `GET_SLAVE` delivers what the name looks up to in the handles. -/
theorem exec_getSlave_of_ready (n : DevName) {s : State} (hs : s.Ready) :
    exec (.getSlave n) s = .next (s.withReply
      ((lookup n s.slaves).elim (.err (notFoundErr s.params n)) fun h => .ok (.handle h))) := by
  rw [exec_of_ready _ hs, instrBody, respond, getSlaveOp, accept_slaves]
  cases lookup n s.slaves with
  | none => exact congrArg _ (accept_finish hs _)
  | some h => exact congrArg _ (accept_finish hs _)

/-- Every entry has its handle: this Master and the entry's address (R121). -/
theorem lookup_buildSlaves (p : Params) (n : DevName) (reg : List (DevName × Addr7)) :
    lookup n (buildSlaves p reg) = (lookup n reg).map fun a => { master := p.masterId, addr := a } := by
  induction reg with
  | nil => rfl
  | cons e reg ih =>
    rw [buildSlaves, List.map_cons, lookup, lookup]
    split
    · rfl
    · exact ih

/-- Settles O34: the handles are those built from the registry. -/
theorem getSlaveGivesTheHandleOfTheName : Obligations.GetSlaveGivesTheHandleOfTheName := by
  intro n s hs hr
  rw [exec_getSlave_of_ready n hs, hr.handles, lookup_buildSlaves]
  cases lookup n s.registry <;> rfl

/-! ## Handles and pseudo-requests -/

/-- A write block with legal arguments completes. -/
theorem exec_writeBlock_of_ready {addr : Nat} {bytes : List Byte} (sendStop : Bool) {s : State} (hs : s.Ready)
    (ha : addr ≤ 0x7F) (hb : bytes ≠ []) : exec (.writeBlock addr bytes sendStop) s =
      .next (respond unitVal (writeBlockOp (BitVec.ofNat 7 addr) bytes sendStop s.accept)) := by
  rw [exec_of_ready _ hs, instrBody, List.isEmpty_eq_false_iff.2 hb, whenBlockArgs_of_legal ha]

/-- A read block with legal arguments completes. -/
theorem exec_readBlock_of_ready {addr count : Nat} {s : State} (hs : s.Ready) (ha : addr ≤ 0x7F) (hc : 1 ≤ count) :
    exec (.readBlock addr count) s =
      .next (respond Val.bytes (readBlockOp (BitVec.ofNat 7 addr) count s.accept)) := by
  have hne : (count == 0) = false := by simpa using Nat.one_le_iff_ne_zero.1 hc
  rw [exec_of_ready _ hs, instrBody, hne, whenBlockArgs_of_legal ha]

/-- Settles O35: a handle's operation is the block operation at its address, which is in range. -/
theorem slaveOperationsDelegateToTheAddress : Obligations.SlaveOperationsDelegateToTheAddress := by
  refine ⟨fun h bytes sendStop s hs hb => ?_, fun h count s hs hc => ?_⟩
  · exact ⟨_, exec_writeBlock_of_ready sendStop hs.toReady (handleAddr_le h) hb,
      exec_writeBlock_of_ready sendStop hs.toReady (handleAddr_le h) hb⟩
  · exact ⟨_, exec_readBlock_of_ready hs.toReady (handleAddr_le h) hc,
      exec_readBlock_of_ready hs.toReady (handleAddr_le h) hc⟩

/-- A name that has a handle runs the request at it; one that has none ends in DeviceNotFound (R76). -/
theorem throughName_of_ready (n : DevName) (k : SlaveHandle → Instr) {s : State} (hs : s.Ready) :
    (∀ h, lookup n s.slaves = some h → throughName n k s = exec (k h) (s.withReply (.ok (.handle h)))) ∧
      (lookup n s.slaves = none → throughName n k s = .next (s.withReply (.err (notFoundErr s.params n)))) := by
  refine ⟨fun h hh => ?_, fun hh => ?_⟩ <;> rw [throughName, exec_getSlave_of_ready n hs, hh] <;> rfl

/-- Settles O36: both pseudo-requests are `throughName`, and a handle's request is the block request at its address. -/
theorem pseudoRequestsExpand : Obligations.PseudoRequestsExpand := by
  refine ⟨fun n h bytes sendStop count s hs hh => ⟨?_, ?_⟩, fun n bytes sendStop count s hs hh => ⟨?_, ?_⟩⟩
  · exact (throughName_of_ready n _ hs).1 h hh
  · exact (throughName_of_ready n _ hs).1 h hh
  · exact (throughName_of_ready n _ hs).2 hh
  · exact (throughName_of_ready n _ hs).2 hh

/-! ## The port -/

/-- Settles O56: `fetch` of an empty port waits. -/
theorem idleEngineWaits : Obligations.IdleEngineWaits := by
  intro s hs hport
  have hfetch : fetch s = .waiting := by rw [fetch, hport]
  rw [step_of_ready hs, hfetch]; rfl

/-- An idle engine runs what is presented, if it decodes. -/
theorem step_of_decoded {s : State} {w : Presentation} {rest : List Presentation} {i : Instr} (hs : s.Ready)
    (hport : s.port = w :: rest) (hdec : decode s.params w.what = .ok i) :
    step s = runFetched i { s with port := rest } := by
  have hfetch : fetch s = .instr i { s with port := rest } := by
    rw [fetch, hport]
    simp only [hdec]
  rw [step_of_ready hs, hfetch]; rfl

/-- A caller breaks in exactly when the next presentation is one whose caller does not wait. -/
theorem intruded_eq_true_iff (s : State) : intruded s = true ↔ ∃ w ∈ s.port.head?, w.serialized = false := by
  rw [intruded]
  split
  · next hnil => simp [hnil]
  · next hcons => simp [hcons]

theorem intruded_eq_false {s : State} (h : ∀ w ∈ s.port.head?, w.serialized = true) : intruded s = false := by
  rw [Bool.eq_false_iff, Ne, intruded_eq_true_iff]
  rintro ⟨w, hw, hnot⟩
  cases hnot.symm.trans (h w hw)

/-- A request taken whole runs, unless a second caller breaks in (log entry 12). -/
theorem runFetched_whole {i : Instr} {s : State} (hreq : isRequest i = true) (hpace : s.pace = .whole) :
    runFetched i s = if intruded s then .fault .concurrentRequest else exec i s := by
  rw [runFetched, if_pos hreq]
  split
  · rfl
  · next hline => cases hpace.symm.trans hline

/-- A request taken line by line is accepted (log entry 4). -/
theorem runFetched_line {i : Instr} {s : State} (hreq : isRequest i = true) (hpace : s.pace = .line) :
    runFetched i s = startRequest i s := by
  rw [runFetched, if_pos hreq]
  split
  · next hwhole => cases hpace.symm.trans hwhole
  · rfl

/-- Settles O54: by the three cases of `runFetched`. -/
theorem stepRunsTheDecodedInstruction : Obligations.StepRunsTheDecodedInstruction := by
  intro s w rest i hs hport hdec
  rw [step_of_decoded hs hport hdec]
  refine ⟨fun hreq => by rw [runFetched, hreq]; rfl, fun hreq hpace => ?_⟩
  have hrun := runFetched_whole (s := { s with port := rest }) hreq hpace
  refine ⟨fun halone => ?_, fun hbreak => ?_⟩
  · rw [hrun, intruded_eq_false (s := { s with port := rest }) halone]; rfl
  · rw [hrun, (intruded_eq_true_iff { s with port := rest }).2 hbreak]; rfl

/-- A busy engine executes a line, if no second caller breaks in. -/
theorem step_of_running {s : State} {f : Frame} {cs : List Frame} (hv : paramsValid s.params = true)
    (hseq : s.seq = .running f cs) (halone : ∀ w ∈ s.port.head?, w.serialized = true) : step s = tick s := by
  rw [step, advance, if_pos hv]
  split
  · rw [intruded_eq_false halone]; rfl
  · next hidle => cases hseq.symm.trans hidle

/-- Settles O55: `runFetched` accepts a request at its first line, and `advance` of a busy engine is its line. -/
theorem stepMovesTheSequencerByOneLine : Obligations.StepMovesTheSequencerByOneLine := by
  refine ⟨fun s w rest i hs hpace hport hdec hreq => ?_, fun s f callers hv hseq halone => ?_⟩
  · have hs' : State.Ready { s with port := rest } := ⟨hs.params, hs.idle⟩
    have hrun := runFetched_line (s := { s with port := rest }) hreq hpace
    rw [step_of_decoded hs hport hdec, hrun, startRequest, whenReady_of_ready hs']
    rfl
  · rw [step_of_running hv hseq halone, tick, hseq]
    exact if_pos hv

end Sys2Proof.Machine
end

section
/-! PROOFS. The Register Interface's commit (20_memory.md R43): what it applies, which handles it resolves, and the form of
the register memory it keeps. -/

namespace Sys2Proof.Machine

/-- The handles a queue owes values for, in order. -/
def readHandles (queue : List QueueOp) : List Nat :=
  queue.filterMap fun op =>
    match op with
    | .read _ h => some h
    | .write _ _ => none

/-- Every read of the queue is resolved, in order. -/
theorem applyAll_handles (ops : List QueueOp) (s : State) : (applyAll ops s).2.map Prod.fst = readHandles ops := by
  induction ops generalizing s with
  | nil => rfl
  | cons op ops ih =>
    cases op with
    | write r v => exact ih _
    | read r h => exact congrArg (h :: ·) (ih _)

/-- A value of a handle the queue does not owe changes nothing of what is applied. -/
theorem appliedBy_cons_of_not_mem {ops : List QueueOp} {h : Nat} (w : Word) (vals : List (Nat × Word))
    (hh : h ∉ readHandles ops) : appliedBy ops ((h, w) :: vals) = appliedBy ops vals := by
  refine List.filterMap_congr fun op hop => ?_
  cases op with
  | write r v => rfl
  | read r k =>
    have hne : h ≠ k := fun he => hh (List.mem_filterMap.2 ⟨_, hop, by rw [he]⟩)
    simp [lookup, hne]

/-- The device sees the queue in order, each read with the value resolved for its handle. -/
theorem applyAll_history (ops : List QueueOp) (s : State) (hn : (readHandles ops).Nodup) :
    (applyAll ops s).1.history = s.history ++ appliedBy ops (applyAll ops s).2 := by
  induction ops generalizing s with
  | nil => exact (List.append_nil _).symm
  | cons op ops ih =>
    cases op with
    | write r v =>
      refine (ih (s.applyWrite r v) hn).trans ?_
      rw [applyWrite_history, List.append_assoc]
      rfl
    | read r h =>
      obtain ⟨hh, hn⟩ := List.nodup_cons.1 (show (h :: readHandles ops).Nodup from hn)
      refine (ih (s.takeAnswer r) hn).trans ?_
      rw [takeAnswer_history, List.append_assoc, ← appliedBy_cons_of_not_mem (s.nextAnswer r) _ hh]
      simp [applyAll, appliedBy, lookup]

/-- Settles O53: the loop of the commit applies its queue in order and resolves the handles of its reads. -/
theorem commitAppliesTheQueueInOrder : Obligations.CommitAppliesTheQueueInOrder := by
  intro s hn
  refine ⟨(applyAll s.queue s).2, ?_, applyAll_history s.queue s hn, rfl, ?_, applyAll_handles s.queue s⟩
  · simp [State.commit]
  · simp [State.commit]

/-! ## Handles resolved -/

theorem lookup_isSome_iff {κ α : Type} [DecidableEq κ] (k : κ) (l : List (κ × α)) :
    (lookup k l).isSome = true ↔ k ∈ l.map Prod.fst := by
  induction l with
  | nil => simp [lookup]
  | cons e l ih =>
    rw [lookup, List.map_cons, List.mem_cons, ← ih]
    by_cases h : e.1 = k
    · simp [h]
    · simp [h, Ne.symm h]

theorem mem_of_lookup {κ α : Type} [DecidableEq κ] {k : κ} {a : α} {l : List (κ × α)} (h : lookup k l = some a) :
    (k, a) ∈ l := by
  induction l with
  | nil => cases h
  | cons e l ih =>
    rw [lookup] at h
    split at h
    · next hk => cases h; subst hk; exact List.mem_cons_self
    · exact List.mem_cons_of_mem _ (ih h)

theorem commit_resolved (s : State) : s.commit.resolved = s.resolved ++ (applyAll s.queue s).2 := by
  simp [State.commit]

/-- A commit resolves every read of its queue (R43). -/
theorem commit_resolvedValue_isSome {s : State} {r : Reg} {h : Nat} (hq : QueueOp.read r h ∈ s.queue) :
    (s.commit.resolvedValue h).isSome = true := by
  rw [State.resolvedValue, lookup_isSome_iff, commit_resolved, List.map_append, applyAll_handles]
  exact List.mem_append_right _ (List.mem_filterMap.2 ⟨_, hq, rfl⟩)

theorem applyAll_wf (ops : List QueueOp) {s : State} (h : s.regs.wf = true) : (applyAll ops s).1.regs.wf = true := by
  induction ops generalizing s with
  | nil => exact h
  | cons op ops ih =>
    cases op with
    | write r v => exact ih (Memory.wf_write _ _ _ h)
    | read r k => exact ih h

end Sys2Proof.Machine
end

section
/-! PROOFS. What keeps the invariant (Safety.lean). What a line writes keeps the part that does not speak of the
position (`Sound`); where it goes next is right again because what is pending and what is resolved there is what the line
has just enqueued, committed or left alone (`AtLine`). A whole request is a stretch of Laws/Interface.lean. -/

namespace Sys2Proof.Machine

/-- If the outcome is a next state, it has the property. -/
def Onward (P : State → Prop) : Host.Outcome State Fault Refusal → Prop
  | .next t => P t
  | .fault _ => True
  | .refused _ => True

section
variable {P : State → Prop}

@[simp] theorem onward_next (t : State) : Onward P (.next t) ↔ P t := Iff.rfl

@[simp] theorem onward_fault (r : Fault) : Onward P (.fault r) := trivial

@[simp] theorem onward_refused (r : Refusal) : Onward P (.refused r) := trivial

@[simp] theorem onward_noLine (f : Frame) : Onward P (noLine f) := trivial

theorem onward_ite {c : Prop} [Decidable c] {a b : Host.Outcome State Fault Refusal} (ha : c → Onward P a)
    (hb : ¬c → Onward P b) : Onward P (if c then a else b) := by
  split
  · next h => exact ha h
  · next h => exact hb h

/-- A value used is one a commit has resolved. -/
theorem onward_withVal {s : State} {h : Nat} {k : Word → Host.Outcome State Fault Refusal}
    (hk : ∀ w, (h, w) ∈ s.resolved → Onward P (k w)) : Onward P (withVal s h k) := by
  rw [withVal]
  split
  · next hw => exact hk _ (mem_of_lookup hw)
  · trivial

end

/-! ## The part that does not speak of the position -/

/-- The invariant but for what it says of the sequencer position, on a machine whose words are bytes at least. -/
structure Sound (s : State) : Prop where
  width    : 8 ≤ s.params.regWidth
  memory   : s.regs.wf = true
  registry : RegistryRight s
  words    : WordsFit s
  attempt  : 1 ≤ s.attempt ∧ s.attempt ≤ s.params.maxRetry + 1

theorem Sound.of_inv {s : State} (hv : paramsValid s.params = true) (h : s.Inv) : Sound s :=
  ⟨regWidth_of_valid hv, h.memory, h.registry, h.words, h.attempt.1, h.attempt.2.1⟩

section
variable {s : State}

theorem Sound.memWrite (h : Sound s) (r : Reg) {v : Word} (hv : isWord s.params v) : Sound (s.memWrite r v) :=
  { h with registry := { h.registry with }, words := h.words.memWrite r hv }

@[simp] theorem Sound.memWrite_byte (h : Sound s) (r : Reg) (b : Byte) : Sound (s.memWrite r (wordOfByte b)) :=
  h.memWrite r (wordOfByte_isWord h.width b)

@[simp] theorem Sound.memWrite_zero (h : Sound s) (r : Reg) : Sound (s.memWrite r 0) :=
  h.memWrite_byte r 0

@[simp] theorem Sound.memRead (h : Sound s) (r : Reg) : Sound (s.memRead r) :=
  { h with registry := { h.registry with }, words := h.words.memRead r }

@[simp] theorem Sound.commit (h : Sound s) : Sound s.commit where
  width := by simpa using h.width
  memory := applyAll_wf s.queue h.memory
  registry := ⟨by simpa using h.registry.unique, by simpa using h.registry.handles⟩
  words := h.words.commit
  attempt := by simpa using h.attempt

@[simp] theorem Sound.sleep (h : Sound s) : Sound s.sleep :=
  { h with registry := { h.registry with }, words := { h.words with } }

@[simp] theorem Sound.setPrescale (h : Sound s) (v : Prescale) : Sound (s.setPrescale v) :=
  { h with registry := { h.registry with }, words := { h.words with } }

theorem Sound.setAttempt (h : Sound s) {n : Nat} (hn : 1 ≤ n ∧ n ≤ s.params.maxRetry + 1) : Sound (s.setAttempt n) :=
  { h with registry := { h.registry with }, words := { h.words with }, attempt := hn }

theorem Sound.setStatus (h : Sound s) {w : Word} (hw : isWord s.params w) : Sound (s.setStatus w) :=
  { h with registry := { h.registry with }, words := { h.words with status := hw } }

@[simp] theorem Sound.undefine (h : Sound s) : Sound s.undefine :=
  { h with
    registry := { h.registry with }
    words := { h.words with status := freeStatus_isWord s.params s.frees }
    attempt := freeAttempt_range s.params s.frees }

theorem Sound.setSeq (h : Sound s) (q : Seq) : Sound (s.setSeq q) :=
  { h with registry := { h.registry with }, words := { h.words with } }

theorem Sound.finish (h : Sound s) (reply : Reply) : Sound (s.finish reply) :=
  { h with registry := { h.registry with }, words := { h.words with } }

theorem Sound.accept (h : Sound s) : Sound s.accept :=
  { h.undefine with
    registry := { h.registry with }
    words := { h.undefine.words with resolved := fun _ he => (List.not_mem_nil he).elim } }

end

/-! ## The position -/

/-- The top frame's part of a right position: its handles, what is pending, what is resolved, and the attempt it is in. -/
structure AtLine (s : State) (f : Frame) : Prop where
  handles : handlesRight f
  queue   : s.queue = pendingAt s.params s.prescale f
  used    : ∀ h ∈ usedAt f, (s.resolvedValue h).isSome = true
  budget  : isWait f.op = true → 2 ≤ f.line → f.line ≤ 8 → s.attempt ≤ s.params.maxRetry

/-- Every caller waits where nothing is pending. -/
def CallersRight (s : State) (cs : List Frame) : Prop := ∀ c ∈ cs, callerRight s.params s.prescale c

theorem inv_of_running {s : State} {f : Frame} {cs : List Frame} (hseq : s.seq = .running f cs) (hs : Sound s)
    (hf : AtLine s f) (hc : CallersRight s cs) : s.Inv where
  memory := hs.memory
  registry := hs.registry
  position := by rw [positionRight, hseq]; exact ⟨hf.handles, hf.queue, hf.used, hc⟩
  attempt := by rw [attemptRight, hseq]; exact ⟨hs.attempt.1, hs.attempt.2, hf.budget⟩
  words := hs.words

theorem inv_of_idle {s : State} (hseq : s.seq = .idle) (hs : Sound s) (hq : s.queue = []) : s.Inv where
  memory := hs.memory
  registry := hs.registry
  position := by rw [positionRight, hseq]; exact hq
  attempt := by rw [attemptRight, hseq]; exact ⟨hs.attempt.1, hs.attempt.2, trivial⟩
  words := hs.words

theorem State.Inv.atLine {s : State} {f : Frame} {cs : List Frame} (h : s.Inv) (hseq : s.seq = .running f cs) :
    AtLine s f ∧ CallersRight s cs := by
  have hp := h.position
  have ha := h.attempt
  rw [positionRight, hseq] at hp
  rw [attemptRight, hseq] at ha
  obtain ⟨hh, hq, hu, hc⟩ := hp
  obtain ⟨-, -, hb⟩ := ha
  exact ⟨⟨hh, hq, hu, hb⟩, hc⟩

theorem State.Inv.queue_of_idle {s : State} (h : s.Inv) (hseq : s.seq = .idle) : s.queue = [] := by
  have hp := h.position
  rwa [positionRight, hseq] at hp

/-- Whether something is pending at a line does not depend on the prescale. -/
theorem pendingAt_eq_nil_congr {p : Params} {a : Prescale} (b : Prescale) {f : Frame} (h : pendingAt p a f = []) :
    pendingAt p b f = [] := by
  unfold pendingAt at h ⊢
  split at h <;> first | rfl | cases h

theorem callersRight_setPrescale {s : State} {cs : List Frame} (h : CallersRight s cs) (v : Prescale) :
    CallersRight (s.setPrescale v) cs := fun c hc =>
  have ⟨hh, hp, hu, hw⟩ := h c hc
  ⟨hh, pendingAt_eq_nil_congr v hp, hu, hw⟩

/-- The operations that enqueue nothing themselves and bind no handle. -/
def isQuiet : Instr → Bool
  | .reset | .sendWrite _ _ | .sendRead _ | .wait _ _ => false
  | _ => true

theorem quiet_position {p : Params} {prescale : Prescale} {f : Frame} (h : isQuiet f.op = true) :
    handlesRight f ∧ pendingAt p prescale f = [] ∧ usedAt f = [] ∧ isWait f.op = false := by
  obtain ⟨op, line⟩ := f
  cases op with
  | reset => cases h
  | sendWrite cmd data => cases h
  | sendRead cmd => cases h
  | wait reqAck reqIdle => cases h
  | _ => exact ⟨trivial, rfl, rfl, rfl⟩

theorem atLine_of_quiet {s : State} {f : Frame} (h : isQuiet f.op = true) (hq : s.queue = []) : AtLine s f :=
  have ⟨hh, hp, hu, hw⟩ := quiet_position (p := s.params) (prescale := s.prescale) h
  ⟨hh, hq.trans hp.symm, by simp [hu], by simp [hw]⟩

theorem AtLine.queue_of_quiet {s : State} {f : Frame} (h : AtLine s f) (hf : isQuiet f.op = true) : s.queue = [] :=
  have ⟨_, hp, _, _⟩ := quiet_position (p := s.params) (prescale := s.prescale) hf
  h.queue.trans hp

/-- An operation at its first line has enqueued and bound nothing. -/
theorem atLine_startFrame {s : State} (op : Instr) (hq : s.queue = []) : AtLine s (startFrame op) := by
  cases op with
  | reset => exact ⟨rfl, hq, nofun, nofun⟩
  | sendWrite cmd data => exact ⟨trivial, hq, nofun, nofun⟩
  | sendRead cmd => exact ⟨rfl, hq, nofun, nofun⟩
  | wait reqAck reqIdle => exact ⟨trivial, hq, nofun, fun _ h => by cases h⟩
  | _ => exact atLine_of_quiet rfl hq

/-! ## Moves of the position -/

section
variable {s : State} {cs : List Frame} (hs : Sound s) (hc : CallersRight s cs)
include hs hc

theorem onward_goTo {f : Frame} {n : Nat} (hf : AtLine s { f with line := n }) :
    Onward State.Inv (.next (s.goTo f cs n)) :=
  inv_of_running rfl (hs.setSeq _) { hf with } hc

theorem onward_callOp (hq : s.queue = []) {f : Frame} {n : Nat} (op : Instr)
    (hf : callerRight s.params s.prescale { f with line := n }) : Onward State.Inv (.next (s.callOp f cs n op)) :=
  inv_of_running rfl (hs.setSeq _) (atLine_startFrame op hq) (List.forall_mem_cons.2 ⟨hf, hc⟩)

theorem onward_returnTo (hq : s.queue = []) (v : Val) : Onward State.Inv (.next (s.returnTo v cs)) := by
  cases cs with
  | nil => exact inv_of_idle rfl (hs.finish _) hq
  | cons f cs =>
    obtain ⟨⟨hh, hp, hu, hw⟩, hc⟩ := List.forall_mem_cons.1 hc
    refine inv_of_running (f := { f with returned := v }) (cs := cs) rfl (hs.setSeq _) ⟨hh, hq.trans hp.symm, ?_, ?_⟩ hc
    · intro h hm; rw [show usedAt { f with returned := v } = [] from hu] at hm; cases hm
    · intro h; cases hw.symm.trans h

theorem inv_unwind (hq : s.queue = []) (e : Err) : (s.unwind e cs).Inv := by
  induction cs with
  | nil => exact inv_of_idle rfl (hs.finish _) hq
  | cons f cs ih =>
    obtain ⟨-, hc⟩ := List.forall_mem_cons.1 hc
    rw [State.unwind]
    split
    · next hcatch =>
      refine onward_goTo hs hc (atLine_of_quiet ?_ hq)
      rw [catches] at hcatch
      split at hcatch
      · next hop => exact (congrArg isQuiet hop : isQuiet f.op = _)
      · cases hcatch
    · exact ih hc

theorem inv_raiseAt (hq : s.queue = []) (kind : ErrorKind) : (s.raiseAt kind cs).Inv := inv_unwind hs hc hq _

/-- The position of an operation that enqueues nothing is right wherever it goes. -/
theorem onward_goTo_quiet {f : Frame} (hq : s.queue = []) (hf : isQuiet f.op = true) (n : Nat) :
    Onward State.Inv (.next (s.goTo f cs n)) :=
  onward_goTo hs hc (atLine_of_quiet hf hq)

theorem onward_callOp_quiet {f : Frame} (hq : s.queue = []) (hf : isQuiet f.op = true) (n : Nat) (op : Instr) :
    Onward State.Inv (.next (s.callOp f cs n op)) :=
  onward_callOp hs hc hq op (quiet_position hf)

end
end Sys2Proof.Machine
end

section
/-! PROOFS. Every line of every operation keeps the invariant, and so does every step. -/

namespace Sys2Proof.Machine

/-! ## Lines -/

theorem CallersRight.commit {s : State} {cs : List Frame} (h : CallersRight s cs) : CallersRight s.commit cs := by
  simpa [CallersRight] using h

/-- A line that uses no handle, of an operation that is no `WAIT`. -/
theorem AtLine.of_waiting {s : State} {f : Frame} (hh : handlesRight f) (hq : s.queue = pendingAt s.params s.prescale f)
    (hu : usedAt f = []) (hw : isWait f.op = false) : AtLine s f :=
  ⟨hh, hq, by simp [hu], by simp [hw]⟩

section
variable {s : State} {f : Frame} {cs : List Frame} (hs : Sound s) (hf : AtLine s f) (hc : CallersRight s cs)
include hs hf hc

theorem inv_lineConfigure (hop : isQuiet f.op = true) (ratio : Ratio) : Onward State.Inv (lineConfigure ratio f cs s) := by
  have hq := hf.queue_of_quiet hop
  rw [lineConfigure]
  split
  · exact onward_goTo_quiet (hs.setPrescale _) (callersRight_setPrescale hc (Config.prescaleOf ratio)) hq hop 1
  · exact onward_returnTo hs hc hq _
  · exact onward_noLine f

theorem inv_lineReset (hop : f.op = .reset) : Onward State.Inv (lineReset f cs s) := by
  obtain ⟨op, line, handles, latched, index, cmd, outBytes, outAddrs, returned⟩ := f
  obtain rfl : op = .reset := hop
  obtain ⟨hh, hq, hu, -⟩ := hf
  rw [lineReset]
  simp only
  split
  case h_1 => 
    obtain rfl : handles = [] := List.length_eq_zero_iff.1 hh
    exact onward_goTo (hs.memRead _) hc (.of_waiting rfl (by simp [hq, pendingAt]) rfl rfl)
  case h_2 => 
    obtain ⟨a, rfl⟩ := List.length_eq_one_iff.1 hh
    exact onward_goTo (hs.memRead _) hc (.of_waiting rfl (by simp [hq, pendingAt]) rfl rfl)
  case h_3 => 
    obtain ⟨a, b, rfl⟩ := List.length_eq_two.1 hh
    exact onward_goTo (hs.memRead _) hc (.of_waiting rfl (by simp [hq, pendingAt]) rfl rfl)
  case h_4 => 
    obtain ⟨a, b, c, rfl⟩ := List.length_eq_three.1 hh
    refine onward_goTo hs.commit hc.commit ⟨rfl, rfl, ?_, nofun⟩
    have ha : QueueOp.read .psHi a ∈ s.queue := by simp [hq, pendingAt]
    have hb : QueueOp.read .psLo b ∈ s.queue := by simp [hq, pendingAt]
    simpa [usedAt] using ⟨commit_resolvedValue_isSome ha, commit_resolvedValue_isSome hb⟩
  case h_5 =>
    split
    · exact onward_withVal fun _ _ => onward_withVal fun _ _ => onward_goTo hs hc (.of_waiting trivial hq rfl rfl)
    · exact onward_noLine _
  case h_6 =>
    refine onward_goTo hs hc ?_
    split <;> exact .of_waiting trivial hq rfl rfl
  case h_20 => exact onward_returnTo hs hc hq _
  case h_21 => exact onward_noLine _
  case h_8 | h_11 | h_14 | h_16 | h_19 => exact onward_goTo hs.commit hc.commit (.of_waiting trivial rfl rfl rfl)
  all_goals
    refine onward_goTo ?_ ?_ ?_
    · simp [hs]
    · exact hc
    · exact .of_waiting trivial (by simp [hq, pendingAt]) rfl rfl

theorem inv_lineSendWrite {cmd : Flags} {data : Byte} (hop : f.op = .sendWrite cmd data) :
    Onward State.Inv (lineSendWrite cmd data f cs s) := by
  obtain ⟨op, line, handles, latched, index, cmd', outBytes, outAddrs, returned⟩ := f
  obtain rfl : op = .sendWrite cmd data := hop
  obtain ⟨hh, hq, hu, -⟩ := hf
  rw [lineSendWrite]
  simp only
  split
  case h_1 => exact onward_ite (fun _ => trivial) fun _ => onward_goTo hs hc (.of_waiting trivial hq rfl rfl)
  case h_5 => exact onward_callOp hs hc hq _ ⟨trivial, rfl, rfl, rfl⟩
  case h_6 => exact onward_returnTo hs hc hq _
  case h_7 => exact onward_noLine _
  case h_4 => exact onward_goTo hs.commit hc.commit (.of_waiting trivial rfl rfl rfl)
  all_goals
    refine onward_goTo ?_ ?_ ?_
    · simp [hs]
    · exact hc
    · exact .of_waiting trivial (by simp [hq, pendingAt]) rfl rfl

theorem inv_lineSendRead {cmd : Flags} (hop : f.op = .sendRead cmd) : Onward State.Inv (lineSendRead cmd f cs s) := by
  obtain ⟨op, line, handles, latched, index, cmd', outBytes, outAddrs, returned⟩ := f
  obtain rfl : op = .sendRead cmd := hop
  obtain ⟨hh, hq, hu, -⟩ := hf
  rw [lineSendRead]
  simp only
  split
  case h_1 => exact onward_ite (fun _ => trivial) fun _ => onward_goTo hs hc (.of_waiting hh hq rfl rfl)
  case h_2 =>
    refine onward_goTo ?_ ?_ ?_
    · simp [hs]
    · exact hc
    · exact .of_waiting hh (by simp [hq, pendingAt]) rfl rfl
  case h_3 => exact onward_goTo hs.commit hc.commit (.of_waiting hh rfl rfl rfl)
  case h_4 => exact onward_callOp hs hc hq _ ⟨hh, rfl, rfl, rfl⟩
  case h_5 =>
    obtain rfl : handles = [] := List.length_eq_zero_iff.1 hh
    exact onward_goTo (hs.memRead _) hc (.of_waiting rfl (by simp [hq, pendingAt]) rfl rfl)
  case h_6 =>
    obtain ⟨a, rfl⟩ := List.length_eq_one_iff.1 hh
    refine onward_goTo hs.commit hc.commit ⟨rfl, rfl, ?_, nofun⟩
    have ha : QueueOp.read .rxdata a ∈ s.queue := by simp [hq, pendingAt]
    simpa [usedAt] using commit_resolvedValue_isSome ha
  case h_7 =>
    split
    · exact onward_withVal fun _ _ => onward_returnTo hs hc hq _
    · exact onward_noLine _
  case h_8 => exact onward_noLine _

theorem inv_lineWait {reqAck reqIdle : Bool} (hop : f.op = .wait reqAck reqIdle) :
    Onward State.Inv (lineWait reqAck reqIdle f cs s) := by
  obtain ⟨op, line, handles, latched, index, cmd', outBytes, outAddrs, returned⟩ := f
  obtain rfl : op = .wait reqAck reqIdle := hop
  obtain ⟨hh, hq, hu, hb⟩ := hf
  have hraise : s.queue = [] → ∀ kind, (s.undefine.raiseAt kind cs).Inv := inv_raiseAt hs.undefine hc
  rw [lineWait]
  simp only
  split
  case h_1 => exact onward_goTo (hs.setAttempt ⟨Nat.le_refl 1, by omega⟩) hc ⟨trivial, hq, nofun, fun _ h => by simp at h⟩
  case h_2 =>
    refine onward_goTo hs hc ?_
    split
    · next hle => exact ⟨trivial, hq, nofun, fun _ _ _ => hle⟩
    · exact ⟨trivial, hq, nofun, fun _ _ h => by simp at h⟩
  case h_3 => exact onward_goTo hs.sleep hc ⟨trivial, hq, nofun, fun _ _ _ => hb rfl (by simp) (by simp)⟩
  case h_4 =>
    refine onward_goTo (hs.memRead _) hc ⟨rfl, by simp [hq, pendingAt], nofun, fun _ _ _ => hb rfl (by simp) (by simp)⟩
  case h_5 =>
    obtain ⟨a, rfl⟩ := List.length_eq_one_iff.1 hh
    have ha : QueueOp.read .status a ∈ s.queue := by simp [hq, pendingAt]
    refine onward_goTo hs.commit hc.commit ⟨rfl, rfl, ?_, fun _ _ _ => ?_⟩
    · simpa [usedAt] using commit_resolvedValue_isSome ha
    · simpa using hb rfl (by simp) (by simp)
  case h_6 =>
    split
    · refine onward_withVal fun w hw => onward_goTo (hs.setStatus (hs.words.resolved _ hw)) hc ?_
      exact ⟨trivial, hq, nofun, fun _ _ _ => hb rfl (by simp) (by simp)⟩
    · exact onward_noLine _
  case h_7 =>
    rw [onward_next]
    split
    · exact hraise hq _
    · exact onward_goTo hs hc ⟨trivial, hq, nofun, fun _ _ _ => hb rfl (by simp) (by simp)⟩
  case h_8 =>
    refine onward_goTo hs hc ?_
    split
    · exact ⟨trivial, hq, nofun, fun _ _ _ => hb rfl (by simp) (by simp)⟩
    · exact ⟨trivial, hq, nofun, fun _ _ h => by simp at h⟩
  case h_9 =>
    have hle : s.attempt ≤ s.params.maxRetry := hb rfl (by simp) (by simp)
    refine onward_goTo (hs.setAttempt (n := s.attempt + 1) ⟨Nat.le_add_left 1 _, Nat.succ_le_succ hle⟩) hc ?_
    exact ⟨trivial, hq, nofun, fun _ h => by simp at h⟩
  case h_13 => exact onward_returnTo hs.undefine hc hq _
  case h_14 => exact onward_noLine _
  all_goals
    rw [onward_next]
    split
    · exact hraise hq _
    · exact onward_goTo hs hc ⟨trivial, hq, nofun, fun _ _ h => by simp at h⟩

/-! The other operations enqueue nothing themselves: their lines only move the position. -/

theorem inv_lineWriteBlock (hop : isQuiet f.op = true) (addr : Nat) (bytes : List Byte) (sendStop : Bool) :
    Onward State.Inv (lineWriteBlock addr bytes sendStop f cs s) := by
  have hq := hf.queue_of_quiet hop
  rw [lineWriteBlock]
  split
  case h_1 => exact onward_ite (fun _ => onward_goTo_quiet hs hc hq hop _) fun _ => trivial
  case h_2 => exact onward_ite (fun _ => trivial) fun _ => onward_goTo_quiet hs hc hq hop _
  case h_3 | h_4 => exact onward_callOp_quiet hs hc hq hop ..
  case h_7 =>
    split
    · exact onward_callOp_quiet hs hc hq hop ..
    · exact onward_noLine f
  case h_9 => exact onward_returnTo hs hc hq _
  case h_10 => exact onward_noLine f
  all_goals refine onward_goTo_quiet hs hc hq ?_ _; exact hop

theorem inv_lineReadBlock (hop : isQuiet f.op = true) (addr count : Nat) :
    Onward State.Inv (lineReadBlock addr count f cs s) := by
  have hq := hf.queue_of_quiet hop
  rw [lineReadBlock]
  split
  case h_1 => exact onward_ite (fun _ => onward_goTo_quiet hs hc hq hop _) fun _ => trivial
  case h_2 => exact onward_ite (fun _ => trivial) fun _ => onward_goTo_quiet hs hc hq hop _
  case h_3 | h_4 | h_8 => exact onward_callOp_quiet hs hc hq hop ..
  case h_9 =>
    split
    · refine onward_goTo_quiet hs hc hq ?_ _; exact hop
    · exact onward_noLine f
  case h_10 => exact onward_returnTo hs hc hq _
  case h_11 => exact onward_noLine f
  all_goals refine onward_goTo_quiet hs hc hq ?_ _; exact hop

theorem inv_linePing (hop : isQuiet f.op = true) (addr : Nat) : Onward State.Inv (linePing addr f cs s) := by
  have hq := hf.queue_of_quiet hop
  rw [linePing]
  split
  case h_1 => exact onward_ite (fun _ => onward_goTo_quiet hs hc hq hop _) fun _ => trivial
  case h_2 | h_3 => exact onward_callOp_quiet hs hc hq hop ..
  case h_6 => exact onward_noLine f
  all_goals exact onward_returnTo hs hc hq _

theorem inv_lineScan (hop : isQuiet f.op = true) : Onward State.Inv (lineScan f cs s) := by
  have hq := hf.queue_of_quiet hop
  rw [lineScan]
  split
  case h_3 => exact onward_callOp_quiet hs hc hq hop ..
  case h_5 => exact onward_returnTo hs hc hq _
  case h_6 => exact onward_noLine f
  all_goals refine onward_goTo_quiet hs hc hq ?_ _; exact hop

theorem inv_lineGetSlaveAddress (hop : isQuiet f.op = true) (n : DevName) :
    Onward State.Inv (lineGetSlaveAddress n f cs s) := by
  have hq := hf.queue_of_quiet hop
  rw [lineGetSlaveAddress]
  split
  · exact inv_unwind hs hc hq _
  · exact onward_goTo_quiet hs hc hq hop _
  · exact onward_returnTo hs hc hq _
  · exact onward_noLine f

theorem inv_lineGetSlave (hop : isQuiet f.op = true) (n : DevName) : Onward State.Inv (lineGetSlave n f cs s) := by
  have hq := hf.queue_of_quiet hop
  rw [lineGetSlave]
  split
  · exact inv_unwind hs hc hq _
  · exact onward_goTo_quiet hs hc hq hop _
  · exact onward_returnTo hs hc hq _
  · exact onward_noLine f

theorem inv_lineSlave (hop : isQuiet f.op = true) (delegated : Instr) : Onward State.Inv (lineSlave delegated f cs s) := by
  have hq := hf.queue_of_quiet hop
  rw [lineSlave]
  split
  · exact onward_callOp_quiet hs hc hq hop ..
  · exact onward_returnTo hs hc hq _
  · exact onward_noLine f

/-- Every line of every operation keeps the invariant. -/
theorem inv_lineOf : Onward State.Inv (lineOf f cs s) := by
  have hquiet : ∀ {op}, f.op = op → isQuiet op = true → isQuiet f.op = true := fun h hq => h ▸ hq
  rw [lineOf]
  split
  · next hop => exact inv_lineConfigure hs hf hc (hquiet hop rfl) _
  · next hop => exact inv_lineReset hs hf hc hop
  · next hop => exact inv_lineSendWrite hs hf hc hop
  · next hop => exact inv_lineSendRead hs hf hc hop
  · next hop => exact inv_lineWait hs hf hc hop
  · next hop => exact inv_lineWriteBlock hs hf hc (hquiet hop rfl) ..
  · next hop => exact inv_lineReadBlock hs hf hc (hquiet hop rfl) ..
  · next hop => exact inv_linePing hs hf hc (hquiet hop rfl) _
  · next hop => exact inv_lineScan hs hf hc (hquiet hop rfl)
  · next hop => exact inv_lineGetSlaveAddress hs hf hc (hquiet hop rfl) _
  · next hop => exact inv_lineGetSlave hs hf hc (hquiet hop rfl) _
  · next hop => exact inv_lineSlave hs hf hc (hquiet hop rfl) _
  · next hop => exact inv_lineSlave hs hf hc (hquiet hop rfl) _
  all_goals exact onward_noLine f

end

/-! ## A step -/

/-- A line keeps the invariant. -/
theorem inv_tick {s t : State} (h : s.Inv) (ht : tick s = .next t) : t.Inv := by
  rw [tick] at ht
  split at ht
  · cases ht; exact h
  · next f cs hseq =>
    split at ht
    · next hv =>
      obtain ⟨hf, hc⟩ := h.atLine hseq
      have hline := inv_lineOf (.of_inv hv h) hf hc
      rwa [ht] at hline
    · cases ht

/-- A whole request, or a command byte, is a stretch of the machine (Laws/Exec.lean), which keeps the invariant. -/
theorem inv_exec {i : Instr} {s t : State} (h : s.Inv) (hr : s.Ready) (ht : exec i s = .next t) : t.Inv := by
  obtain ⟨-, u, tr, hx, hd, hu⟩ := exec_executed (h.queue_of_idle hr.idle) ht
  have hstart : Sound (acceptedFor i s) := by
    have haccept := (Sound.of_inv hr.params h).accept
    cases i with
    | configure ratio => exact haccept.setPrescale _
    | _ => exact haccept
  have hsound : Sound u := by
    obtain ⟨k, hk, -⟩ := hu
    refine ⟨?_, hx.wf hstart.memory, ?_, hx.fits hstart.width hstart.words, ?_⟩
    · rw [hx.params]; exact hstart.width
    · obtain ⟨hunique, hhandles⟩ := hstart.registry
      refine ⟨?_, ?_⟩
      · rwa [hx.registry]
      · rw [hx.slaves, hx.params, hx.registry, hhandles]
    · rw [hk]; exact freeAttempt_range _ _
  obtain rfl | ⟨reply, rfl⟩ := hd
  · have hidle : (acceptedFor i s).seq = .idle := by cases i <;> exact hr.idle
    exact inv_of_idle (hx.seq.trans hidle) hsound hx.between.queue
  · exact inv_of_idle rfl (hsound.finish reply) hx.between.queue

/-- A request accepted is at its first line. -/
theorem inv_startRequest {i : Instr} {s t : State} (h : s.Inv) (hr : s.Ready) (ht : startRequest i s = .next t) :
    t.Inv := by
  rw [startRequest, whenReady_of_ready hr] at ht
  cases ht
  have hq : s.queue = [] := h.queue_of_idle hr.idle
  exact inv_of_running rfl ((Sound.of_inv hr.params h).accept.setSeq _) (atLine_startFrame i hq) (List.forall_mem_nil _)

theorem inv_runFetched {i : Instr} {s t : State} (h : s.Inv) (hr : s.Ready) (ht : runFetched i s = .next t) : t.Inv := by
  rw [runFetched] at ht
  split at ht
  · split at ht
    · split at ht
      · cases ht
      · exact inv_exec h hr ht
    · exact inv_startRequest h hr ht
  · exact inv_exec h hr ht

/-- Taking a presentation changes the port alone. -/
theorem fetch_eq_instr {s t : State} {i : Instr} (h : fetch s = .instr i t) : ∃ port, t = { s with port := port } := by
  rw [fetch] at h
  split at h
  · cases h
  · split at h <;> cases h
    exact ⟨_, rfl⟩

/-- Nothing in the invariant speaks of the port. -/
theorem State.Inv.with_port {s : State} (h : s.Inv) (port : List Presentation) : State.Inv { s with port := port } :=
  ⟨h.memory, { h.registry with }, h.position, h.attempt, { h.words with }⟩

/-- Settles O58: a step is a line of the operation in progress, a whole instruction, or a request accepted at its first
line. -/
theorem everyStepKeepsTheInvariant : Obligations.EveryStepKeepsTheInvariant := by
  intro s t h ht
  rw [step, advance] at ht
  split at ht
  · next hv =>
    split at ht
    · split at ht
      · cases ht
      · exact inv_tick h ht
    · next hidle =>
      split at ht
      · cases ht; exact h
      · next hfetch =>
        obtain ⟨port, rfl⟩ := fetch_eq_instr hfetch
        exact inv_runFetched (h.with_port port) ⟨hv, hidle⟩ ht
      · cases ht
      · cases ht
  · cases ht

end Sys2Proof.Machine
end

section
/-! PROOFS. Deferred reads (20_memory.md R44): the three lines that use a handle fault while it is unresolved, and no other
line, instruction or acceptance raises that fault. -/

namespace Sys2Proof.Machine

/-- The outcome is not the fault of a deferred read. -/
def NoDeferredRead (o : Host.Outcome State Fault Refusal) : Prop := o ≠ .fault .deferredRead

@[simp] theorem noDeferredRead_next (t : State) : NoDeferredRead (.next t) := nofun

@[simp] theorem noDeferredRead_refused (r : Refusal) : NoDeferredRead (.refused r) := nofun

@[simp] theorem noDeferredRead_noLine (f : Frame) : NoDeferredRead (noLine f) := nofun

@[simp] theorem noDeferredRead_fault (r : Fault) : NoDeferredRead (.fault r) ↔ r ≠ .deferredRead := by
  simp [NoDeferredRead]

@[simp] theorem noDeferredRead_ite {c : Prop} [Decidable c] {a b : Host.Outcome State Fault Refusal}
    (ha : NoDeferredRead a) (hb : NoDeferredRead b) : NoDeferredRead (if c then a else b) := by
  split
  · exact ha
  · exact hb

/-- A value resolved is used without a fault. -/
theorem noDeferredRead_withVal {s : State} {h : Nat} {k : Word → Host.Outcome State Fault Refusal}
    (hh : (s.resolvedValue h).isSome = true) (hk : ∀ w, NoDeferredRead (k w)) : NoDeferredRead (withVal s h k) := by
  rw [withVal]
  split
  · exact hk _
  · next hnone => rw [hnone] at hh; cases hh

theorem withVal_of_none {s : State} {h : Nat} (k : Word → Host.Outcome State Fault Refusal)
    (hh : s.resolvedValue h = none) : withVal s h k = .fault .deferredRead := by
  rw [withVal, hh]

/-! ## Lines -/

/-- A line faults if a handle it uses is unresolved. -/
theorem lineOf_eq_deferredRead {s : State} {f : Frame} (cs : List Frame) {h : Nat} (hf : handlesRight f)
    (hu : h ∈ usedAt f) (hnone : s.resolvedValue h = none) : lineOf f cs s = .fault .deferredRead := by
  obtain ⟨op, line, handles, latched, index, cmd, outBytes, outAddrs, returned⟩ := f
  rw [usedAt] at hu
  split at hu
  · next hop hline =>
    obtain rfl : op = .reset := hop
    obtain rfl : line = 4 := hline
    obtain ⟨hi, lo, ctrl, rfl⟩ := List.length_eq_three.1 hf
    have hcases : h = hi ∨ h = lo := by simpa using hu
    show (withVal s hi fun w => withVal s lo fun v => _) = _
    cases hhi : s.resolvedValue hi with
    | none => exact withVal_of_none _ hhi
    | some w =>
      obtain rfl : h = lo := hcases.resolve_left fun he => by rw [← he, hnone] at hhi; cases hhi
      rw [withVal, hhi]
      exact withVal_of_none _ hnone
  · next cmd' hop hline =>
    obtain rfl : op = .sendRead cmd' := hop
    obtain rfl : line = 6 := hline
    obtain ⟨a, rfl⟩ := List.length_eq_one_iff.1 hf
    obtain rfl : h = a := by simpa using hu
    exact withVal_of_none _ hnone
  · next reqAck reqIdle hop hline =>
    obtain rfl : op = .wait reqAck reqIdle := hop
    obtain rfl : line = 5 := hline
    obtain ⟨a, rfl⟩ := List.length_eq_one_iff.1 hf
    obtain rfl : h = a := by simpa using hu
    exact withVal_of_none _ hnone
  · cases hu

/-- A line whose handles are resolved does not. -/
theorem noDeferredRead_lineOf {s : State} {f : Frame} (cs : List Frame)
    (hu : ∀ h ∈ usedAt f, (s.resolvedValue h).isSome = true) : NoDeferredRead (lineOf f cs s) := by
  obtain ⟨op, line, handles, latched, index, cmd, outBytes, outAddrs, returned⟩ := f
  rw [lineOf]
  cases op with
  | configure ratio => simp only [lineConfigure]; split <;> simp
  | reset =>
    simp only [lineReset]
    split
    case h_5 =>
      split
      · exact noDeferredRead_withVal (hu _ (by simp [usedAt])) fun _ =>
          noDeferredRead_withVal (hu _ (by simp [usedAt])) fun _ => noDeferredRead_next _
      · exact noDeferredRead_noLine _
    all_goals simp
  | sendWrite cmd data => simp only [lineSendWrite]; split <;> simp
  | sendRead cmd =>
    simp only [lineSendRead]
    split
    case h_7 =>
      split
      · exact noDeferredRead_withVal (hu _ (by simp [usedAt])) fun _ => noDeferredRead_next _
      · exact noDeferredRead_noLine _
    all_goals simp
  | wait reqAck reqIdle =>
    simp only [lineWait]
    split
    case h_6 =>
      split
      · exact noDeferredRead_withVal (hu _ (by simp [usedAt])) fun _ => noDeferredRead_next _
      · exact noDeferredRead_noLine _
    all_goals simp
  | writeBlock addr bytes sendStop =>
    simp only [lineWriteBlock]
    split
    case h_7 => split <;> simp
    all_goals simp
  | readBlock addr count =>
    simp only [lineReadBlock]
    split
    case h_9 => split <;> simp
    all_goals simp
  | ping addr => simp only [linePing]; split <;> simp
  | scan => simp only [lineScan]; split <;> simp
  | getSlaveAddress n => simp only [lineGetSlaveAddress]; split <;> simp
  | getSlave n => simp only [lineGetSlave]; split <;> simp
  | slaveWriteBlock h bytes sendStop => simp only [lineSlave]; split <;> simp
  | slaveReadBlock h count => simp only [lineSlave]; split <;> simp
  | cmdZero => exact noDeferredRead_noLine _
  | cmdWrite sta sto ack => exact noDeferredRead_noLine _
  | cmdRead sta sto ack => exact noDeferredRead_noLine _

/-! ## Instructions and steps -/

theorem noDeferredRead_whenReady {s : State} {k : State → Host.Outcome State Fault Refusal}
    (hk : ∀ u, NoDeferredRead (k u)) : NoDeferredRead (whenReady s k) := by
  rw [whenReady]
  split
  · split
    · exact hk _
    · exact nofun
  · exact nofun

/-- An instruction run whole uses its values after their commits. -/
theorem noDeferredRead_exec (i : Instr) (s : State) : NoDeferredRead (exec i s) := by
  rw [exec_eq_whenReady]
  refine noDeferredRead_whenReady fun u => ?_
  cases i <;> simp [instrBody, whenBlockArgs]

theorem noDeferredRead_runFetched (i : Instr) (s : State) : NoDeferredRead (runFetched i s) := by
  rw [runFetched]
  split
  · split
    · exact noDeferredRead_ite (by simp) (noDeferredRead_exec i s)
    · exact noDeferredRead_whenReady fun _ => noDeferredRead_next _
  · exact noDeferredRead_exec i s

theorem noDeferredRead_step {s : State} (h : positionRight s) : NoDeferredRead (step s) := by
  rw [step, advance]
  refine noDeferredRead_ite ?_ (by simp)
  split
  · next f cs hseq =>
    rw [positionRight, hseq] at h
    obtain ⟨-, -, hu, -⟩ := h
    rw [tick, hseq]
    exact noDeferredRead_ite (by simp) (noDeferredRead_ite (noDeferredRead_lineOf cs hu) (by simp))
  · split
    · exact noDeferredRead_next _
    · exact noDeferredRead_runFetched _ _
    · next r hfetch =>
      rw [fetch] at hfetch
      split at hfetch
      · cases hfetch
      · split at hfetch <;> cases hfetch
        exact nofun
    · exact noDeferredRead_refused _

/-- Settles O52: by the three lines that use handles, and the absence of the fault from every other. -/
theorem deferredReadsFaultAndNeverHappen : Obligations.DeferredReadsFaultAndNeverHappen := by
  refine ⟨fun s f cs h hv hseq hf hu hnone => ?_, fun s h => noDeferredRead_step h⟩
  rw [tick, hseq]
  exact (if_pos hv).trans (lineOf_eq_deferredRead cs hf hu hnone)

end Sys2Proof.Machine
end

section
/-! PROOFS. Construction (70_reset_and_hazards.md R150, R151): what it leaves has the invariant; and the command bytes, whose
one committed write is `commit_write`. -/

namespace Sys2Proof.Machine

/-! ## Construction -/

theorem mem_map_fst_insertEntry {α : Type} {m n : DevName} {a : α} {reg : List (DevName × α)}
    (h : m ∈ (insertEntry n a reg).map Prod.fst) : m = n ∨ m ∈ reg.map Prod.fst := by
  induction reg with
  | nil => simpa [insertEntry] using h
  | cons e reg ih =>
    rw [insertEntry] at h
    split at h
    · next hk => simpa [hk] using h
    · obtain rfl | h := List.mem_cons.1 h
      · simp
      · exact (ih h).imp_right (List.mem_cons_of_mem _)

/-- Inserting keeps every name once (R118). -/
theorem nodup_insertEntry {α : Type} (n : DevName) (a : α) {reg : List (DevName × α)}
    (h : (reg.map Prod.fst).Nodup) : ((insertEntry n a reg).map Prod.fst).Nodup := by
  induction reg with
  | nil => simp [insertEntry]
  | cons e reg ih =>
    obtain ⟨hnot, hnd⟩ := List.nodup_cons.1 (show (e.1 :: reg.map Prod.fst).Nodup from h)
    rw [insertEntry]
    split
    · next hk => exact List.nodup_cons.2 ⟨hk ▸ hnot, hnd⟩
    · next hk => exact List.nodup_cons.2 ⟨fun hm => (mem_map_fst_insertEntry hm).elim hk hnot, ih hnd⟩

theorem nodup_buildFrom (p : Params) (parsed : List (DevName × Nat)) {reg : List (DevName × Addr7)}
    (h : (reg.map Prod.fst).Nodup) : ((buildFrom p reg parsed).map Prod.fst).Nodup := by
  induction parsed generalizing reg with
  | nil => exact h
  | cons e parsed ih => exact ih (nodup_insertEntry _ _ h)

/-- The registry of a mapping names each device once (R25). -/
theorem nodup_buildRegistry (p : Params) (parsed : List (DevName × Nat)) :
    ((buildRegistry p parsed).map Prod.fst).Nodup :=
  nodup_buildFrom p parsed List.nodup_nil

/-- An engine constructed with each name once has the invariant (R37). -/
theorem inv_constructed (p : Params) (prescale : Prescale) {reg : List (DevName × Addr7)}
    (h : (reg.map Prod.fst).Nodup) : (State.constructed p prescale reg).Inv where
  memory := rfl
  registry := ⟨h, rfl⟩
  position := rfl
  attempt := ⟨(freeAttempt_range p 0).1, (freeAttempt_range p 0).2, trivial⟩
  words := ⟨freeStatus_isWord p 0, nofun, nofun, nofun⟩

theorem atRest_constructed {p : Params} (hp : paramsValid p = true) (prescale : Prescale)
    (reg : List (DevName × Addr7)) : (State.constructed p prescale reg).AtRest :=
  ⟨⟨hp, rfl⟩, rfl⟩

/-- Settles O40: construction that gives an engine gives `State.constructed` of valid parameters. -/
theorem constructionLeavesAnIdleEngine : Obligations.ConstructionLeavesAnIdleEngine := by
  intro p ratio mapping s h
  rw [construct] at h
  split at h
  · next hp =>
    split at h
    · cases h
      exact ⟨rfl, rfl, rfl, rfl, rfl, rfl, rfl, atRest_constructed hp .., inv_constructed _ _ (nodup_buildRegistry ..)⟩
    · cases h
  · cases h

/-- Settles O59: the reset state is constructed with the default parameters, which are valid. -/
theorem resetStateHasTheInvariant : Obligations.ResetStateHasTheInvariant :=
  ⟨inv_constructed _ _ (nodup_buildRegistry ..), atRest_constructed (by decide) .., rfl, rfl, rfl⟩

/-! ## Command bytes -/

theorem busOperations_append (p : Params) (a b : List Access) :
    busOperations p (a ++ b) = busOperations p a ++ busOperations p b :=
  List.filterMap_append

/-- A command byte written to `CMD` and committed: its two events, the byte in the record and in what the device has
seen. -/
theorem commandOp_spec (v : Byte) {s : State} (h : s.queue = []) :
    (commandOp v s.accept).trace = [.w .cmd (wordOfByte v), .c []] ∧
      (commandOp v s.accept).regByte .cmd = some v ∧
      (∀ r, r ≠ .cmd → (commandOp v s.accept).regByte r = s.regByte r) ∧
      busOperations s.params (commandOp v s.accept).history = busOperations s.params s.history ++
        if startsBusOperation s.params (wordOfByte v) then [wordOfByte v] else [] := by
  obtain ⟨hx, hbyte, -⟩ := commit_write (Between.accept h) .cmd v
  refine ⟨hx.trace, hbyte, fun r hr => hx.regs r (by simpa using hr), ?_⟩
  refine (congrArg (busOperations s.params) hx.history).trans ?_
  rw [busOperations_append]
  congr 1
  cases hstarts : startsBusOperation s.params (wordOfByte v) <;> simp [accessesFrom, appliedBy, busOperations, hstarts]

/-- The byte of a set of flags starts a bus operation exactly if read or write is in the set (20_memory.md R53). -/
theorem startsBusOperation_flagsByte {p : Params} (m : CommandMasks p) (f : Flags) :
    startsBusOperation p (wordOfByte (flagsByte p f)) = (f.rd || f.wr) := by
  have hf := flagsOfByte_flagsByte m f
  rw [startsBusOperation, statusBit_wordOfByte, statusBit_wordOfByte]
  exact congrArg₂ (· || ·) (congrArg Flags.rd hf) (congrArg Flags.wr hf)

/-- Settles O41: the three forms are one committed write each, of 0 or of a byte with one direction flag. -/
theorem commandBytesReachTheCommandRegister : Obligations.CommandBytesReachTheCommandRegister := by
  intro sta sto ack s hs
  have hm := commandMasks_of_valid hs.params
  have hspec := fun v => commandOp_spec v hs.queue
  refine ⟨⟨_, exec_of_ready _ hs.toReady, ?_⟩, ⟨_, exec_of_ready _ hs.toReady, ?_⟩, ⟨_, exec_of_ready _ hs.toReady, ?_⟩⟩
  · obtain ⟨htrace, hbyte, hother, hbus⟩ := hspec 0
    refine ⟨htrace, hbyte, hother, hbus.trans ?_⟩
    rw [startsBusOperation, statusBit_wordOfByte, statusBit_wordOfByte]
    simp
  · rw [accept_params, writeCommand_eq]
    obtain ⟨htrace, hbyte, hother, hbus⟩ := hspec (flagsByte s.params ⟨sta, sto, false, true, ack⟩)
    exact ⟨htrace, hbyte, hother, hbus.trans (by rw [startsBusOperation_flagsByte hm]; rfl)⟩
  · rw [accept_params, readCommand_eq]
    obtain ⟨htrace, hbyte, hother, hbus⟩ := hspec (flagsByte s.params ⟨sta, sto, true, false, ack⟩)
    exact ⟨htrace, hbyte, hother, hbus.trans (by rw [startsBusOperation_flagsByte hm]; rfl)⟩

end Sys2Proof.Machine
end

section
/-! PROOFS. Frames: an instruction that answers a next state is a stretch of Laws/Interface.lean from the accepted state
(`exec_executed`), and what a stretch leaves alone, records and applies is said there once. -/

namespace Sys2Proof.Machine

/-! ## The state a stretch starts from, and the one it delivers -/

section
variable (i : Instr) (s : State)

@[simp] theorem acceptedFor_params : (acceptedFor i s).params = s.params := by cases i <;> rfl
@[simp] theorem acceptedFor_registry : (acceptedFor i s).registry = s.registry := by cases i <;> rfl
@[simp] theorem acceptedFor_slaves : (acceptedFor i s).slaves = s.slaves := by cases i <;> rfl
@[simp] theorem acceptedFor_seq : (acceptedFor i s).seq = s.seq := by cases i <;> rfl
@[simp] theorem acceptedFor_port : (acceptedFor i s).port = s.port := by cases i <;> rfl
@[simp] theorem acceptedFor_pace : (acceptedFor i s).pace = s.pace := by cases i <;> rfl
@[simp] theorem acceptedFor_regs : (acceptedFor i s).regs = s.regs := by cases i <;> rfl
@[simp] theorem acceptedFor_history : (acceptedFor i s).history = s.history := by cases i <;> rfl
@[simp] theorem acceptedFor_trace : (acceptedFor i s).trace = [] := by cases i <;> rfl
@[simp] theorem acceptedFor_answers : (acceptedFor i s).answers = s.answers := by cases i <;> rfl

theorem acceptedFor_prescale (h : ∀ ratio, i ≠ .configure ratio) : (acceptedFor i s).prescale = s.prescale := by
  cases i with
  | configure ratio => exact absurd rfl (h ratio)
  | _ => rfl

end

/-- Delivering an outcome changes the sequencer and the response alone. -/
theorem Delivers.eq {u t : State} (h : Delivers u t) : ∃ seq response,
    t = { u with seq := seq, response := response } ∧ (seq = u.seq ∨ seq = .idle) := by
  obtain rfl | ⟨reply, rfl⟩ := h
  · exact ⟨_, _, rfl, .inl rfl⟩
  · exact ⟨_, _, rfl, .inr rfl⟩

/-- A bit of an instruction's whole effect: its trace, and the stretch that made it. -/
theorem exec_stretch {i : Instr} {s t : State} (hq : s.queue = []) (h : exec i s = .next t) :
    ∃ u seq response, Extends (acceptedFor i s) u t.trace (registersWritten i) ∧
      t = { u with seq := seq, response := response } ∧ seq = .idle ∧ Undefined u := by
  obtain ⟨hr, u, tr, hx, hd, hu⟩ := exec_executed hq h
  obtain ⟨seq, response, rfl, hseq⟩ := hd.eq
  have htrace : u.trace = tr := by simpa using hx.trace
  refine ⟨u, seq, response, by simpa [htrace] using hx, rfl, ?_, hu⟩
  obtain rfl | rfl := hseq
  · rw [hx.seq, acceptedFor_seq, hr.idle]
  · rfl

/-- An instruction that answers a next state ran on a ready engine. -/
theorem ready_of_exec {i : Instr} {s t : State} (h : exec i s = .next t) : s.Ready := by
  rw [exec_eq_whenReady] at h
  obtain ⟨hr, -⟩ := whenReady_next h
  exact hr

theorem atRest_of_exec {i : Instr} {s t : State} (hq : s.queue = []) (h : exec i s = .next t) : s.AtRest :=
  ⟨ready_of_exec h, hq⟩

/-! ## The frames -/

/-- Settles O42: the fields a stretch keeps; the prescale is kept from the accepted state, where `CONFIGURE` has stored
its own. -/
theorem instructionsLeaveTheRestOfTheEngineAlone : Obligations.InstructionsLeaveTheRestOfTheEngineAlone := by
  intro i s t hq h
  obtain ⟨u, seq, response, hx, rfl, hseq, hu⟩ := exec_stretch hq h
  refine ⟨by simpa using hx.params, by simpa using hx.registry, by simpa using hx.slaves, by simpa using hx.port,
    by simpa using hx.pace, hseq, hx.between.queue, ?_, fun hi => ?_, hu.congr rfl rfl rfl⟩
  · rintro ratio rfl
    exact hx.prescale
  · exact hx.prescale.trans (acceptedFor_prescale i s hi)

/-- Settles O43: a stretch writes its registers only. -/
theorem instructionsWriteOnlyTheirRegisters : Obligations.InstructionsWriteOnlyTheirRegisters := by
  intro i s t hq h a ha
  obtain ⟨u, seq, response, hx, rfl, -, -⟩ := exec_stretch hq h
  exact (hx.mem a ha).trans (by rw [acceptedFor_regs])

/-- Settles O44: the byte of a register after a stretch is that of its last write. -/
theorem registersHoldTheLastWordWritten : Obligations.RegistersHoldTheLastWordWritten := by
  intro i s t hq h r
  obtain ⟨u, seq, response, hx, rfl, -, -⟩ := exec_stretch hq h
  refine (hx.bytes r).trans ?_
  rw [State.regByte, State.regByte, acceptedFor_regs]

/-- Settles O45: a stretch applies what its trace enqueues and leaves nothing pending. -/
theorem operationsAreAppliedInTheOrderEnqueued : Obligations.OperationsAreAppliedInTheOrderEnqueued := by
  intro i s t hq h
  obtain ⟨u, seq, response, hx, rfl, -, -⟩ := exec_stretch hq h
  exact ⟨by simpa using hx.history, hx.closed⟩

/-- Settles O46: a stretch takes its answers from the tape in order. -/
theorem answersAreTakenInOrder : Obligations.AnswersAreTakenInOrder := by
  intro i s t hq h
  obtain ⟨u, seq, response, hx, rfl, -, -⟩ := exec_stretch hq h
  simpa using hx.answers

end Sys2Proof.Machine
end

section
/-! PROOFS. The primitives family (40_primitives.md), `WAIT`: the size of its trace, and the words it reads of a given tape.
The words a poll may read (`PollWords`) are determined by any tape they are a beginning of, and depend on the four status
flags of each word alone. -/

namespace Sys2Proof.Machine

/-! ## The size of a poll -/

@[simp] theorem length_pollEvents (h : Nat) (ws : List Word) : (pollEvents h ws).length = 3 * ws.length := by
  induction ws generalizing h with
  | nil => rfl
  | cons w ws ih => simp only [pollEvents, List.length_append, List.length_cons, ih]; simp; omega

theorem sleepsIn_pollEvents (h : Nat) (ws : List Word) : sleepsIn (pollEvents h ws) = ws.length := by
  induction ws generalizing h with
  | nil => rfl
  | cons w ws ih => rw [pollEvents, sleepsIn, List.countP_append, ← sleepsIn, ← sleepsIn, ih, Nat.add_comm]; rfl

theorem commitsIn_pollEvents (h : Nat) (ws : List Word) : commitsIn (pollEvents h ws) = ws.length := by
  induction ws generalizing h with
  | nil => rfl
  | cons w ws ih => rw [pollEvents, commitsIn, List.countP_append, ← commitsIn, ← commitsIn, ih, Nat.add_comm]; rfl

/-- Settles O15: the lines of `waitBody_spec`, after which the state is undefined and the outcome delivered. -/
theorem waitEndsAsItsStatusWordsSay : Obligations.WaitEndsAsItsStatusWordsSay := by
  intro reqAck reqIdle s hs
  obtain ⟨ws, u, hw, hu, -, hstatus, hattempt, hrun⟩ := waitBody_spec reqAck reqIdle (Between.accept hs.queue) hs.params
  refine ⟨ws, u, hw, hrun, hu.trace, hstatus, hattempt, ?_⟩
  rw [exec_wait_of_ready reqAck reqIdle hs.toReady, waitOp, hrun]
  rfl

theorem pollWords_length_pos {p : Params} {ws : List Word} (h : PollWords p ws) : 1 ≤ ws.length := by
  obtain ⟨before, last, rfl, -⟩ := h
  simp

/-- Settles O16: the events are those of the words read, and only a last word that lets the loop go on is a timeout. -/
theorem waitHasThreeEventsAPoll : Obligations.WaitHasThreeEventsAPoll := by
  intro reqAck reqIdle s hs
  obtain ⟨ws, u, hw, hrun, htrace, -, hattempt, hexec⟩ := waitEndsAsItsStatusWordsSay reqAck reqIdle s hs
  have hpos := pollWords_length_pos hw
  obtain ⟨before, last, rfl, hmax, -, hspent⟩ := hw
  refine ⟨_, hexec, ?_⟩
  have htimeout : some (replyOf unitVal (waitVerdict s.params reqAck reqIdle (before ++ [last]))) =
      some (.err (busErr s.params .transactionTimeout)) ↔ pollsOn s.params last = true := by
    rw [Option.some.injEq, replyOf_eq_err_iff, waitVerdict, getLastD_append_one, verdictOf_eq_timeout_iff]
  simp only [finish_trace, undefine_trace, finish_response, htrace, statusWords_pollEvents, Ne, htimeout, hrun]
  refine ⟨trivial, length_pollEvents .., sleepsIn_pollEvents .., commitsIn_pollEvents .., hpos, hmax, hspent, fun hoff => ?_⟩
  rw [hattempt, getLastD_append_one, Bool.eq_false_iff.2 hoff]
  rfl

/-! ## The words read of a tape -/

/-- A poll's words are no proper beginning of another's: the last of the shorter would have had to end it. -/
theorem pollWords_eq_of_prefix {p : Params} {ws vs : List Word} (hw : PollWords p ws) (hv : PollWords p vs)
    (h : ws <+: vs) : ws = vs := by
  obtain ⟨before, last, rfl, -, -, hspent⟩ := hw
  obtain ⟨polled, final, rfl, hmax, hon, -⟩ := hv
  by_contra hne
  have hpre : before ++ [last] <+: polled := (List.prefix_concat_iff.1 h).resolve_left hne
  have hlast : last ∈ polled := hpre.subset (by simp)
  have hlen := hspent (hon last hlast)
  have hle := hpre.length_le
  rw [List.length_append, List.length_singleton] at hmax
  omega

theorem pollWords_eq_of_comparable {p : Params} {ws vs : List Word} (hw : PollWords p ws) (hv : PollWords p vs)
    (h : ws <+: vs ∨ vs <+: ws) : ws = vs :=
  h.elim (pollWords_eq_of_prefix hw hv) fun hp => (pollWords_eq_of_prefix hv hw hp).symm

theorem answersIn_pollEvents (h : Nat) (ws : List Word) : answersIn (accessesFrom [] (pollEvents h ws)) = ws := by
  rw [accessesFrom_pollEvents, answersIn, List.filterMap_map]
  exact List.filterMap_some

/-- A run that reads as many words as a beginning of the tape is long reads that beginning, and the rest stays. -/
theorem exec_takes_tape {i : Instr} {s t : State} (hq : s.queue = []) (hexec : exec i s = .next t)
    {read rest : List Nat} (htape : s.answers = read ++ rest)
    (hlen : (answersIn (accessesFrom [] t.trace)).length = read.length) :
    answersIn (accessesFrom [] t.trace) = read.map (fitWord s.params) ∧ t.answers = rest := by
  obtain ⟨taken, htaken, hwords⟩ := answersAreTakenInOrder i s t hq hexec
  rw [htape] at htaken
  obtain hw | ⟨hnil, hpre⟩ := hwords
  · have hsame : read.length = taken.length := by rw [← hlen, hw, List.length_map]
    obtain ⟨rfl, rfl⟩ := List.append_inj htaken hsame
    exact ⟨hw, rfl⟩
  · rw [hnil, List.append_nil] at htaken
    subst htaken
    have hle := hpre.length_le
    rw [List.length_map, List.length_append, hlen] at hle
    obtain rfl : rest = [] := List.length_eq_zero_iff.1 (by omega)
    rw [List.append_nil] at hpre
    exact ⟨(hpre.eq_of_length (by rw [List.length_map, hlen])).symm, hnil⟩

/-- On a tape that begins with words a poll may read, those are the words a `WAIT` reads, and the rest stays. -/
theorem wait_reads_tape {reqAck reqIdle : Bool} {s t : State} (hs : s.AtRest) {read rest : List Nat}
    (htape : s.answers = read ++ rest) (hread : PollWords s.params (read.map (fitWord s.params)))
    (hexec : exec (.wait reqAck reqIdle) s = .next t) :
    statusWords t.trace = read.map (fitWord s.params) ∧ t.answers = rest := by
  obtain ⟨hpoll, -⟩ := wait_next hs hexec
  obtain ⟨ws, u, -, hu, htrace, -⟩ := exec_wait_spec reqAck reqIdle hs
  obtain rfl : u = t := by rw [hu] at hexec; injection hexec
  obtain ⟨taken, htaken, hwords⟩ := answersAreTakenInOrder _ s u hs.queue hexec
  rw [htrace, answersIn_pollEvents] at hwords
  rw [htrace, statusWords_pollEvents] at hpoll ⊢
  rw [htape] at htaken
  have hmap : ∀ {a b : List Nat}, a <+: b → a.map (fitWord s.params) <+: b.map (fitWord s.params) := fun h => h.map _
  have heq : ws = read.map (fitWord s.params) := by
    refine pollWords_eq_of_comparable hpoll hread ?_
    obtain rfl | ⟨hnil, hpre⟩ := hwords
    · have hp : taken <+: read ++ rest := ⟨_, htaken.symm⟩
      exact (List.prefix_or_prefix_of_prefix hp (List.prefix_append read rest)).imp hmap hmap
    · have hp : read <+: taken := ⟨rest, by rw [htaken, hnil, List.append_nil]⟩
      exact .inr ((hmap hp).trans hpre)
  refine ⟨heq, (exec_takes_tape hs.queue hexec htape ?_).2⟩
  rw [htrace, answersIn_pollEvents, heq, List.length_map]

/-! ## What a poll sees of a word -/

/-- The four status flags of a word (10_state.md R33). -/
def statusFlags (p : Params) (w : Word) : Bool × Bool × Bool × Bool :=
  (arbLost p w, inProgress p w, receivedAck p w, busBusy p w)

section
variable {p : Params} {v w : Word} (h : statusFlags p v = statusFlags p w)
include h

theorem pollsOn_congr : pollsOn p v = pollsOn p w := by
  simp only [statusFlags, Prod.mk.injEq] at h
  obtain ⟨hlost, hprogress, -, -⟩ := h
  rw [pollsOn, pollsOn, hlost, hprogress]

theorem verdictOf_congr (reqAck reqIdle : Bool) : verdictOf p reqAck reqIdle v = verdictOf p reqAck reqIdle w := by
  simp only [statusFlags, Prod.mk.injEq] at h
  obtain ⟨hlost, hprogress, hack, hbusy⟩ := h
  rw [verdictOf, verdictOf, hlost, hprogress, hack, hbusy]

end

/-- The flags of an answer are those of the word that carries it. -/
theorem statusFlags_fitWord {p : Params} (h : 8 ≤ p.regWidth) (n : Nat) :
    statusFlags p (fitWord p n) = statusFlags p n := by
  simp only [statusFlags, arbLost, inProgress, receivedAck, busBusy, statusBit_fitWord h]

/-- Words with the same flags may be polled alike, with the same outcome. -/
theorem pollWords_congr {p : Params} {ws vs : List Word} (h : ws.map (statusFlags p) = vs.map (statusFlags p))
    (hw : PollWords p ws) :
    PollWords p vs ∧ ∀ reqAck reqIdle, waitVerdict p reqAck reqIdle ws = waitVerdict p reqAck reqIdle vs := by
  obtain ⟨before, last, rfl, hmax, hon, hspent⟩ := hw
  have hlen : (before ++ [last]).length = vs.length := by simpa using congrArg List.length h
  rw [List.map_append, eq_comm, List.map_eq_append_iff] at h
  obtain ⟨polled, tail, rfl, hbefore, htail⟩ := h
  obtain ⟨final, rfl, hfinal⟩ : ∃ final, tail = [final] ∧ statusFlags p final = statusFlags p last := by
    simpa [List.map_eq_singleton_iff] using htail
  refine ⟨⟨polled, final, rfl, hlen ▸ hmax, fun v hv => ?_, fun hf => ?_⟩, fun reqAck reqIdle => ?_⟩
  · obtain ⟨w, hw, hflags⟩ := List.mem_map.1 (hbefore ▸ List.mem_map_of_mem (f := statusFlags p) hv)
    rw [← pollsOn_congr hflags]
    exact hon w hw
  · rw [pollsOn_congr hfinal] at hf
    exact hlen ▸ hspent hf
  · rw [waitVerdict, waitVerdict, getLastD_append_one, getLastD_append_one, verdictOf_congr hfinal]

/-- Settles O20: the answers up to the first that is not merely in progress are words a poll may read. -/
theorem waitStopsAtTheFirstDecidingAnswer : Obligations.WaitStopsAtTheFirstDecidingAnswer := by
  intro reqAck reqIdle s before rest w hs htape hbudget hon hoff
  have hflags := fun n => statusFlags_fitWord (regWidth_of_valid hs.params) n
  have hoff' : pollsOn s.params (fitWord s.params w) = false := (pollsOn_congr (hflags w)).trans hoff
  have hread : PollWords s.params ((before ++ [w]).map (fitWord s.params)) := by
    refine ⟨before.map (fitWord s.params), fitWord s.params w, by simp, by simpa using hbudget, fun v hv => ?_, fun h => ?_⟩
    · obtain ⟨n, hn, rfl⟩ := List.mem_map.1 hv
      exact (pollsOn_congr (hflags n)).trans (hon n hn)
    · cases hoff'.symm.trans h
  obtain ⟨ws, u, -, hrun, htrace, -, hattempt, hexec⟩ := waitEndsAsItsStatusWordsSay reqAck reqIdle s hs
  obtain ⟨hwords, hrest⟩ := wait_reads_tape hs (by simpa using htape) hread hexec
  obtain rfl : ws = (before ++ [w]).map (fitWord s.params) := by
    rw [finish_trace, undefine_trace, htrace, statusWords_pollEvents] at hwords
    exact hwords
  have hlast : ((before ++ [w]).map (fitWord s.params)).getLastD 0 = fitWord s.params w := by
    rw [List.map_append, List.map_singleton, getLastD_append_one]
  refine ⟨_, hexec, hrest, htrace, ?_, ?_⟩
  · rw [hrun, hattempt, hlast, hoff']
    simp
  · rw [finish_response, waitVerdict, hlast, verdictOf_congr (hflags w)]

/-! ## Bits outside the masks -/

/-- A word's bits under some masks or'd together decide its bit under each of them. -/
theorem statusBit_congr {v w : Word} {masks m : Byte} (hm : masks &&& m = m)
    (h : lowByte v &&& masks = lowByte w &&& masks) : statusBit v m = statusBit w m := by
  rw [statusBit_eq_lowByte, statusBit_eq_lowByte, ← hm, ← BitVec.and_assoc, ← BitVec.and_assoc, h]

/-- Words that agree under the four masks have the same flags (R73). -/
theorem statusFlags_congr {p : Params} {v w : Word}
    (h : lowByte v &&& (p.stRxack ||| p.stBusy ||| p.stAl ||| p.stTip) =
      lowByte w &&& (p.stRxack ||| p.stBusy ||| p.stAl ||| p.stTip)) : statusFlags p v = statusFlags p w := by
  have habsorb : ∀ a b : Byte, (a ||| b) &&& b = b := fun a b => by
    ext i hi; simp only [BitVec.getElem_and, BitVec.getElem_or]; cases b[i] <;> simp
  have hkeep : ∀ {a b m : Byte}, a &&& m = m → (a ||| b) &&& m = m := fun {a b m} hac => by
    rw [or_and_mask, hac]
    ext i hi; simp only [BitVec.getElem_and, BitVec.getElem_or]; cases m[i] <;> simp
  have htip := statusBit_congr (habsorb _ p.stTip) h
  have hal := statusBit_congr (hkeep (habsorb _ p.stAl)) h
  have hbusy := statusBit_congr (hkeep (hkeep (habsorb _ p.stBusy))) h
  have hack := statusBit_congr (hkeep (hkeep (hkeep (BitVec.and_self (x := p.stRxack))))) h
  simp only [statusFlags, arbLost, inProgress, receivedAck, busBusy, htip, hal, hbusy, hack]

/-- A `WAIT` on a tape as long as its budget reads a beginning of it. -/
theorem wait_reads_prefix {reqAck reqIdle : Bool} {s t : State} (hs : s.AtRest)
    (hlong : s.params.maxRetry ≤ s.answers.length) (hexec : exec (.wait reqAck reqIdle) s = .next t) :
    ∃ n, statusWords t.trace = (s.answers.take n).map (fitWord s.params) := by
  obtain ⟨ws, u, hpoll, hu, htrace, -⟩ := exec_wait_spec reqAck reqIdle hs
  obtain rfl : u = t := by rw [hu] at hexec; injection hexec
  obtain ⟨taken, htaken, hwords⟩ := answersAreTakenInOrder _ s u hs.queue hexec
  rw [htrace, answersIn_pollEvents] at hwords
  refine ⟨taken.length, ?_⟩
  rw [htrace, statusWords_pollEvents, htaken, List.take_left]
  obtain hw | ⟨hnil, hpre⟩ := hwords
  · exact hw
  · obtain ⟨before, last, rfl, hmax, -⟩ := hpoll
    rw [htaken, hnil, List.append_nil] at hlong
    exact (hpre.eq_of_length_le (by rw [List.length_map]; exact hmax.trans hlong)).symm

/-- Settles O21: the second device answers words with the same flags as those the first has been read, so they are the
words of its own poll. -/
theorem waitDoesNotSeeBitsOutsideTheMasks : Obligations.WaitDoesNotSeeBitsOutsideTheMasks := by
  intro reqAck reqIdle s as bs hs hlong hsame
  have hsa : State.AtRest { s with answers := as } := ⟨⟨hs.params, hs.idle⟩, hs.queue⟩
  have hsb : State.AtRest { s with answers := bs } := ⟨⟨hs.params, hs.idle⟩, hs.queue⟩
  obtain ⟨ws, t, hpoll, ht, htrace, hresp⟩ := exec_wait_spec reqAck reqIdle hsa
  obtain ⟨vs, u, -, hu, hutrace, huresp⟩ := exec_wait_spec reqAck reqIdle hsb
  obtain ⟨n, hws⟩ := wait_reads_prefix hsa hlong ht
  rw [htrace, statusWords_pollEvents] at hws
  have hflags : ws.map (statusFlags s.params) =
      ((bs.take n).map (fitWord s.params)).map (statusFlags s.params) := by
    have hall : as.map (statusFlags s.params) = bs.map (statusFlags s.params) := by
      refine List.forall₂_eq_eq_eq ▸ List.forall₂_map_left_iff.2 (List.forall₂_map_right_iff.2 ?_)
      exact hsame.imp fun _ _ h => statusFlags_congr h
    have hfit : statusFlags s.params ∘ fitWord s.params = statusFlags s.params :=
      funext fun m => statusFlags_fitWord (regWidth_of_valid hs.params) m
    rw [hws, List.map_map, List.map_map, hfit, List.map_take, List.map_take, hall]
  obtain ⟨hpoll', hverdict⟩ := pollWords_congr hflags hpoll
  obtain ⟨hvs, -⟩ := wait_reads_tape hsb (List.take_append_drop n bs).symm hpoll' hu
  rw [hutrace, statusWords_pollEvents] at hvs
  subst hvs
  refine ⟨t, u, ht, hu, ?_, ?_⟩
  · rw [hresp, huresp]
    exact congrArg (fun v => some (replyOf unitVal v)) (hverdict reqAck reqIdle)
  · rw [htrace, hutrace, length_pollEvents, length_pollEvents]
    simpa using congrArg List.length hflags

end Sys2Proof.Machine
end

section
/-! PROOFS. The primitives family (40_primitives.md), `RESET` on a given tape: its trace is known (`RESET` reads three words),
and what the device has seen and the record holds follow from the trace. -/

namespace Sys2Proof.Machine

theorem latchedPrescale_congr {hi lo hi' lo' : Word} (h : lowByte hi = lowByte hi') (l : lowByte lo = lowByte lo') :
    latchedPrescale hi lo = latchedPrescale hi' lo' := by
  rw [latchedPrescale, latchedPrescale, h, l]

/-- The three words of a `RESET` are the only ones it reads. -/
theorem answersIn_resetEvents (p : Params) (prescale : Prescale) (h : Nat) (hi lo ctrl : Word) :
    answersIn (accessesFrom [] (resetEvents p prescale h hi lo ctrl)) = [hi, lo, ctrl] := by
  rw [resetEvents]
  split <;>
    simp [resetReadEvents, lightEvents, fullEvents, accessesFrom, appliedBy, lookup, answersIn]

/-- `RESET` on a tape of three words or more. -/
theorem exec_reset_on_tape {s : State} {hi lo ctrl : Nat} {rest : List Nat} (hs : s.AtRest)
    (htape : s.answers = hi :: lo :: ctrl :: rest) :
    ∃ t, exec .reset s = .next t ∧ t.answers = rest ∧
      t.trace = resetReadEvents 1 (fitWord s.params hi) (fitWord s.params lo) (fitWord s.params ctrl) ++
        if latchedPrescale hi lo = s.prescale then lightEvents else fullEvents s.params s.prescale := by
  obtain ⟨a, b, d, t, hexec, -, htrace⟩ := resetTakesThePathItsPrescaleChooses s hs
  have hread : answersIn (accessesFrom [] t.trace) = [a, b, d] := by rw [htrace]; exact answersIn_resetEvents ..
  obtain ⟨hwords, hrest⟩ := exec_takes_tape hs.queue hexec (read := [hi, lo, ctrl]) htape (by rw [hread]; rfl)
  rw [hread] at hwords
  simp only [List.map_cons, List.map_nil, List.cons.injEq, and_true] at hwords
  obtain ⟨rfl, rfl, rfl⟩ := hwords
  have hfit := fun n => lowByte_fitWord (regWidth_of_valid hs.params) n
  rw [latchedPrescale_congr (hfit hi) (hfit lo)] at htrace
  exact ⟨t, hexec, hrest, htrace⟩

/-- The byte of a register after an instruction whose trace writes it last as this word. -/
theorem regByte_of_last_write {i : Instr} {s t : State} (hq : s.queue = []) (h : exec i s = .next t) {r : Reg} {w : Word}
    (hw : (writesTo r t.trace).getLast? = some w) : t.regByte r = some (lowByte w) := by
  rw [registersHoldTheLastWordWritten i s t hq h r, hw]; rfl

/-- The byte of a register no event of the trace writes. -/
theorem regByte_of_no_write {i : Instr} {s t : State} (hq : s.queue = []) (h : exec i s = .next t) {r : Reg}
    (hw : writesTo r t.trace = []) : t.regByte r = s.regByte r := by
  rw [registersHoldTheLastWordWritten i s t hq h r, hw]; rfl

/-- Settles O12: the last writes of each path, and the sizes of the two lists of events. -/
theorem resetPathsWriteTheirRegisters : Obligations.ResetPathsWriteTheirRegisters := by
  intro s hi lo ctrl rest hs htape
  obtain ⟨t, hexec, hrest, htrace⟩ := exec_reset_on_tape hs htape
  have hlast := fun {r w} => regByte_of_last_write hs.queue hexec (r := r) (w := w)
  have hkept := fun {r} => regByte_of_no_write hs.queue hexec (r := r)
  refine ⟨t, hexec, hrest, ?_⟩
  by_cases hp : latchedPrescale hi lo = s.prescale
  · rw [if_pos hp] at htrace
    rw [htrace] at hlast hkept ⊢
    exact ⟨hlast rfl, hlast rfl, fun hne => absurd hp hne, fun _ => ⟨rfl, rfl, hkept rfl, hkept rfl, hkept rfl⟩⟩
  · rw [if_neg hp] at htrace
    rw [htrace] at hlast ⊢
    have hbyte := fun {r b} (h : _ = some (wordOfByte b)) => (hlast (r := r) h).trans (by rw [lowByte_wordOfByte])
    exact ⟨hlast rfl, hlast rfl, fun _ => ⟨rfl, rfl, hbyte rfl, hbyte rfl, hbyte rfl⟩, fun he => absurd he hp⟩

/-- Settles O13: what the device has seen is what the trace applies. -/
theorem resetWritesReachTheDeviceInOrder : Obligations.ResetWritesReachTheDeviceInOrder := by
  intro s hi lo ctrl rest hs htape
  obtain ⟨t, hexec, -, htrace⟩ := exec_reset_on_tape hs htape
  obtain ⟨hhistory, -⟩ := operationsAreAppliedInTheOrderEnqueued _ s t hs.queue hexec
  refine ⟨t, hexec, ?_⟩
  rw [hhistory, htrace, List.append_assoc]
  split <;> simp [resetReadEvents, lightEvents, fullEvents, accessesFrom, appliedBy, lookup]

/-- After any `RESET` the record of data and command is 0. -/
theorem reset_zeroes {s t : State} (hs : s.AtRest) (hexec : exec .reset s = .next t) :
    t.regByte .data = some 0 ∧ t.regByte .cmd = some 0 := by
  obtain ⟨a, b, d, u, hu, -, htrace⟩ := resetTakesThePathItsPrescaleChooses s hs
  obtain rfl : u = t := by rw [hu] at hexec; injection hexec
  have hlast := fun {r w} => regByte_of_last_write hs.queue hexec (r := r) (w := w)
  rw [htrace] at hlast
  split at hlast <;> exact ⟨hlast rfl, hlast rfl⟩

/-- An instruction at rest leaves the engine at rest. -/
theorem atRest_after_exec {i : Instr} {s t : State} (hs : s.AtRest) (hexec : exec i s = .next t) : t.AtRest := by
  obtain ⟨hparams, -, -, -, -, hseq, hqueue, -⟩ :=
    instructionsLeaveTheRestOfTheEngineAlone i s t hs.queue hexec
  exact ⟨⟨hparams ▸ hs.params, hseq⟩, hqueue⟩

/-- Settles O14: the words read back have the low bytes of the configured prescale, so the second `RESET` writes the two
zeroes that the first has left. -/
theorem secondResetTakesTheLightPath : Obligations.SecondResetTakesTheLightPath := by
  intro s t hi lo ctrl rest hs hexec hhi hlo htape hreadHi hreadLo
  obtain ⟨hparams, -, -, -, -, -, -, -, hprescale, -⟩ :=
    instructionsLeaveTheRestOfTheEngineAlone _ s t hs.queue hexec
  have ht := atRest_after_exec hs hexec
  have hlight : latchedPrescale hi lo = t.prescale := by
    have hh : lowByte hi = lowByte (wordOfByte (prescaleHigh s.prescale)) := by
      rw [lowByte_wordOfByte]; exact Option.some.inj (hreadHi.symm.trans hhi)
    have hl : lowByte lo = lowByte (wordOfByte (prescaleLow s.prescale)) := by
      rw [lowByte_wordOfByte]; exact Option.some.inj (hreadLo.symm.trans hlo)
    rw [latchedPrescale_congr hh hl, prescaleSplitsAndAssembles.1, hprescale nofun]
  obtain ⟨u, hu, -, htrace⟩ := exec_reset_on_tape ht htape
  rw [if_pos hlight, hparams] at htrace
  refine ⟨u, hu, htrace, fun r => ?_⟩
  obtain ⟨hdata, hcmd⟩ := reset_zeroes hs hexec
  obtain ⟨hdata', hcmd'⟩ := reset_zeroes ht hu
  cases r with
  | data => rw [hdata, hdata']
  | cmd => rw [hcmd, hcmd']
  | _ => exact regByte_of_no_write ht.queue hu (by rw [htrace]; rfl)

end Sys2Proof.Machine
end

section
/-! PROOFS. The byte primitives and the transactions (40_primitives.md R86, R87; 41_transactions.md): what each request's trace
and outcome are. Each comes from the operation's own lemma in Laws/. -/

namespace Sys2Proof.Machine

/-! ## SEND_WRITE and SEND_READ -/

/-- Settles O22: the operation of `sendWriteOp_spec`, delivered. -/
theorem sendWriteWritesThenWaits : Obligations.SendWriteWritesThenWaits := by
  intro cmd data s hs hrd
  obtain ⟨ws, t, hw, ht, -, hdata, hcmd, -, hrun⟩ := sendWriteOp_spec cmd data (Between.accept hs.queue) hs.params
  refine ⟨ws, _, exec_sendWrite_of_ready data hs.toReady hrd, hw, ?_⟩
  rw [hrun]
  exact ⟨ht.trace, rfl, hdata, hcmd⟩

/-- Settles O23: the operation of `sendReadOp_spec`, delivered. -/
theorem sendReadWaitsThenReadsTheByte : Obligations.SendReadWaitsThenReadsTheByte := by
  intro cmd s hs hwr
  obtain ⟨ws, t, tr, out, hw, ht, hcmd, -, hrun, hout⟩ := sendReadOp_spec cmd (Between.accept hs.queue) hs.params
  refine ⟨ws, _, exec_sendRead_of_ready hs.toReady hwr, hw, ?_⟩
  rw [hrun]
  refine ⟨hcmd, ?_⟩
  simp only [accept_params, accept_nextHandle] at hout
  cases hverdict : waitVerdict s.params false (readNeedsIdle s.params cmd) ws with
  | error e =>
    rw [hverdict] at hout
    obtain ⟨rfl, rfl, -⟩ := hout
    exact ⟨by simpa [respond] using ht.trace, rfl⟩
  | ok u =>
    rw [hverdict] at hout
    obtain ⟨w, rfl, rfl, -⟩ := hout
    exact ⟨w, ht.trace, rfl⟩

/-- A `SEND_WRITE` that answers a next state has no read flag. -/
theorem rd_of_exec_sendWrite {cmd : Flags} {data : Byte} {s t : State} (h : exec (.sendWrite cmd data) s = .next t) :
    cmd.rd = false := by
  rw [Bool.eq_false_iff]
  intro hrd
  cases h.symm.trans (illegalFormsFault.1 s cmd data (ready_of_exec h) hrd)

/-- A `SEND_READ` that answers a next state has no write flag. -/
theorem wr_of_exec_sendRead {cmd : Flags} {s t : State} (h : exec (.sendRead cmd) s = .next t) : cmd.wr = false := by
  rw [Bool.eq_false_iff]
  intro hwr
  cases h.symm.trans (illegalFormsFault.2.1 s cmd (ready_of_exec h) hwr)

/-- What a `SEND_WRITE` that answered has done. -/
theorem sendWrite_next {cmd : Flags} {data : Byte} {s t : State} (hs : s.AtRest)
    (h : exec (.sendWrite cmd data) s = .next t) :
    ∃ ws, PollWords s.params ws ∧ t.trace = sendWriteEvents s.params cmd data 1 ws ∧
      t.response = some (replyOf unitVal (waitVerdict s.params true cmd.sto ws)) := by
  obtain ⟨ws, u, hu, hw, htrace, hresp, -⟩ := sendWriteWritesThenWaits cmd data s hs (rd_of_exec_sendWrite h)
  obtain rfl : u = t := by rw [hu] at h; injection h
  exact ⟨ws, hw, htrace, hresp⟩

/-- What a `SEND_READ` that answered has done: its command and its polls, and the read of the byte if they succeed. -/
theorem sendRead_next {cmd : Flags} {s t : State} (hs : s.AtRest) (h : exec (.sendRead cmd) s = .next t) :
    ∃ ws, PollWords s.params ws ∧
      ((∃ e, waitVerdict s.params false (readNeedsIdle s.params cmd) ws = .error e ∧
          t.trace = sendReadEvents s.params cmd 1 ws ∧ t.response = some (.err e)) ∨
        ∃ w, t.trace = sendReadEvents s.params cmd 1 ws ++ receiveEvents (1 + ws.length) w ∧
          t.response = some (.ok (.byte (lowByte w)))) := by
  obtain ⟨ws, u, hu, hw, -, hout⟩ := sendReadWaitsThenReadsTheByte cmd s hs (wr_of_exec_sendRead h)
  obtain rfl : u = t := by rw [hu] at h; injection h
  refine ⟨ws, hw, ?_⟩
  split at hout
  · next e hverdict => exact .inl ⟨e, hverdict, hout⟩
  · exact .inr hout

/-- Settles O24: an error of either is the verdict of its wait, which asks for acknowledge in a write only. -/
theorem errorsOfTheBytePrimitives : Obligations.ErrorsOfTheBytePrimitives := by
  refine ⟨fun cmd s t hs h => ?_, fun cmd data s t hs h hresp => ?_⟩
  · obtain ⟨ws, -, ⟨e, hverdict, -, hresp⟩ | ⟨w, -, hresp⟩⟩ := sendRead_next hs h
    · refine ⟨fun hack => ?_, fun hbusy => ?_⟩
      · obtain rfl : e = _ := Reply.err.inj (Option.some.inj (hresp.symm.trans hack))
        obtain ⟨-, -, hreq, -⟩ := (verdictOf_eq_noAcknowledge_iff ..).1 hverdict
        cases hreq
      · obtain rfl : e = _ := Reply.err.inj (Option.some.inj (hresp.symm.trans hbusy))
        obtain ⟨-, -, -, hreq, -⟩ := (verdictOf_eq_stillBusy_iff ..).1 hverdict
        exact (Bool.and_eq_true _ _ ▸ hreq : _ ∧ _).symm
    · rw [hresp]
      exact ⟨nofun, nofun⟩
  · obtain ⟨ws, -, -, hreply⟩ := sendWrite_next hs h
    rw [hreply, Option.some.injEq, replyOf_eq_err_iff] at hresp
    obtain ⟨-, -, -, hreq, -⟩ := (verdictOf_eq_stillBusy_iff ..).1 hresp
    exact hreq

/-! ## Blocks -/

/-- Settles O25: the operation of `writeBlockOp_spec`, delivered. -/
theorem writeBlockSendsItsBytesInOrder : Obligations.WriteBlockSendsItsBytesInOrder := by
  intro addr bytes sendStop s hs ha hb
  obtain ⟨hi, lo, ctrl, t, tr, out, hseq, ht, -, hrun⟩ :=
    writeBlockOp_spec (BitVec.ofNat 7 addr) bytes sendStop (Between.accept hs.queue) hs.params
  refine ⟨hi, lo, ctrl, _, tr, out, exec_writeBlock_of_ready sendStop hs.toReady ha hb, ?_, hseq, ?_⟩
  · rw [hrun]; exact ht.trace
  · rw [hrun]; rfl

/-- Settles O27: the operation of `readBlockOp_spec`, delivered. -/
theorem readBlockReadsItsBytesInOrder : Obligations.ReadBlockReadsItsBytesInOrder := by
  intro addr count s hs ha hc
  obtain ⟨hi, lo, ctrl, ws, t, more, out, hw, ht, -, hrun, hout⟩ :=
    readBlockOp_spec (BitVec.ofNat 7 addr) count (Between.accept hs.queue) hs.params
  refine ⟨hi, lo, ctrl, ws, _, more, out, exec_readBlock_of_ready hs.toReady ha hc, hw, ?_, ?_, hout⟩
  · rw [hrun]; exact ht.trace
  · rw [hrun]; rfl

/-- A write block that answered has legal arguments. -/
theorem writeBlock_args {addr : Nat} {bytes : List Byte} {sendStop : Bool} {s t : State}
    (h : exec (.writeBlock addr bytes sendStop) s = .next t) : addr ≤ 0x7F ∧ bytes ≠ [] := by
  rw [exec_of_ready _ (ready_of_exec h), instrBody] at h
  obtain ⟨ha, hb, -⟩ := whenBlockArgs_next h
  exact ⟨ha, List.isEmpty_eq_false_iff.1 hb⟩

/-- A read block that answered has legal arguments. -/
theorem readBlock_args {addr count : Nat} {s t : State} (h : exec (.readBlock addr count) s = .next t) :
    addr ≤ 0x7F ∧ 1 ≤ count := by
  rw [exec_of_ready _ (ready_of_exec h), instrBody] at h
  obtain ⟨ha, hc, -⟩ := whenBlockArgs_next h
  exact ⟨ha, Nat.one_le_iff_ne_zero.2 (by simpa using hc)⟩

/-- A write block that answered has done as R100 says. -/
theorem writeBlock_next {addr : Nat} {bytes : List Byte} {sendStop : Bool} {s t : State} (hs : s.AtRest)
    (h : exec (.writeBlock addr bytes sendStop) s = .next t) :
    ∃ hi lo ctrl tr out, t.trace = resetEvents s.params s.prescale 1 hi lo ctrl ++ tr ∧
      WriteSequence s.params
        (({ sta := true }, addrByte (BitVec.ofNat 7 addr) false) :: dataBytes sendStop bytes) 4 tr out ∧
      t.response = some (replyOf unitVal out) := by
  obtain ⟨ha, hb⟩ := writeBlock_args h
  obtain ⟨hi, lo, ctrl, u, tr, out, hu, hspec⟩ := writeBlockSendsItsBytesInOrder addr bytes sendStop s hs ha hb
  obtain rfl : u = t := by rw [hu] at h; injection h
  exact ⟨hi, lo, ctrl, tr, out, hspec⟩

/-- A read block that answered has done as R101 says. -/
theorem readBlock_next {addr count : Nat} {s t : State} (hs : s.AtRest) (h : exec (.readBlock addr count) s = .next t) :
    ∃ hi lo ctrl ws more out, PollWords s.params ws ∧
      t.trace = resetEvents s.params s.prescale 1 hi lo ctrl ++
        (sendWriteEvents s.params { sta := true } (addrByte (BitVec.ofNat 7 addr) true) 4 ws ++ more) ∧
      t.response = some (replyOf Val.bytes out) ∧
      ((∃ e, waitVerdict s.params true false ws = .error e ∧ more = [] ∧ out = .error e) ∨
        ReadSequence s.params (readFlags count) [] (4 + ws.length) more out) := by
  obtain ⟨ha, hc⟩ := readBlock_args h
  obtain ⟨hi, lo, ctrl, ws, u, more, out, hu, hw, htrace, hresp, hout⟩ :=
    readBlockReadsItsBytesInOrder addr count s hs ha hc
  obtain rfl : u = t := by rw [hu] at h; injection h
  refine ⟨hi, lo, ctrl, ws, more, out, hw, htrace, hresp, ?_⟩
  split at hout
  · next e hverdict => exact .inl ⟨e, hverdict, hout⟩
  · exact .inr hout

/-! ## PING and SCAN -/

/-- Settles O31: the operation of `pingOp_spec`, delivered. -/
theorem pingAnswersAndNeverRaises : Obligations.PingAnswersAndNeverRaises := by
  intro addr s hs ha
  obtain ⟨t, tr, answer, hping, ht, -, hrun⟩ := pingOp_spec (BitVec.ofNat 7 addr) (Between.accept hs.queue) hs.params
  have hexec : exec (.ping addr) s = .next (respond Val.bool (pingOp (BitVec.ofNat 7 addr) s.accept)) := by
    rw [exec_of_ready _ hs.toReady, instrBody, addrFits, decide_eq_true ha]; rfl
  refine ⟨answer, t.nextHandle, _, hexec, ?_, ?_⟩
  · rw [hrun]; rfl
  · rw [hrun]
    have htrace : t.trace = tr := ht.trace
    exact htrace ▸ hping

/-- A ping that answered has done as R102 says. -/
theorem ping_next {addr : Nat} {s t : State} (hs : s.AtRest) (h : exec (.ping addr) s = .next t) :
    ∃ answer next, t.response = some (.ok (.bool answer)) ∧
      PingTrace s.params (BitVec.ofNat 7 addr) 1 t.trace answer next := by
  have ha : addr ≤ 0x7F := by
    by_contra hgt
    obtain ⟨-, -, hfault⟩ := illegalFormsFault.2.2.1 s addr [] false 0 hs.toReady (Nat.lt_of_not_le hgt)
    cases h.symm.trans hfault
  obtain ⟨answer, next, u, hu, hspec⟩ := pingAnswersAndNeverRaises addr s hs ha
  obtain rfl : u = t := by rw [hu] at h; injection h
  exact ⟨answer, next, hspec⟩

@[simp] theorem writesTo_data_sendWriteEvents (p : Params) (cmd : Flags) (data : Byte) (h : Nat) (ws : List Word) :
    writesTo .data (sendWriteEvents p cmd data h ws) = [wordOfByte data] := by
  rw [sendWriteEvents, writesTo_append, writesTo_pollEvents]; rfl

@[simp] theorem writesTo_data_sendReadEvents (p : Params) (cmd : Flags) (h : Nat) (ws : List Word) :
    writesTo .data (sendReadEvents p cmd h ws) = [] := by
  rw [sendReadEvents, writesTo_append, writesTo_pollEvents]; rfl

/-- What a ping has done: the address byte alone, the command of the read too, or the byte received too (R102). -/
theorem pingTrace_cases {p : Params} {a : Addr7} {h : Nat} {tr : List Event} {answer : Bool} {next : Nat}
    (hping : PingTrace p a h tr answer next) :
    ∃ ws, PollWords p ws ∧
      ((answer = false ∧ tr = sendWriteEvents p { sta := true } (addrByte a true) h ws) ∨
        ∃ vs, PollWords p vs ∧
          ((answer = false ∧ tr = sendWriteEvents p { sta := true } (addrByte a true) h ws ++
              sendReadEvents p { sto := true, ack := true } (h + ws.length) vs) ∨
            ∃ w, answer = true ∧ tr = sendWriteEvents p { sta := true } (addrByte a true) h ws ++
              (sendReadEvents p { sto := true, ack := true } (h + ws.length) vs ++
                receiveEvents (h + ws.length + vs.length) w))) := by
  obtain ⟨ws, more, hw, rfl, hmore⟩ := hping
  refine ⟨ws, hw, ?_⟩
  split at hmore
  · obtain ⟨rfl, rfl, -⟩ := hmore
    exact .inl ⟨rfl, List.append_nil _⟩
  · obtain ⟨vs, after, hv, rfl, hafter⟩ := hmore
    refine .inr ⟨vs, hv, ?_⟩
    split at hafter
    · obtain ⟨rfl, rfl, -⟩ := hafter
      exact .inl ⟨rfl, by rw [List.append_nil]⟩
    · obtain ⟨w, rfl, rfl, -⟩ := hafter
      exact .inr ⟨w, rfl, rfl⟩

/-- A ping sends its address byte and no other. -/
theorem writesTo_data_pingTrace {p : Params} {a : Addr7} {h : Nat} {tr : List Event} {answer : Bool} {next : Nat}
    (hping : PingTrace p a h tr answer next) : writesTo .data tr = [wordOfByte (addrByte a true)] := by
  obtain ⟨ws, -, ⟨-, rfl⟩ | ⟨vs, -, ⟨-, rfl⟩ | ⟨w, -, rfl⟩⟩⟩ := pingTrace_cases hping <;> simp [writesTo_append]

/-- A scan sends the address byte of each address in order, and finds some of them in order. -/
theorem scanTrace_data {p : Params} {as : List Nat} {h : Nat} {tr : List Event} {found : List Addr7}
    (hscan : ScanTrace p as h tr found) :
    writesTo .data tr = as.map (fun a => wordOfByte (addrByte (BitVec.ofNat 7 a) true)) ∧
      found.Sublist (as.map (BitVec.ofNat 7)) := by
  induction as generalizing h tr found with
  | nil =>
    obtain ⟨rfl, rfl⟩ := hscan
    exact ⟨rfl, .slnil⟩
  | cons a as ih =>
    obtain ⟨one, more, answer, next, others, hping, rfl, hrest, rfl⟩ := hscan
    obtain ⟨hdata, hfound⟩ := ih hrest
    rw [writesTo_append, writesTo_data_pingTrace hping, hdata]
    refine ⟨rfl, ?_⟩
    cases answer with
    | false => exact hfound.cons _
    | true => exact hfound.cons_cons _

/-- Addresses below 128 in ascending order are their numbers in ascending order. -/
theorem map_toNat_range (n : Nat) (h : n ≤ 128) : ((List.range n).map (BitVec.ofNat 7)).map BitVec.toNat = List.range n := by
  rw [List.map_map]
  refine (List.map_congr_left fun a ha => ?_).trans (List.map_id _)
  have hlt : a < n := List.mem_range.1 ha
  exact Nat.mod_eq_of_lt (by omega)

/-- Settles O32: the loop of `scanLoop_spec` over the range, of whose addresses the found ones are a sublist. -/
theorem scanPingsEveryAddress : Obligations.ScanPingsEveryAddress := by
  intro s hs
  have hlast : s.params.scanLast.toNat + 1 ≤ 128 := s.params.scanLast.isLt
  obtain ⟨t, tr, found, hscan, ht, -, hrun⟩ := scanLoop_spec (List.range (s.params.scanLast.toNat + 1)) []
    (Between.accept hs.queue) hs.params
  have hop : scanOp s.accept = (t, .ok found) := hrun
  have htrace : t.trace = tr := ht.trace
  obtain ⟨hdata, hfound⟩ := scanTrace_data hscan
  have hnums : (found.map BitVec.toNat).Sublist (List.range (s.params.scanLast.toNat + 1)) :=
    map_toNat_range _ hlast ▸ hfound.map BitVec.toNat
  refine ⟨found, _, exec_of_ready _ hs.toReady, ?_, ?_, ?_, List.pairwise_lt_range.sublist hnums, fun a ha => ?_⟩
  · rw [hop]; rfl
  · rw [hop]; exact htrace ▸ hscan
  · rw [hop]; exact htrace ▸ hdata
  · exact Nat.le_of_lt_succ (List.mem_range.1 (hnums.subset (List.mem_map_of_mem ha)))

end Sys2Proof.Machine
end

section
/-! PROOFS. What the traces of a reset and of sequences of bytes write, read and end on. Each sequence is taken apart once, by
its first byte (`writeSequence_cons_cases`, `readSequence_cons_cases`). -/

namespace Sys2Proof.Machine

/-! ## Sequences by their first byte -/

theorem writeSequence_cons_cases {p : Params} {cmd : Flags} {b : Byte} {rest : List (Flags × Byte)} {h : Nat}
    {tr : List Event} {out : Except Err Unit} (hseq : WriteSequence p ((cmd, b) :: rest) h tr out) :
    ∃ ws, PollWords p ws ∧
      ((∃ e, waitVerdict p true cmd.sto ws = .error e ∧ tr = sendWriteEvents p cmd b h ws ∧ out = .error e) ∨
        ∃ more, tr = sendWriteEvents p cmd b h ws ++ more ∧ WriteSequence p rest (h + ws.length) more out) := by
  obtain ⟨ws, more, hw, rfl, hmore⟩ := hseq
  refine ⟨ws, hw, ?_⟩
  split at hmore
  · next e hverdict =>
    obtain ⟨rfl, rfl⟩ := hmore
    exact .inl ⟨e, hverdict, List.append_nil _, rfl⟩
  · exact .inr ⟨more, rfl, hmore⟩

theorem readSequence_cons_cases {p : Params} {cmd : Flags} {rest : List Flags} {got : List Byte} {h : Nat}
    {tr : List Event} {out : Except Err (List Byte)} (hseq : ReadSequence p (cmd :: rest) got h tr out) :
    ∃ ws, PollWords p ws ∧
      ((∃ e, waitVerdict p false (readNeedsIdle p cmd) ws = .error e ∧ tr = sendReadEvents p cmd h ws ∧ out = .error e) ∨
        ∃ w after, tr = sendReadEvents p cmd h ws ++ (receiveEvents (h + ws.length) w ++ after) ∧
          ReadSequence p rest (got ++ [lowByte w]) (h + ws.length + 1) after out) := by
  obtain ⟨ws, more, hw, rfl, hmore⟩ := hseq
  refine ⟨ws, hw, ?_⟩
  split at hmore
  · next e hverdict =>
    obtain ⟨rfl, rfl⟩ := hmore
    exact .inl ⟨e, hverdict, List.append_nil _, rfl⟩
  · obtain ⟨w, after, rfl, hafter⟩ := hmore
    exact .inr ⟨w, after, rfl, hafter⟩

/-! ## Nothing is left pending -/

@[simp] theorem pendingAfter_pollEvents (h : Nat) (ws : List Word) : pendingAfter [] (pollEvents h ws) = [] := by
  induction ws generalizing h with
  | nil => rfl
  | cons w ws ih => rw [pollEvents, pendingAfter_append]; exact ih _

@[simp] theorem pendingAfter_sendWriteEvents (p : Params) (cmd : Flags) (data : Byte) (h : Nat) (ws : List Word) :
    pendingAfter [] (sendWriteEvents p cmd data h ws) = [] := by
  rw [sendWriteEvents, pendingAfter_append]; exact pendingAfter_pollEvents h ws

@[simp] theorem pendingAfter_sendReadEvents (p : Params) (cmd : Flags) (h : Nat) (ws : List Word) :
    pendingAfter [] (sendReadEvents p cmd h ws) = [] := by
  rw [sendReadEvents, pendingAfter_append]; exact pendingAfter_pollEvents h ws

@[simp] theorem pendingAfter_receiveEvents (h : Nat) (w : Word) : pendingAfter [] (receiveEvents h w) = [] := rfl

@[simp] theorem pendingAfter_resetEvents (p : Params) (prescale : Prescale) (h : Nat) (hi lo ctrl : Word) :
    pendingAfter [] (resetEvents p prescale h hi lo ctrl) = [] := by
  rw [resetEvents]
  split <;> rfl

/-! ## The words read -/

/-- The status words of two stretches one after the other. -/
theorem statusWords_append {a : List Event} (ha : pendingAfter [] a = []) (b : List Event) :
    statusWords (a ++ b) = statusWords a ++ statusWords b := by
  rw [statusWords, accessesFrom_append, ha, List.filterMap_append]; rfl

@[simp] theorem statusWords_sendWriteEvents (p : Params) (cmd : Flags) (data : Byte) (h : Nat) (ws : List Word) :
    statusWords (sendWriteEvents p cmd data h ws) = ws := by
  rw [sendWriteEvents, statusWords_append rfl, statusWords_pollEvents]; rfl

@[simp] theorem statusWords_sendReadEvents (p : Params) (cmd : Flags) (h : Nat) (ws : List Word) :
    statusWords (sendReadEvents p cmd h ws) = ws := by
  rw [sendReadEvents, statusWords_append rfl, statusWords_pollEvents]; rfl

@[simp] theorem statusWords_receiveEvents (h : Nat) (w : Word) : statusWords (receiveEvents h w) = [] := by
  simp [statusWords, receiveEvents, accessesFrom, appliedBy, lookup]

@[simp] theorem statusWords_resetEvents (p : Params) (prescale : Prescale) (h : Nat) (hi lo ctrl : Word) :
    statusWords (resetEvents p prescale h hi lo ctrl) = [] := by
  rw [resetEvents]
  split <;> simp [statusWords, resetReadEvents, lightEvents, fullEvents, accessesFrom, appliedBy, lookup]

/-- The bytes received in a trace, in order (20_memory.md R50). -/
def bytesReceived (trace : List Event) : List Byte :=
  (accessesFrom [] trace).filterMap fun a =>
    match a with
    | .answered .rxdata w => some (lowByte w)
    | _ => none

theorem bytesReceived_append {a : List Event} (ha : pendingAfter [] a = []) (b : List Event) :
    bytesReceived (a ++ b) = bytesReceived a ++ bytesReceived b := by
  rw [bytesReceived, accessesFrom_append, ha, List.filterMap_append]; rfl

@[simp] theorem bytesReceived_pollEvents (h : Nat) (ws : List Word) : bytesReceived (pollEvents h ws) = [] := by
  rw [bytesReceived, accessesFrom_pollEvents, List.filterMap_map, List.filterMap_eq_nil_iff]
  exact fun _ _ => rfl

@[simp] theorem bytesReceived_sendWriteEvents (p : Params) (cmd : Flags) (data : Byte) (h : Nat) (ws : List Word) :
    bytesReceived (sendWriteEvents p cmd data h ws) = [] := by
  rw [sendWriteEvents, bytesReceived_append rfl, bytesReceived_pollEvents]; rfl

@[simp] theorem bytesReceived_sendReadEvents (p : Params) (cmd : Flags) (h : Nat) (ws : List Word) :
    bytesReceived (sendReadEvents p cmd h ws) = [] := by
  rw [sendReadEvents, bytesReceived_append rfl, bytesReceived_pollEvents]; rfl

@[simp] theorem bytesReceived_receiveEvents (h : Nat) (w : Word) : bytesReceived (receiveEvents h w) = [lowByte w] := by
  simp [bytesReceived, receiveEvents, accessesFrom, appliedBy, lookup]

@[simp] theorem bytesReceived_resetEvents (p : Params) (prescale : Prescale) (h : Nat) (hi lo ctrl : Word) :
    bytesReceived (resetEvents p prescale h hi lo ctrl) = [] := by
  rw [resetEvents]
  split <;> simp [bytesReceived, resetReadEvents, lightEvents, fullEvents, accessesFrom, appliedBy, lookup]

/-! ## Sizes -/

@[simp] theorem length_sendWriteEvents (p : Params) (cmd : Flags) (data : Byte) (h : Nat) (ws : List Word) :
    (sendWriteEvents p cmd data h ws).length = 3 + 3 * ws.length := by
  rw [sendWriteEvents, List.length_append, length_pollEvents]; rfl

@[simp] theorem length_sendReadEvents (p : Params) (cmd : Flags) (h : Nat) (ws : List Word) :
    (sendReadEvents p cmd h ws).length = 2 + 3 * ws.length := by
  rw [sendReadEvents, List.length_append, length_pollEvents]; rfl

@[simp] theorem length_receiveEvents (h : Nat) (w : Word) : (receiveEvents h w).length = 2 := rfl

/-! ## The words written -/

@[simp] theorem writesTo_data_resetEvents (p : Params) (prescale : Prescale) (h : Nat) (hi lo ctrl : Word) :
    writesTo .data (resetEvents p prescale h hi lo ctrl) = [0] := by
  rw [resetEvents]
  split <;> rfl

@[simp] theorem writesTo_cmd_resetEvents (p : Params) (prescale : Prescale) (h : Nat) (hi lo ctrl : Word) :
    writesTo .cmd (resetEvents p prescale h hi lo ctrl) = [0] := by
  rw [resetEvents]
  split <;> rfl

/-- A reset writes the control register on its FULL path only, which is the longer one. -/
theorem length_resetEvents (p : Params) (prescale : Prescale) (h : Nat) (hi lo ctrl : Word) :
    (resetEvents p prescale h hi lo ctrl).length =
      if writesTo .ctrl (resetEvents p prescale h hi lo ctrl) = [] then 7 else 14 := by
  rw [resetEvents]
  split <;> rfl

@[simp] theorem writesTo_ctrl_sendWriteEvents (p : Params) (cmd : Flags) (data : Byte) (h : Nat) (ws : List Word) :
    writesTo .ctrl (sendWriteEvents p cmd data h ws) = [] := by
  rw [sendWriteEvents, writesTo_append, writesTo_pollEvents]; rfl

@[simp] theorem writesTo_ctrl_sendReadEvents (p : Params) (cmd : Flags) (h : Nat) (ws : List Word) :
    writesTo .ctrl (sendReadEvents p cmd h ws) = [] := by
  rw [sendReadEvents, writesTo_append, writesTo_pollEvents]; rfl

/-- A sequence of bytes written is a beginning of it: all of it on success, at least its first byte, and a bus error where
any of it is not sent. -/
theorem writeSequence_writes {p : Params} {bytes : List (Flags × Byte)} {h : Nat} {tr : List Event}
    {out : Except Err Unit} (hseq : WriteSequence p bytes h tr out) :
    ∃ k ≤ bytes.length, (bytes ≠ [] → 1 ≤ k) ∧
      writesTo .data tr = (bytes.take k).map (fun e => wordOfByte e.2) ∧
      writesTo .cmd tr = (bytes.take k).map (fun e => wordOfByte (writeCommand p e.1)) ∧
      (out = .ok () → k = bytes.length) ∧ (k < bytes.length → ∃ e, out = .error e) := by
  induction bytes generalizing h tr with
  | nil =>
    obtain ⟨rfl, rfl⟩ := hseq
    exact ⟨0, Nat.le_refl 0, fun hne => absurd rfl hne, rfl, rfl, fun _ => rfl, fun hlt => absurd hlt (Nat.lt_irrefl 0)⟩
  | cons e rest ih =>
    obtain ⟨cmd, b⟩ := e
    obtain ⟨ws, -, ⟨e, -, rfl, rfl⟩ | ⟨more, rfl, hrest⟩⟩ := writeSequence_cons_cases hseq
    · exact ⟨1, by simp, fun _ => Nat.le_refl 1, by simp, by simp, nofun, fun _ => ⟨e, rfl⟩⟩
    · obtain ⟨k, hk, -, hdata, hcmd, hok, herr⟩ := ih hrest
      refine ⟨k + 1, Nat.succ_le_succ hk, fun _ => Nat.le_add_left 1 k, ?_, ?_, fun ho => ?_, fun hlt => ?_⟩
      · simp [writesTo_append, hdata]
      · simp [writesTo_append, hcmd]
      · rw [hok ho, List.length_cons]
      · exact herr (Nat.lt_of_succ_lt_succ hlt)

@[simp] theorem length_dataBytes (sendStop : Bool) (bytes : List Byte) : (dataBytes sendStop bytes).length = bytes.length := by
  induction bytes with
  | nil => rfl
  | cons b rest ih => rw [dataBytes, List.length_cons, List.length_cons, ih]

/-- The bytes of a block are its own, whatever their commands. -/
theorem map_snd_dataBytes (sendStop : Bool) (bytes : List Byte) : (dataBytes sendStop bytes).map Prod.snd = bytes := by
  induction bytes with
  | nil => rfl
  | cons b rest ih => rw [dataBytes, List.map_cons, ih]

/-- Settles O26: the sequence written is the address byte and then the block, of which at least the first is sent. -/
theorem writeBlockWritesABeginningOfItsBlock : Obligations.WriteBlockWritesABeginningOfItsBlock := by
  intro addr bytes sendStop s t hs h
  obtain ⟨hi, lo, ctrl, tr, out, htrace, hseq, hresp⟩ := writeBlock_next hs h
  obtain ⟨k, hk, hpos, hdata, hcmd, hok, herr⟩ := writeSequence_writes hseq
  obtain ⟨j, rfl⟩ := Nat.exists_eq_add_of_le' (hpos nofun)
  have hj : j ≤ bytes.length := by simpa using hk
  refine ⟨j, hj, ?_, ?_, fun hunit => ?_, fun hlt => ?_⟩
  · have htake : ((dataBytes sendStop bytes).take j).map (fun e => wordOfByte e.2) = (bytes.take j).map wordOfByte := by
      conv_rhs => rw [← map_snd_dataBytes sendStop bytes, ← List.map_take, List.map_map]
      rfl
    simp [htrace, writesTo_append, hdata, htake]
  · simp [htrace, writesTo_append, hcmd]
  · rw [hresp] at hunit
    cases out with
    | ok u => simpa using hok rfl
    | error e => cases hunit
  · obtain ⟨e, rfl⟩ := herr (by simpa using hlt)
    obtain ⟨kind, hbus, rfl⟩ := writeSequence_error hseq
    exact ⟨_, hresp, hbus⟩

/-! ## Successful sequences -/

/-- A sequence that succeeds is three events a byte and three a poll. -/
theorem writeSequence_size {p : Params} {bytes : List (Flags × Byte)} {h : Nat} {tr : List Event}
    (hseq : WriteSequence p bytes h tr (.ok ())) :
    tr.length = 3 * bytes.length + 3 * (statusWords tr).length ∧ writesTo .ctrl tr = [] := by
  induction bytes generalizing h tr with
  | nil =>
    obtain ⟨rfl, -⟩ := hseq
    exact ⟨rfl, rfl⟩
  | cons e rest ih =>
    obtain ⟨cmd, b⟩ := e
    obtain ⟨ws, -, ⟨e, -, -, hout⟩ | ⟨more, rfl, hrest⟩⟩ := writeSequence_cons_cases hseq
    · cases hout
    · obtain ⟨hlen, hctrl⟩ := ih hrest
      refine ⟨?_, by simp [writesTo_append, hctrl]⟩
      rw [statusWords_append (pendingAfter_sendWriteEvents ..), List.length_append, List.length_append, hlen]
      simp
      omega

/-- A sequence of reads that succeeds: its bytes are those received, it is four events a byte and three a poll, and it
writes each command. -/
theorem readSequence_success {p : Params} {cmds : List Flags} {got bs : List Byte} {h : Nat} {tr : List Event}
    (hseq : ReadSequence p cmds got h tr (.ok bs)) :
    bs = got ++ bytesReceived tr ∧ bs.length = got.length + cmds.length ∧
      tr.length = 4 * cmds.length + 3 * (statusWords tr).length ∧ writesTo .ctrl tr = [] ∧
      writesTo .cmd tr = cmds.map fun cmd => wordOfByte (readCommand p cmd) := by
  induction cmds generalizing got h tr with
  | nil =>
    obtain ⟨rfl, hout⟩ := hseq
    cases hout
    exact ⟨(List.append_nil _).symm, rfl, rfl, rfl, rfl⟩
  | cons cmd rest ih =>
    obtain ⟨ws, -, ⟨e, -, -, hout⟩ | ⟨w, after, rfl, hrest⟩⟩ := readSequence_cons_cases hseq
    · cases hout
    · obtain ⟨hbs, hcount, hlen, hctrl, hcmd⟩ := ih hrest
      refine ⟨?_, ?_, ?_, by simp [writesTo_append, hctrl], by simp [writesTo_append, hcmd]⟩
      · rw [hbs, bytesReceived_append (pendingAfter_sendReadEvents ..), bytesReceived_append rfl]
        simp
      · rw [hcount]
        simp
        omega
      · rw [statusWords_append (pendingAfter_sendReadEvents ..), statusWords_append rfl]
        simp [hlen]
        omega

@[simp] theorem length_readFlags (n : Nat) : (readFlags n).length = n := by
  induction n using readFlags.induct with
  | case1 => rfl
  | case2 => rfl
  | case3 n ih => rw [readFlags, List.length_cons, ih]

/-- A read block that succeeded: the address byte sent as a write, then the bytes. -/
theorem readBlock_success {addr count : Nat} {s t : State} {bs : List Byte} (hs : s.AtRest)
    (h : exec (.readBlock addr count) s = .next t) (hresp : t.response = some (.ok (.bytes bs))) :
    ∃ hi lo ctrl ws more, t.trace = resetEvents s.params s.prescale 1 hi lo ctrl ++
        (sendWriteEvents s.params { sta := true } (addrByte (BitVec.ofNat 7 addr) true) 4 ws ++ more) ∧
      ReadSequence s.params (readFlags count) [] (4 + ws.length) more (.ok bs) := by
  obtain ⟨hi, lo, ctrl, ws, more, out, -, htrace, hreply, hout⟩ := readBlock_next hs h
  rw [hreply] at hresp
  obtain ⟨e, -, -, rfl⟩ | hseq := hout
  · cases hresp
  · cases out with
    | error e => cases hresp
    | ok v =>
      cases hresp
      exact ⟨hi, lo, ctrl, ws, more, htrace, hseq⟩

/-- A write block that succeeded. -/
theorem writeBlock_success {addr : Nat} {bytes : List Byte} {sendStop : Bool} {s t : State} (hs : s.AtRest)
    (h : exec (.writeBlock addr bytes sendStop) s = .next t) (hresp : t.response = some (.ok .unit)) :
    ∃ hi lo ctrl tr, t.trace = resetEvents s.params s.prescale 1 hi lo ctrl ++ tr ∧
      WriteSequence s.params
        (({ sta := true }, addrByte (BitVec.ofNat 7 addr) false) :: dataBytes sendStop bytes) 4 tr (.ok ()) := by
  obtain ⟨hi, lo, ctrl, tr, out, htrace, hseq, hreply⟩ := writeBlock_next hs h
  cases out with
  | ok u => exact ⟨hi, lo, ctrl, tr, htrace, hseq⟩
  | error e => cases hreply.symm.trans hresp

/-- A ping that answered true: both its commands and the byte received. -/
theorem ping_success {addr : Nat} {s t : State} (hs : s.AtRest) (h : exec (.ping addr) s = .next t)
    (hresp : t.response = some (.ok (.bool true))) :
    ∃ ws vs w, t.trace =
      sendWriteEvents s.params { sta := true } (addrByte (BitVec.ofNat 7 addr) true) 1 ws ++
        (sendReadEvents s.params { sto := true, ack := true } (1 + ws.length) vs ++
          receiveEvents (1 + ws.length + vs.length) w) := by
  obtain ⟨answer, next, hreply, hping⟩ := ping_next hs h
  obtain rfl : answer = true := by simpa using hreply.symm.trans hresp
  obtain ⟨ws, -, ⟨hno, -⟩ | ⟨vs, -, ⟨hno, -⟩ | ⟨w, -, htrace⟩⟩⟩ := pingTrace_cases hping
  · cases hno
  · cases hno
  · exact ⟨ws, vs, w, htrace⟩

/-- Settles O28: only the sequence of reads receives bytes. -/
theorem readBlockReturnsTheBytesReceived : Obligations.ReadBlockReturnsTheBytesReceived := by
  intro addr count s t bs hs h hresp
  obtain ⟨hi, lo, ctrl, ws, more, htrace, hseq⟩ := readBlock_success hs h hresp
  obtain ⟨hbs, hcount, -⟩ := readSequence_success hseq
  refine ⟨by simpa using hcount, ?_⟩
  show bs = bytesReceived t.trace
  rw [htrace, bytesReceived_append (pendingAfter_resetEvents ..), bytesReceived_append (pendingAfter_sendWriteEvents ..)]
  simpa using hbs

/-- Settles O29: the sizes of the parts of each trace. -/
theorem successfulTracesHaveTheirSize : Obligations.SuccessfulTracesHaveTheirSize := by
  refine ⟨fun addr bytes sendStop s t hs h hresp => ?_, fun addr count s t bs hs h hresp => ?_, fun addr s t hs h hresp => ?_⟩
  · obtain ⟨hi, lo, ctrl, tr, htrace, hseq⟩ := writeBlock_success hs h hresp
    obtain ⟨hlen, hctrl⟩ := writeSequence_size hseq
    rw [htrace, statusWords_append (pendingAfter_resetEvents ..), writesTo_append, hctrl, List.append_nil,
      List.length_append, length_resetEvents, hlen]
    simp
    omega
  · obtain ⟨hi, lo, ctrl, ws, more, htrace, hseq⟩ := readBlock_success hs h hresp
    obtain ⟨-, -, hlen, hctrl, -⟩ := readSequence_success hseq
    rw [htrace, statusWords_append (pendingAfter_resetEvents ..), statusWords_append (pendingAfter_sendWriteEvents ..),
      writesTo_append, writesTo_append, hctrl, writesTo_ctrl_sendWriteEvents, List.append_nil, List.append_nil,
      List.length_append, List.length_append, length_resetEvents, hlen]
    simp
    omega
  · obtain ⟨ws, vs, w, htrace⟩ := ping_success hs h hresp
    rw [htrace, statusWords_append (pendingAfter_sendWriteEvents ..), statusWords_append (pendingAfter_sendReadEvents ..)]
    simp
    omega

end Sys2Proof.Machine
end

section
/-! PROOFS. What a trace puts on the bus: the words applied to a register are those its trace writes to it, so the bus
transaction is what the commands of the trace make it; every event is one the rules allow; and a bus error is decided by
the last status word, under what the last command has required. -/

namespace Sys2Proof.Machine

/-! ## The words applied to a register -/

/-- The words applied to a register, in order. -/
def wordsApplied (r : Reg) (accesses : List Access) : List Word :=
  accesses.filterMap fun a =>
    match a with
    | .wrote q v => if q = r then some v else none
    | .answered _ _ => none

/-- The words pending for a register, in order. -/
def wordsPending (r : Reg) (queue : List QueueOp) : List Word :=
  queue.filterMap fun op =>
    match op with
    | .write q v => if q = r then some v else none
    | .read _ _ => none

/-- A commit applies every write of its queue. -/
theorem wordsApplied_appliedBy (r : Reg) (q : List QueueOp) (vals : List (Nat × Word)) :
    wordsApplied r (appliedBy q vals) = wordsPending r q := by
  rw [wordsApplied, appliedBy, List.filterMap_filterMap]
  refine List.filterMap_congr fun op _ => ?_
  cases op with
  | write q v => rfl
  | read q h => cases hl : lookup h vals <;> simp [hl]

/-- What a trace applies and leaves pending is what was pending and what it writes. -/
theorem wordsApplied_accessesFrom (r : Reg) (q : List QueueOp) (tr : List Event) :
    wordsApplied r (accessesFrom q tr) ++ wordsPending r (pendingAfter q tr) = wordsPending r q ++ writesTo r tr := by
  induction tr generalizing q with
  | nil => exact (List.append_nil _).symm
  | cons e tr ih =>
    cases e with
    | w x v =>
      rw [accessesFrom, pendingAfter, ih, wordsPending, List.filterMap_append, List.append_assoc]
      exact congrArg _ (writesTo_append r [.w x v] tr).symm
    | r x h =>
      rw [accessesFrom, pendingAfter, ih, wordsPending, List.filterMap_append, List.append_assoc]
      exact congrArg _ (writesTo_append r [.r x h] tr).symm
    | c vals =>
      rw [accessesFrom, pendingAfter, wordsApplied, List.filterMap_append, List.append_assoc]
      exact congrArg₂ (· ++ ·) (wordsApplied_appliedBy r q vals) (ih [])
    | s => exact ih q

/-- The bus operations are the words applied to `CMD` that start one. -/
theorem busOperations_eq (p : Params) (accesses : List Access) :
    busOperations p accesses = (wordsApplied .cmd accesses).filter (startsBusOperation p) := by
  rw [wordsApplied, List.filter_filterMap, busOperations]
  refine List.filterMap_congr fun a _ => ?_
  cases a with
  | answered q v => rfl
  | wrote q v => cases q <;> simp [Option.filter]

/-- The bus operations of an instruction are the commands its trace writes. -/
theorem busOperations_of_exec {i : Instr} {s t : State} (hq : s.queue = []) (h : exec i s = .next t) :
    busOperations s.params t.history =
      busOperations s.params s.history ++ (writesTo .cmd t.trace).filter (startsBusOperation s.params) := by
  obtain ⟨hhistory, hpending⟩ := operationsAreAppliedInTheOrderEnqueued i s t hq h
  have hwords := wordsApplied_accessesFrom .cmd [] t.trace
  rw [hpending] at hwords
  have hwords : wordsApplied .cmd (accessesFrom [] t.trace) = writesTo .cmd t.trace := by
    simpa [wordsPending] using hwords
  rw [hhistory, busOperations_append, busOperations_eq s.params (accessesFrom [] t.trace), hwords]

/-! ## The bus transaction -/

/-- Whether the transaction is open after the commands of a list (41_transactions.md R104). -/
def openAfter (p : Params) (isOpen : Bool) (commands : List Word) : Bool :=
  (commands.filter (startsBusOperation p)).foldl
    (fun isOpen v => if statusBit v p.cmdSto then false else if statusBit v p.cmdSta then true else isOpen) isOpen

theorem openAfter_append (p : Params) (isOpen : Bool) (a b : List Word) :
    openAfter p isOpen (a ++ b) = openAfter p (openAfter p isOpen a) b := by
  rw [openAfter, List.filter_append, List.foldl_append]; rfl

/-- The transaction after an instruction is that of the commands its trace writes. -/
theorem transactionOpen_of_exec {i : Instr} {s t : State} (hq : s.queue = []) (h : exec i s = .next t) :
    transactionOpen s.params t.history =
      openAfter s.params (transactionOpen s.params s.history) (writesTo .cmd t.trace) := by
  rw [transactionOpen, busOperations_of_exec hq h, List.foldl_append]; rfl

/-- The word 0 is no command. -/
theorem openAfter_zero (p : Params) (isOpen : Bool) : openAfter p isOpen [0] = isOpen := by
  simp [openAfter, startsBusOperation, statusBit]

section
variable {p : Params} (m : CommandMasks p)
include m

theorem statusBit_sta_flagsByte (f : Flags) : statusBit (wordOfByte (flagsByte p f)) p.cmdSta = f.sta := by
  rw [statusBit_wordOfByte]; exact congrArg Flags.sta (flagsOfByte_flagsByte m f)

theorem statusBit_sto_flagsByte (f : Flags) : statusBit (wordOfByte (flagsByte p f)) p.cmdSto = f.sto := by
  rw [statusBit_wordOfByte]; exact congrArg Flags.sto (flagsOfByte_flagsByte m f)

theorem statusBit_rd_flagsByte (f : Flags) : statusBit (wordOfByte (flagsByte p f)) p.cmdRd = f.rd := by
  rw [statusBit_wordOfByte]; exact congrArg Flags.rd (flagsOfByte_flagsByte m f)

theorem statusBit_wr_flagsByte (f : Flags) : statusBit (wordOfByte (flagsByte p f)) p.cmdWr = f.wr := by
  rw [statusBit_wordOfByte]; exact congrArg Flags.wr (flagsOfByte_flagsByte m f)

/-- A command closes the transaction with stop, opens it with start, and leaves it otherwise. -/
theorem openAfter_flagsByte (isOpen : Bool) {f : Flags} (hf : (f.rd || f.wr) = true) :
    openAfter p isOpen [wordOfByte (flagsByte p f)] = if f.sto then false else if f.sta then true else isOpen := by
  simp [openAfter, startsBusOperation_flagsByte m, hf, statusBit_sto_flagsByte m, statusBit_sta_flagsByte m]

theorem openAfter_write (isOpen : Bool) (cmd : Flags) :
    openAfter p isOpen [wordOfByte (writeCommand p cmd)] =
      if cmd.sto then false else if cmd.sta then true else isOpen := by
  rw [writeCommand_eq]
  exact openAfter_flagsByte m isOpen (Bool.or_true _)

theorem openAfter_read (isOpen : Bool) (cmd : Flags) :
    openAfter p isOpen [wordOfByte (readCommand p cmd)] =
      if cmd.sto then false else if cmd.sta then true else isOpen := by
  rw [readCommand_eq]
  exact openAfter_flagsByte m isOpen (Bool.true_or _)

/-- The bytes of a block leave an open transaction open exactly if no stop was asked. -/
theorem openAfter_dataBytes (sendStop : Bool) {bytes : List Byte} (hb : bytes ≠ []) :
    openAfter p true ((dataBytes sendStop bytes).map fun e => wordOfByte (writeCommand p e.1)) = !sendStop := by
  induction bytes with
  | nil => exact absurd rfl hb
  | cons b rest ih =>
    rw [dataBytes, List.map_cons, ← List.singleton_append, openAfter_append, openAfter_write m]
    cases rest with
    | nil => cases sendStop <;> rfl
    | cons c rest => exact ih (List.cons_ne_nil c rest)

/-- The commands of a read end with its stop. -/
theorem openAfter_readFlags (isOpen : Bool) {count : Nat} (hc : 1 ≤ count) :
    openAfter p isOpen ((readFlags count).map fun cmd => wordOfByte (readCommand p cmd)) = false := by
  induction count using readFlags.induct generalizing isOpen with
  | case1 => cases hc
  | case2 => rw [readFlags, List.map_singleton, openAfter_read m]; rfl
  | case3 n ih =>
    rw [readFlags, List.map_cons, ← List.singleton_append, openAfter_append]
    exact ih _ (Nat.le_add_left 1 n)

end

/-- Settles O30: the commands of a successful trace, the last of which carries the stop that was asked. -/
theorem transactionsEndWithTheirStop : Obligations.TransactionsEndWithTheirStop := by
  refine ⟨fun addr bytes sendStop s t hs h hresp => ?_, fun addr count s t bs hs h hresp => ?_, fun addr s t hs h hresp => ?_⟩
  · have hm := commandMasks_of_valid hs.params
    obtain ⟨k, -, -, hcmd, hok, -⟩ := writeBlockWritesABeginningOfItsBlock addr bytes sendStop s t hs h
    rw [hok hresp, List.take_of_length_le (by simp)] at hcmd
    obtain ⟨-, hb⟩ := writeBlock_args h
    rw [transactionOpen_of_exec hs.queue h, hcmd, openAfter_append, ← List.singleton_append, openAfter_append,
      openAfter_zero, openAfter_write hm]
    exact openAfter_dataBytes hm sendStop hb
  · have hm := commandMasks_of_valid hs.params
    obtain ⟨hi, lo, ctrl, ws, more, htrace, hseq⟩ := readBlock_success hs h hresp
    obtain ⟨-, -, -, -, hcmd⟩ := readSequence_success hseq
    obtain ⟨-, hc⟩ := readBlock_args h
    rw [transactionOpen_of_exec hs.queue h, htrace, writesTo_append, writesTo_append, hcmd, openAfter_append,
      openAfter_append]
    exact openAfter_readFlags hm _ hc
  · have hm := commandMasks_of_valid hs.params
    obtain ⟨ws, vs, w, htrace⟩ := ping_success hs h hresp
    rw [transactionOpen_of_exec hs.queue h, htrace, writesTo_append, writesTo_append, writesTo_receiveEvents,
      List.append_nil, openAfter_append, writesTo_cmd_sendReadEvents, openAfter_read hm]
    rfl

/-! ## Every event is allowed -/

/-- The events of a trace but for the words its commits resolve. -/
structure EventsAllowed (p : Params) (tr : List Event) : Prop where
  events : ∀ e ∈ tr, (∃ vals, e = .c vals) ∨ eventAllowed p e = true

theorem EventsAllowed.append {p : Params} {a b : List Event} (ha : EventsAllowed p a) (hb : EventsAllowed p b) :
    EventsAllowed p (a ++ b) :=
  ⟨List.forall_mem_append.2 ⟨ha.events, hb.events⟩⟩

theorem eventsAllowed_nil (p : Params) : EventsAllowed p [] := ⟨nofun⟩

theorem eventsAllowed_pollEvents (p : Params) (h : Nat) (ws : List Word) : EventsAllowed p (pollEvents h ws) := by
  induction ws generalizing h with
  | nil => exact eventsAllowed_nil p
  | cons w ws ih =>
    refine EventsAllowed.append ⟨?_⟩ (ih _)
    simp [eventAllowed, engineReads]

theorem eventsAllowed_receiveEvents (p : Params) (h : Nat) (w : Word) : EventsAllowed p (receiveEvents h w) := by
  constructor
  simp [receiveEvents, eventAllowed, engineReads]

theorem wordOfByte_lt (b : Byte) : wordOfByte b < 0x100 := b.isLt

theorem eventsAllowed_resetEvents (p : Params) (prescale : Prescale) (h : Nat) (hi lo ctrl : Word) :
    EventsAllowed p (resetEvents p prescale h hi lo ctrl) := by
  constructor
  rw [resetEvents]
  split <;>
    simp [resetReadEvents, lightEvents, fullEvents, eventAllowed, engineReads, engineWrites, wordOfByte_lt]

section
variable {p : Params} (m : CommandMasks p)
include m

/-- A command with exactly one direction flag is allowed on `CMD` (10_state.md R31). -/
theorem eventAllowed_command {f : Flags} (hf : (f.rd != f.wr) = true) :
    eventAllowed p (.w .cmd (wordOfByte (flagsByte p f))) = true := by
  simp [eventAllowed, engineWrites, wordOfByte_lt, statusBit_rd_flagsByte m, statusBit_wr_flagsByte m, hf]

theorem eventsAllowed_sendWriteEvents {cmd : Flags} (hrd : cmd.rd = false) (data : Byte) (h : Nat) (ws : List Word) :
    EventsAllowed p (sendWriteEvents p cmd data h ws) := by
  refine EventsAllowed.append ⟨?_⟩ (eventsAllowed_pollEvents p h ws)
  rw [writeCommand_eq]
  refine List.forall_mem_cons.2 ⟨.inr ?_, List.forall_mem_cons.2 ⟨.inr ?_, List.forall_mem_singleton.2 (.inl ⟨_, rfl⟩)⟩⟩
  · simp [eventAllowed, engineWrites, wordOfByte_lt]
  · exact eventAllowed_command m (by rw [hrd]; rfl)

theorem eventsAllowed_sendReadEvents {cmd : Flags} (hwr : cmd.wr = false) (h : Nat) (ws : List Word) :
    EventsAllowed p (sendReadEvents p cmd h ws) := by
  refine EventsAllowed.append ⟨?_⟩ (eventsAllowed_pollEvents p h ws)
  rw [readCommand_eq]
  refine List.forall_mem_cons.2 ⟨.inr ?_, List.forall_mem_singleton.2 (.inl ⟨_, rfl⟩)⟩
  exact eventAllowed_command m (by rw [hwr]; rfl)

theorem eventsAllowed_writeSequence {bytes : List (Flags × Byte)} (hb : ∀ e ∈ bytes, e.1.rd = false) {h : Nat}
    {tr : List Event} {out : Except Err Unit} (hseq : WriteSequence p bytes h tr out) : EventsAllowed p tr := by
  induction bytes generalizing h tr with
  | nil =>
    obtain ⟨rfl, -⟩ := hseq
    exact eventsAllowed_nil p
  | cons e rest ih =>
    obtain ⟨hrd, hrest⟩ := List.forall_mem_cons.1 hb
    obtain ⟨ws, -, ⟨e, -, rfl, -⟩ | ⟨more, rfl, hmore⟩⟩ := writeSequence_cons_cases hseq
    · exact eventsAllowed_sendWriteEvents m hrd ..
    · exact (eventsAllowed_sendWriteEvents m hrd ..).append (ih hrest hmore)

theorem eventsAllowed_readSequence {cmds : List Flags} (hc : ∀ cmd ∈ cmds, cmd.wr = false) {got : List Byte} {h : Nat}
    {tr : List Event} {out : Except Err (List Byte)} (hseq : ReadSequence p cmds got h tr out) : EventsAllowed p tr := by
  induction cmds generalizing got h tr with
  | nil =>
    obtain ⟨rfl, -⟩ := hseq
    exact eventsAllowed_nil p
  | cons cmd rest ih =>
    obtain ⟨hwr, hrest⟩ := List.forall_mem_cons.1 hc
    obtain ⟨ws, -, ⟨e, -, rfl, -⟩ | ⟨w, after, rfl, hafter⟩⟩ := readSequence_cons_cases hseq
    · exact eventsAllowed_sendReadEvents m hwr ..
    · exact (eventsAllowed_sendReadEvents m hwr ..).append
        ((eventsAllowed_receiveEvents p _ w).append (ih hrest hafter))

theorem eventsAllowed_pingTrace {a : Addr7} {h : Nat} {tr : List Event} {answer : Bool} {next : Nat}
    (hping : PingTrace p a h tr answer next) : EventsAllowed p tr := by
  have hw := fun h ws => eventsAllowed_sendWriteEvents m (cmd := { sta := true }) rfl (addrByte a true) h ws
  have hr := fun h ws => eventsAllowed_sendReadEvents m (cmd := { sto := true, ack := true }) rfl h ws
  obtain ⟨ws, -, ⟨-, rfl⟩ | ⟨vs, -, ⟨-, rfl⟩ | ⟨w, -, rfl⟩⟩⟩ := pingTrace_cases hping
  · exact hw _ _
  · exact (hw _ _).append (hr _ _)
  · exact (hw _ _).append ((hr _ _).append (eventsAllowed_receiveEvents p _ w))

theorem eventsAllowed_scanTrace {as : List Nat} {h : Nat} {tr : List Event} {found : List Addr7}
    (hscan : ScanTrace p as h tr found) : EventsAllowed p tr := by
  induction as generalizing h tr found with
  | nil =>
    obtain ⟨rfl, -⟩ := hscan
    exact eventsAllowed_nil p
  | cons a as ih =>
    obtain ⟨one, more, answer, next, others, hping, rfl, hrest, -⟩ := hscan
    exact (eventsAllowed_pingTrace m hping).append (ih hrest)

end

theorem rd_of_mem_dataBytes {sendStop : Bool} {bytes : List Byte} : ∀ e ∈ dataBytes sendStop bytes, e.1.rd = false := by
  induction bytes with
  | nil => exact nofun
  | cons b rest ih => exact List.forall_mem_cons.2 ⟨rfl, ih⟩

theorem wr_of_mem_readFlags {count : Nat} : ∀ cmd ∈ readFlags count, cmd.wr = false := by
  induction count using readFlags.induct with
  | case1 => exact nofun
  | case2 => exact List.forall_mem_singleton.2 rfl
  | case3 n ih => exact List.forall_mem_cons.2 ⟨rfl, ih⟩

theorem eventsAllowed_writeBlock {addr : Nat} {bytes : List Byte} {sendStop : Bool} {s t : State} (hs : s.AtRest)
    (h : exec (.writeBlock addr bytes sendStop) s = .next t) : EventsAllowed s.params t.trace := by
  obtain ⟨hi, lo, ctrl, tr, out, htrace, hseq, -⟩ := writeBlock_next hs h
  rw [htrace]
  exact (eventsAllowed_resetEvents ..).append (eventsAllowed_writeSequence (commandMasks_of_valid hs.params)
    (List.forall_mem_cons.2 ⟨rfl, rd_of_mem_dataBytes⟩) hseq)

theorem eventsAllowed_readBlock {addr count : Nat} {s t : State} (hs : s.AtRest)
    (h : exec (.readBlock addr count) s = .next t) : EventsAllowed s.params t.trace := by
  have hm := commandMasks_of_valid hs.params
  obtain ⟨hi, lo, ctrl, ws, more, out, -, htrace, -, hout⟩ := readBlock_next hs h
  have hmore : EventsAllowed s.params more := by
    obtain ⟨e, -, rfl, -⟩ | hseq := hout
    · exact eventsAllowed_nil _
    · exact eventsAllowed_readSequence hm wr_of_mem_readFlags hseq
  rw [htrace]
  exact (eventsAllowed_resetEvents ..).append ((eventsAllowed_sendWriteEvents hm rfl ..).append hmore)

/-- A command byte's one write. -/
theorem eventsAllowed_command {v : Byte} {s : State} (hq : s.queue = []) {p : Params}
    (hv : eventAllowed p (.w .cmd (wordOfByte v)) = true) : EventsAllowed p (commandOp v s.accept).trace := by
  rw [(commandOp_spec v hq).1]
  exact ⟨List.forall_mem_cons.2 ⟨.inr hv, List.forall_mem_singleton.2 (.inl ⟨_, rfl⟩)⟩⟩

/-- Every instruction's events are allowed, but for what is said of the words resolved. -/
theorem eventsAllowed_exec {i : Instr} {s t : State} (hs : s.AtRest) (h : exec i s = .next t) :
    EventsAllowed s.params t.trace := by
  have hm := commandMasks_of_valid hs.params
  have hrun := h
  rw [exec_of_ready _ hs.toReady] at hrun
  cases i with
  | configure ratio => cases hrun; exact eventsAllowed_nil _
  | reset =>
    obtain ⟨hi, lo, ctrl, u, hu, -, htrace⟩ := resetTakesThePathItsPrescaleChooses s hs
    obtain rfl : u = t := by rw [hu] at h; injection h
    rw [htrace]
    exact eventsAllowed_resetEvents ..
  | sendWrite cmd data =>
    obtain ⟨ws, -, htrace, -⟩ := sendWrite_next hs h
    rw [htrace]
    exact eventsAllowed_sendWriteEvents hm (rd_of_exec_sendWrite h) ..
  | sendRead cmd =>
    have hr := eventsAllowed_sendReadEvents hm (wr_of_exec_sendRead h)
    obtain ⟨ws, -, ⟨e, -, htrace, -⟩ | ⟨w, htrace, -⟩⟩ := sendRead_next hs h
    · rw [htrace]; exact hr ..
    · rw [htrace]; exact (hr ..).append (eventsAllowed_receiveEvents ..)
  | wait reqAck reqIdle =>
    obtain ⟨ws, u, -, hu, htrace, -⟩ := exec_wait_spec reqAck reqIdle hs
    obtain rfl : u = t := by rw [hu] at h; injection h
    rw [htrace]
    exact eventsAllowed_pollEvents ..
  | writeBlock addr bytes sendStop => exact eventsAllowed_writeBlock hs h
  | readBlock addr count => exact eventsAllowed_readBlock hs h
  | ping addr =>
    obtain ⟨answer, next, -, hping⟩ := ping_next hs h
    exact eventsAllowed_pingTrace hm hping
  | scan =>
    obtain ⟨found, u, hu, -, hscan, -⟩ := scanPingsEveryAddress s hs
    obtain rfl : u = t := by rw [hu] at h; injection h
    exact eventsAllowed_scanTrace hm hscan
  | getSlaveAddress n =>
    rw [getSlaveAddressLooksTheNameUp n s hs.toReady] at h
    cases h; exact eventsAllowed_nil _
  | getSlave n =>
    rw [exec_getSlave_of_ready n hs.toReady] at h
    cases h; exact eventsAllowed_nil _
  | slaveWriteBlock hd bytes sendStop => exact eventsAllowed_writeBlock (addr := hd.addr.toNat) hs h
  | slaveReadBlock hd count => exact eventsAllowed_readBlock (addr := hd.addr.toNat) hs h
  | cmdZero =>
    cases hrun
    exact eventsAllowed_command hs.queue (by simp [eventAllowed, engineWrites, wordOfByte])
  | cmdWrite sta sto ack =>
    cases hrun
    exact eventsAllowed_command hs.queue (writeCommand_eq s.params _ ▸ eventAllowed_command hm rfl)
  | cmdRead sta sto ack =>
    cases hrun
    exact eventsAllowed_command hs.queue (readCommand_eq s.params _ ▸ eventAllowed_command hm rfl)

/-- Settles O47: the words a stretch resolves are of `REG_WIDTH` bits, and its other events are allowed. -/
theorem everyBusEventIsAllowed : Obligations.EveryBusEventIsAllowed := by
  intro i s t hq h
  obtain ⟨u, seq, response, hx, -, -, -⟩ := exec_stretch hq h
  rw [List.all_eq_true]
  intro e he
  obtain ⟨vals, rfl⟩ | hallowed := (eventsAllowed_exec (atRest_of_exec hq h) h).events e he
  · have hreads := hx.reads vals he
    rw [acceptedFor_params] at hreads
    exact List.all_eq_true.2 fun v hv => decide_eq_true (hreads v hv)
  · exact hallowed

end Sys2Proof.Machine
end

section
/-! PROOFS. Where bus errors come from (60_exceptions.md R130, R133): a trace that ends in one ends on the poll whose last word
decides it, and what that wait required is read off the command written last. -/

namespace Sys2Proof.Machine

/-- A trace ends on a status read whose word decides the error, under what its wait required. -/
def EndsOn (p : Params) (required : Bool × Bool) (tr : List Event) (e : Err) : Prop :=
  ∃ before h last, tr = before ++ [.s, .r .status h, .c [(h, last)]] ∧
    verdictOf p required.1 required.2 last = .error e

theorem EndsOn.prepend {p : Params} {required : Bool × Bool} {tr : List Event} {e : Err} (h : EndsOn p required tr e)
    (front : List Event) : EndsOn p required (front ++ tr) e := by
  obtain ⟨before, k, last, rfl, hverdict⟩ := h
  exact ⟨front ++ before, k, last, (List.append_assoc ..).symm, hverdict⟩

theorem pollEvents_append (h : Nat) (ws vs : List Word) :
    pollEvents h (ws ++ vs) = pollEvents h ws ++ pollEvents (h + ws.length) vs := by
  induction ws generalizing h with
  | nil => rfl
  | cons w ws ih =>
    rw [List.cons_append, pollEvents, pollEvents, ih, List.append_assoc, List.length_cons, Nat.add_right_comm,
      Nat.add_assoc]

/-- The polls of a wait that fails. -/
theorem endsOn_pollEvents {p : Params} {required : Bool × Bool} {ws : List Word} {e : Err} (hw : PollWords p ws)
    (hverdict : waitVerdict p required.1 required.2 ws = .error e) (h : Nat) : EndsOn p required (pollEvents h ws) e := by
  obtain ⟨before, last, rfl, -⟩ := hw
  rw [waitVerdict, getLastD_append_one] at hverdict
  exact ⟨pollEvents h before, h + before.length, last, pollEvents_append h before [last], hverdict⟩

/-- What the wait for a command's completion requires (40_primitives.md R86, R87). -/
def requiredBy (p : Params) (cmd : Word) : Bool × Bool :=
  (statusBit cmd p.cmdWr, statusBit cmd p.cmdSto && (statusBit cmd p.cmdWr || p.readIdleOnStop))

/-- A trace ends in the error of the command it has written last. -/
structure FailsOnCommand (p : Params) (tr : List Event) (e : Err) : Prop where
  written : writesTo .cmd tr ≠ []
  ends    : EndsOn p (requiredBy p ((writesTo .cmd tr).getLastD 0)) tr e

theorem FailsOnCommand.prepend {p : Params} {tr : List Event} {e : Err} (h : FailsOnCommand p tr e)
    (front : List Event) : FailsOnCommand p (front ++ tr) e := by
  have hlast : (writesTo .cmd (front ++ tr)).getLastD 0 = (writesTo .cmd tr).getLastD 0 := by
    rw [writesTo_append, List.getLastD_eq_getLast?, List.getLastD_eq_getLast?, List.getLast?_append_of_ne_nil _ h.written]
  refine ⟨?_, hlast ▸ h.ends.prepend front⟩
  rw [writesTo_append]
  exact List.append_ne_nil_of_right_ne_nil _ h.written

section
variable {p : Params} (m : CommandMasks p) {ws : List Word} {e : Err} (hw : PollWords p ws)
include m hw

theorem failsOnCommand_sendWrite {cmd : Flags} (data : Byte) (hverdict : waitVerdict p true cmd.sto ws = .error e)
    (h : Nat) : FailsOnCommand p (sendWriteEvents p cmd data h ws) e := by
  have hreq : requiredBy p (wordOfByte (writeCommand p cmd)) = (true, cmd.sto) := by
    simp [writeCommand_eq, requiredBy, statusBit_wr_flagsByte m, statusBit_sto_flagsByte m]
  refine ⟨by simp, ?_⟩
  rw [writesTo_cmd_sendWriteEvents, show ∀ w : Word, [w].getLastD 0 = w from fun _ => rfl, hreq]
  exact (endsOn_pollEvents (required := (true, cmd.sto)) hw hverdict h).prepend _

theorem failsOnCommand_sendRead {cmd : Flags} (hwr : cmd.wr = false)
    (hverdict : waitVerdict p false (readNeedsIdle p cmd) ws = .error e) (h : Nat) :
    FailsOnCommand p (sendReadEvents p cmd h ws) e := by
  have hreq : requiredBy p (wordOfByte (readCommand p cmd)) = (false, readNeedsIdle p cmd) := by
    simp [readCommand_eq, requiredBy, readNeedsIdle, statusBit_wr_flagsByte m, statusBit_sto_flagsByte m, hwr,
      Bool.and_comm]
  refine ⟨by simp, ?_⟩
  rw [writesTo_cmd_sendReadEvents, show ∀ w : Word, [w].getLastD 0 = w from fun _ => rfl, hreq]
  exact (endsOn_pollEvents (required := (false, readNeedsIdle p cmd)) hw hverdict h).prepend _

end

theorem failsOnCommand_writeSequence {p : Params} (m : CommandMasks p) {bytes : List (Flags × Byte)} {h : Nat}
    {tr : List Event} {e : Err} (hseq : WriteSequence p bytes h tr (.error e)) : FailsOnCommand p tr e := by
  induction bytes generalizing h tr with
  | nil =>
    obtain ⟨-, hout⟩ := hseq
    cases hout
  | cons b rest ih =>
    obtain ⟨ws, hw, ⟨e, hverdict, rfl, hout⟩ | ⟨more, rfl, hmore⟩⟩ := writeSequence_cons_cases hseq
    · cases hout
      exact failsOnCommand_sendWrite m hw _ hverdict h
    · exact (ih hmore).prepend _

theorem failsOnCommand_readSequence {p : Params} (m : CommandMasks p) {cmds : List Flags}
    (hc : ∀ cmd ∈ cmds, cmd.wr = false) {got : List Byte} {h : Nat} {tr : List Event} {e : Err}
    (hseq : ReadSequence p cmds got h tr (.error e)) : FailsOnCommand p tr e := by
  induction cmds generalizing got h tr with
  | nil =>
    obtain ⟨-, hout⟩ := hseq
    cases hout
  | cons cmd rest ih =>
    obtain ⟨hwr, hrest⟩ := List.forall_mem_cons.1 hc
    obtain ⟨ws, hw, ⟨e, hverdict, rfl, hout⟩ | ⟨w, after, rfl, hafter⟩⟩ := readSequence_cons_cases hseq
    · cases hout
      exact failsOnCommand_sendRead m hw hwr hverdict h
    · exact ((ih hrest hafter).prepend _).prepend _

/-- The error of a reply delivered. -/
theorem out_of_reply_err {α : Type} {wrap : α → Val} {out : Except Err α} {e : Err}
    (h : some (replyOf wrap out) = some (.err e)) : out = .error e :=
  (replyOf_eq_err_iff wrap out e).1 (Option.some.inj h)

theorem failsOnCommand_writeBlock {addr : Nat} {bytes : List Byte} {sendStop : Bool} {s t : State} {e : Err}
    (hs : s.AtRest) (h : exec (.writeBlock addr bytes sendStop) s = .next t) (hresp : t.response = some (.err e)) :
    FailsOnCommand s.params t.trace e := by
  obtain ⟨hi, lo, ctrl, tr, out, htrace, hseq, hreply⟩ := writeBlock_next hs h
  obtain rfl := out_of_reply_err (hreply.symm.trans hresp)
  rw [htrace]
  exact (failsOnCommand_writeSequence (commandMasks_of_valid hs.params) hseq).prepend _

theorem failsOnCommand_readBlock {addr count : Nat} {s t : State} {e : Err}
    (hs : s.AtRest) (h : exec (.readBlock addr count) s = .next t) (hresp : t.response = some (.err e)) :
    FailsOnCommand s.params t.trace e := by
  have hm := commandMasks_of_valid hs.params
  obtain ⟨hi, lo, ctrl, ws, more, out, hw, htrace, hreply, hout⟩ := readBlock_next hs h
  obtain rfl := out_of_reply_err (hreply.symm.trans hresp)
  rw [htrace]
  obtain ⟨e, hverdict, rfl, he⟩ | hseq := hout
  · cases he
    rw [List.append_nil]
    exact (failsOnCommand_sendWrite hm hw _ hverdict 4).prepend _
  · exact ((failsOnCommand_readSequence hm wr_of_mem_readFlags hseq).prepend _).prepend _

/-- Settles O49: the requests that can report a bus error end on the poll that decided it; the others report none. -/
theorem busErrorsComeFromTheLastStatus : Obligations.BusErrorsComeFromTheLastStatus := by
  intro i s t e hq h hresp hbus
  have hs := atRest_of_exec hq h
  have hm := commandMasks_of_valid hs.params
  have hrun := h
  rw [exec_of_ready _ hs.toReady] at hrun
  cases i with
  | configure ratio => cases raised_of_next hrun hresp
  | reset =>
    obtain ⟨hi, lo, ctrl, u, hu, hok, -⟩ := resetTakesThePathItsPrescaleChooses s hs
    obtain rfl : u = t := by rw [hu] at h; injection h
    cases hok.symm.trans hresp
  | sendWrite cmd data =>
    obtain ⟨ws, hw, htrace, hreply⟩ := sendWrite_next hs h
    rw [htrace]
    exact (failsOnCommand_sendWrite hm hw data (out_of_reply_err (hreply.symm.trans hresp)) 1).ends
  | sendRead cmd =>
    obtain ⟨ws, hw, ⟨e', hverdict, htrace, hreply⟩ | ⟨w, -, hreply⟩⟩ := sendRead_next hs h
    · cases hreply.symm.trans hresp
      rw [htrace]
      exact (failsOnCommand_sendRead hm hw (wr_of_exec_sendRead h) hverdict 1).ends
    · cases hreply.symm.trans hresp
  | wait reqAck reqIdle =>
    obtain ⟨ws, u, hw, hu, htrace, hreply⟩ := exec_wait_spec reqAck reqIdle hs
    obtain rfl : u = t := by rw [hu] at h; injection h
    rw [htrace]
    exact endsOn_pollEvents (required := (reqAck, reqIdle)) hw (out_of_reply_err (hreply.symm.trans hresp)) 1
  | writeBlock addr bytes sendStop => exact (failsOnCommand_writeBlock hs h hresp).ends
  | readBlock addr count => exact (failsOnCommand_readBlock hs h hresp).ends
  | ping addr =>
    obtain ⟨answer, next, hreply, -⟩ := ping_next hs h
    cases hreply.symm.trans hresp
  | scan =>
    obtain ⟨found, u, hu, hreply, -⟩ := scanPingsEveryAddress s hs
    obtain rfl : u = t := by rw [hu] at h; injection h
    cases hreply.symm.trans hresp
  | getSlaveAddress n => rw [getSlaveAddressOp_error (raised_of_next hrun hresp)] at hbus; cases hbus
  | getSlave n => rw [getSlaveOp_error (raised_of_next hrun hresp)] at hbus; cases hbus
  | slaveWriteBlock hd bytes sendStop => exact (failsOnCommand_writeBlock (addr := hd.addr.toNat) hs h hresp).ends
  | slaveReadBlock hd count => exact (failsOnCommand_readBlock (addr := hd.addr.toNat) hs h hresp).ends
  | cmdZero => cases (command_response (id h : execCmdZero s = .next t)).symm.trans hresp
  | cmdWrite sta sto ack => cases (command_response (id h : execCmdWrite sta sto ack s = .next t)).symm.trans hresp
  | cmdRead sta sto ack => cases (command_response (id h : execCmdRead sta sto ack s = .next t)).symm.trans hresp

end Sys2Proof.Machine
end

section
/-! PROOFS. A request run line by line comes to the outcome `exec` gives it (log entry 4). An operation's lines come, from its
first, to where the operation run whole concludes: a return to the caller's frame, or an error unwound through the callers
(`conclude`). Each operation is proved once, for any callers; a call is then the callee's own lemma. -/

namespace Sys2Proof.Machine

/-! ## Coming to an outcome -/

/-- A number of steps come to the outcome. -/
def Comes (s : State) (o : Host.Outcome State Fault Refusal) : Prop := ∃ n, Sys2Proof.core.run n s = o

theorem Comes.refl (s : State) : Comes s (.next s) := ⟨0, rfl⟩

theorem run_of_next {M : Host.Core} {s t : M.State} (n : Nat) (h : M.step s = .next t) :
    M.run (n + 1) s = M.run n t := by
  rw [Host.Core.run, h]

theorem run_of_fault {M : Host.Core} {s : M.State} {r : M.Fault} (n : Nat) (h : M.step s = .fault r) :
    M.run (n + 1) s = .fault r := by
  rw [Host.Core.run, h]

theorem Comes.of_step {s t : State} {o : Host.Outcome State Fault Refusal} (h : step s = .next t) (ht : Comes t o) :
    Comes s o := by
  obtain ⟨n, hn⟩ := ht
  exact ⟨n + 1, (run_of_next (M := Sys2Proof.core) n h).trans hn⟩

theorem Comes.of_fault {s : State} {r : Fault} (h : step s = .fault r) : Comes s (.fault r) :=
  ⟨1, run_of_fault (M := Sys2Proof.core) 0 h⟩

/-- An engine that can run lines undisturbed: parameters it takes, and no other presentation. -/
def Solo (s : State) : Prop := paramsValid s.params = true ∧ s.port = []

theorem Solo.commit {s : State} (h : Solo s) : Solo s.commit := by
  obtain ⟨hv, hport⟩ := h
  exact ⟨by simpa using hv, by simpa using hport⟩

section
variable {s : State} (h : Solo s)
include h

theorem Solo.memWrite (r : Reg) (v : Word) : Solo (s.memWrite r v) := h
theorem Solo.memRead (r : Reg) : Solo (s.memRead r) := h
theorem Solo.sleep : Solo s.sleep := h
theorem Solo.setPrescale (v : Prescale) : Solo (s.setPrescale v) := h
theorem Solo.setAttempt (n : Nat) : Solo (s.setAttempt n) := h
theorem Solo.setStatus (w : Word) : Solo (s.setStatus w) := h

end

/-- Between two operations: undisturbed, nothing pending, the next handle fresh. -/
structure Lone (s : State) : Prop where
  solo    : Solo s
  between : Between s

theorem Lone.valid {s : State} (h : Lone s) : paramsValid s.params = true := h.solo.1

theorem Lone.of_extends {s t : State} {tr : List Event} {ds : List Reg} (h : Lone s) (hx : Extends s t tr ds) : Lone t :=
  ⟨⟨hx.params ▸ h.valid, hx.port.trans h.solo.2⟩, hx.between⟩

/-! ## No line looks at the position it was reached at -/

section
variable (s : State) (q : Seq)

@[simp] theorem setSeq_memWrite (r : Reg) (v : Word) : (s.setSeq q).memWrite r v = (s.memWrite r v).setSeq q := rfl
@[simp] theorem setSeq_memRead (r : Reg) : (s.setSeq q).memRead r = (s.memRead r).setSeq q := rfl
@[simp] theorem setSeq_sleep : (s.setSeq q).sleep = s.sleep.setSeq q := rfl
@[simp] theorem setSeq_setPrescale (v : Prescale) : (s.setSeq q).setPrescale v = (s.setPrescale v).setSeq q := rfl
@[simp] theorem setSeq_setAttempt (n : Nat) : (s.setSeq q).setAttempt n = (s.setAttempt n).setSeq q := rfl
@[simp] theorem setSeq_setStatus (w : Word) : (s.setSeq q).setStatus w = (s.setStatus w).setSeq q := rfl
@[simp] theorem setSeq_undefine : (s.setSeq q).undefine = s.undefine.setSeq q := rfl
@[simp] theorem setSeq_goTo (f : Frame) (cs : List Frame) (n : Nat) : (s.setSeq q).goTo f cs n = s.goTo f cs n := rfl
@[simp] theorem setSeq_callOp (f : Frame) (cs : List Frame) (n : Nat) (op : Instr) :
    (s.setSeq q).callOp f cs n op = s.callOp f cs n op := rfl
@[simp] theorem setSeq_readAt (f : Frame) (cs : List Frame) (n : Nat) (r : Reg) :
    (s.setSeq q).readAt f cs n r = s.readAt f cs n r := rfl
@[simp] theorem setSeq_resolvedValue (h : Nat) : (s.setSeq q).resolvedValue h = s.resolvedValue h := rfl

@[simp] theorem setSeq_returnTo (v : Val) (cs : List Frame) : (s.setSeq q).returnTo v cs = s.returnTo v cs := by
  cases cs <;> rfl

@[simp] theorem setSeq_unwind (e : Err) (cs : List Frame) : (s.setSeq q).unwind e cs = s.unwind e cs := by
  induction cs with
  | nil => rfl
  | cons f cs ih => rw [State.unwind, State.unwind, ih, setSeq_goTo]

@[simp] theorem setSeq_raiseAt (kind : ErrorKind) (cs : List Frame) :
    (s.setSeq q).raiseAt kind cs = s.raiseAt kind cs := setSeq_unwind ..

theorem setSeq_applyAll (ops : List QueueOp) :
    applyAll ops (s.setSeq q) = ((applyAll ops s).1.setSeq q, (applyAll ops s).2) := by
  induction ops generalizing s with
  | nil => rfl
  | cons op ops ih =>
    cases op with
    | write r v => exact ih (s.applyWrite r v)
    | read r h =>
      have hrest := ih (s.takeAnswer r)
      rw [applyAll, applyAll]
      exact congrArg (fun x : State × List (Nat × Word) => (x.1, (h, s.nextAnswer r) :: x.2)) hrest

@[simp] theorem setSeq_commit : (s.setSeq q).commit = s.commit.setSeq q := by
  have h := setSeq_applyAll s q s.queue
  rw [State.commit, show (s.setSeq q).queue = s.queue from rfl, h]
  rfl

@[simp] theorem setSeq_withVal (h : Nat) (k : Word → Host.Outcome State Fault Refusal) :
    withVal (s.setSeq q) h k = withVal s h k := rfl

/-- A line depends on the frames it is given, not on the `seq` of the state. -/
theorem lineOf_setSeq (f : Frame) (cs : List Frame) : lineOf f cs (s.setSeq q) = lineOf f cs s := by
  rw [lineOf, lineOf]
  cases f.op with
  | configure ratio => simp [lineConfigure]
  | reset => simp only [lineReset, setSeq_goTo, setSeq_readAt, setSeq_commit, setSeq_memWrite, setSeq_returnTo] <;> rfl
  | sendWrite cmd data => simp [lineSendWrite]
  | sendRead cmd => simp [lineSendRead]
  | wait reqAck reqIdle => simp [lineWait] <;> rfl
  | writeBlock addr bytes sendStop => simp [lineWriteBlock]
  | readBlock addr count => simp [lineReadBlock]
  | ping addr => simp [linePing]
  | scan => simp only [lineScan, setSeq_goTo, setSeq_callOp, setSeq_returnTo] <;> rfl
  | getSlaveAddress n => simp [lineGetSlaveAddress]
  | getSlave n => simp [lineGetSlave]
  | slaveWriteBlock h bytes sendStop => simp [lineSlave]
  | slaveReadBlock h count => simp [lineSlave]
  | cmdZero => rfl
  | cmdWrite sta sto ack => rfl
  | cmdRead sta sto ack => rfl

end

/-- A step at a position is the line there. -/
theorem step_at {s : State} (hs : Solo s) (f : Frame) (cs : List Frame) :
    step (s.setSeq (.running f cs)) = lineOf f cs s := by
  have halone : ∀ w ∈ (s.setSeq (.running f cs)).port.head?, w.serialized = true := by simp [hs.2]
  rw [step_of_running (s := s.setSeq (.running f cs)) hs.1 rfl halone]
  exact (if_pos hs.1).trans (lineOf_setSeq s _ f cs)

theorem Comes.line {s t : State} {f : Frame} {cs : List Frame} {o : Host.Outcome State Fault Refusal} (hs : Solo s)
    (h : lineOf f cs s = .next t) (ht : Comes t o) : Comes (s.setSeq (.running f cs)) o :=
  .of_step ((step_at hs f cs).trans h) ht

theorem Comes.faults {s : State} {f : Frame} {cs : List Frame} {r : Fault} (hs : Solo s)
    (h : lineOf f cs s = .fault r) : Comes (s.setSeq (.running f cs)) (.fault r) :=
  .of_fault ((step_at hs f cs).trans h)

/-! ## Where an operation concludes -/

/-- The state in which an operation run whole leaves its callers. -/
def conclude {α : Type} (wrap : α → Val) (r : Run α) (cs : List Frame) : State :=
  match r with
  | (t, .ok a) => t.returnTo (wrap a) cs
  | (t, .error e) => t.unwind e cs

theorem conclude_nil {α : Type} (wrap : α → Val) (r : Run α) : conclude wrap r [] = respond wrap r := by
  obtain ⟨t, out⟩ := r
  cases out <;> rfl

theorem andThen_returning {α : Type} (r : Run α) : andThen r (fun t a => returning t a) = r := by
  obtain ⟨t, out⟩ := r
  cases out <;> rfl

/-- The lines of an operation, from its first and under any callers, come to where `run`, the operation run whole,
concludes, between two operations again. -/
structure LinesRun {α : Type} (op : Instr) (wrap : α → Val) (run : State → Run α) : Prop where
  keeps : ∀ s, Lone s → ∃ tr ds, Extends s (run s).1 tr ds
  lines : ∀ (s : State) (cs : List Frame) (o : Host.Outcome State Fault Refusal), Lone s →
    Comes (conclude wrap (run s) cs) o → Comes (s.setSeq (.running (startFrame op) cs)) o

theorem extends_of_run {α : Type} {r : Run α} {s t : State} {out : Except Err α} {tr : List Event} {ds : List Reg}
    (hrun : r = (t, out)) (hx : Extends s t tr ds) : ∃ tr ds, Extends s r.1 tr ds :=
  ⟨tr, ds, by rw [hrun]; exact hx⟩

section
variable {α β : Type} {op : Instr} {wrap : α → Val} {wrap' : β → Val} {run : State → Run α}
  (hop : LinesRun op wrap run) {s : State} (hs : Lone s) {k : State → α → Run β} {f : Frame} {cs : List Frame}
  {o : Host.Outcome State Fault Refusal}
include hop hs

/-- The outermost operation comes to its response. -/
theorem LinesRun.whole : Comes (s.setSeq (.running (startFrame op) [])) (.next (respond wrap (run s))) :=
  hop.lines s [] _ hs (conclude_nil wrap (run s) ▸ .refl _)

theorem LinesRun.lone : Lone (run s).1 := by
  obtain ⟨tr, ds, hx⟩ := hop.keeps s hs
  exact hs.of_extends hx

theorem LinesRun.params : (run s).1.params = s.params := by
  obtain ⟨tr, ds, hx⟩ := hop.keeps s hs
  exact hx.params

/-- A call from a caller that catches nothing: an error passes it, and a value returned is there when it goes on. -/
theorem LinesRun.call (hcatch : ∀ e, catches e f = false)
    (hgo : ∀ t a, Lone t → t.params = s.params → Comes (conclude wrap' (k t a) cs) o →
      Comes (t.setSeq (.running { f with returned := wrap a } cs)) o)
    (h : Comes (conclude wrap' (andThen (run s) k) cs) o) :
    Comes (s.setSeq (.running (startFrame op) (f :: cs))) o := by
  refine hop.lines s (f :: cs) o hs ?_
  have ht := hop.lone hs
  have hp := hop.params hs
  cases hrun : run s with
  | mk t out =>
    rw [hrun] at h ht hp
    cases out with
    | ok a => exact hgo t a ht hp h
    | error e =>
      rw [conclude, State.unwind, hcatch]
      exact h

/-- A call whose value the caller returns. -/
theorem LinesRun.callAndReturn {wrap' : α → Val} (hcatch : ∀ e, catches e f = false)
    (hgo : ∀ t a, Lone t → Comes (t.returnTo (wrap' a) cs) o →
      Comes (t.setSeq (.running { f with returned := wrap a } cs)) o)
    (h : Comes (conclude wrap' (run s) cs) o) : Comes (s.setSeq (.running (startFrame op) (f :: cs))) o :=
  hop.call (k := fun t a => returning t a) hs hcatch (fun t a ht _ h => hgo t a ht h)
    (by rw [andThen_returning]; exact h)

/-- A call from the body of a `try`: a bus error takes the caller to its handler's line. -/
theorem LinesRun.callCaught {handler : State → Run β} (hcatch : ∀ e, catches e f = isBusError e.kind)
    (hgo : ∀ t a, Lone t → Comes (conclude wrap' (catchBusError (k t a) handler) cs) o →
      Comes (t.setSeq (.running { f with returned := wrap a } cs)) o)
    (hhandler : ∀ t, Lone t → Comes (conclude wrap' (handler t) cs) o → Comes (t.goTo f cs pingHandlerLine) o)
    (h : Comes (conclude wrap' (catchBusError (andThen (run s) k) handler) cs) o) :
    Comes (s.setSeq (.running (startFrame op) (f :: cs))) o := by
  refine hop.lines s (f :: cs) o hs ?_
  have ht := hop.lone hs
  cases hrun : run s with
  | mk t out =>
    rw [hrun] at h ht
    cases out with
    | ok a => exact hgo t a ht h
    | error e =>
      rw [conclude, State.unwind, hcatch]
      rw [andThen, catchBusError] at h
      split at h
      · next hbus =>
        rw [if_pos hbus]
        exact hhandler t ht h
      · next hbus =>
        rw [if_neg hbus]
        exact h

end

/-- A handle a commit has resolved gives its value. -/
theorem withVal_of_isSome {s : State} {h : Nat} (hh : (s.resolvedValue h).isSome = true)
    (k : Word → Host.Outcome State Fault Refusal) : withVal s h k = k (s.val h) := by
  obtain ⟨w, hw⟩ := Option.isSome_iff_exists.1 hh
  rw [withVal, State.val, hw]; rfl

/-! ## RESET -/

/-- A position of `RESET`. -/
def resetAt (line : Nat) (handles : List Nat) (latched : Prescale) : Frame :=
  { startFrame .reset with line := line, handles := handles, latched := latched }

/-- The LIGHT lines (R84). -/
theorem comes_light {s : State} (hs : Solo s) {handles : List Nat} {latched : Prescale} {cs : List Frame}
    {o : Host.Outcome State Fault Refusal} (h : Comes ((zeroDataAndCommand s).returnTo .unit cs) o) :
    Comes (s.setSeq (.running (resetAt 16 handles latched) cs)) o :=
  .line hs rfl <| .line (hs.memWrite ..) rfl <| .line ((hs.memWrite ..).memWrite ..) rfl <|
    .line ((hs.memWrite ..).memWrite ..).commit rfl h

/-- The FULL lines (R83). -/
theorem comes_full {s : State} (hs : Solo s) {handles : List Nat} {latched : Prescale} {cs : List Frame}
    {o : Host.Outcome State Fault Refusal} (h : Comes ((fullReset s).returnTo .unit cs) o) :
    Comes (s.setSeq (.running (resetAt 6 handles latched) cs)) o := by
  have h1 : Solo (s.writeCommitted .ctrl s.params.ctrlDisable) := (hs.memWrite ..).commit
  have h2 := ((h1.memWrite .psHi (wordOfByte (prescaleHigh (s.writeCommitted .ctrl s.params.ctrlDisable).prescale))).memWrite
    .psLo (wordOfByte (prescaleLow (s.writeCommitted .ctrl s.params.ctrlDisable).prescale))).commit
  have h3 : Solo (zeroDataAndCommand _) := ((h2.memWrite .data 0).memWrite .cmd 0).commit
  refine .line hs rfl <| .line (hs.memWrite ..) rfl ?_
  refine .line h1 rfl <| .line (h1.memWrite ..) rfl <| .line ((h1.memWrite ..).memWrite ..) rfl ?_
  refine .line h2 rfl <| .line (h2.memWrite ..) rfl <| .line ((h2.memWrite ..).memWrite ..) rfl ?_
  exact .line h3 rfl <| .line (h3.memWrite ..) rfl <| .line (h3.memWrite ..).commit rfl h

/-- The choice of path (R82) and the lines of the path chosen. -/
theorem comes_resetPath {s : State} (hs : Solo s) {handles : List Nat} {latched : Prescale} {cs : List Frame}
    {o : Host.Outcome State Fault Refusal}
    (h : Comes ((if latched = s.prescale then zeroDataAndCommand s else fullReset s).returnTo .unit cs) o) :
    Comes (s.setSeq (.running (resetAt 5 handles latched) cs)) o := by
  refine .line (t := s.goTo (resetAt 5 handles latched) cs (if latched = s.prescale then 16 else 6)) hs rfl ?_
  split at h
  · next hl =>
    rw [if_pos hl]
    exact comes_light hs h
  · next hl =>
    rw [if_neg hl]
    exact comes_full hs h

/-- The line that computes `latched` from the words read. -/
theorem lineOf_resetAt_four {latched : Prescale} {cs : List Frame} {s : State} {hHi hLo : Nat} {rest : List Nat}
    (hhi : (s.resolvedValue hHi).isSome = true) (hlo : (s.resolvedValue hLo).isSome = true) :
    lineOf (resetAt 4 (hHi :: hLo :: rest) latched) cs s =
      .next (s.setSeq (.running (resetAt 5 (hHi :: hLo :: rest) (latchedPrescale (s.val hHi) (s.val hLo))) cs)) := by
  simp only [lineOf, resetAt, startFrame, lineReset, withVal_of_isSome hhi, withVal_of_isSome hlo]
  rfl

/-- `RESET` (R81): the three reads, the latched prescale, then the lines of the path it chooses. -/
theorem linesRun_reset : LinesRun .reset unitVal resetOp := by
  refine ⟨fun s hs => ?_, fun s cs o hs h => ?_⟩
  · obtain ⟨_, _, _, t, hx, -, -, -, -, -, hrun⟩ := resetOp_spec hs.between
    exact extends_of_run hrun hx
  have hreads := ((hs.solo.memRead .psHi).memRead .psLo).memRead .ctrl
  have hr : Solo (resetReads s) := hreads.commit
  have hhi : ((resetReads s).resolvedValue s.nextHandle).isSome = true :=
    commit_resolvedValue_isSome (s := ((s.memRead .psHi).memRead .psLo).memRead .ctrl) (r := .psHi) (by simp)
  have hlo : ((resetReads s).resolvedValue (s.nextHandle + 1)).isSome = true :=
    commit_resolvedValue_isSome (s := ((s.memRead .psHi).memRead .psLo).memRead .ctrl) (r := .psLo) (by simp)
  refine .line hs.solo rfl <| .line (hs.solo.memRead ..) rfl <| .line ((hs.solo.memRead ..).memRead ..) rfl <|
    .line hreads rfl <| .line hr (lineOf_resetAt_four hhi hlo) <| comes_resetPath hr h

/-! ## WAIT -/

section
variable (reqAck reqIdle : Bool)

/-- A position of `WAIT`. -/
def waitAt (line : Nat) (handles : List Nat) : Frame :=
  { startFrame (.wait reqAck reqIdle) with line := line, handles := handles }

/-- The line that binds `status` to the word read. -/
theorem lineOf_waitAt_five {s : State} {cs : List Frame} {h : Nat} {rest : List Nat}
    (hh : (s.resolvedValue h).isSome = true) :
    lineOf (waitAt reqAck reqIdle 5 (h :: rest)) cs s =
      .next ((s.setStatus (s.val h)).setSeq (.running (waitAt reqAck reqIdle 6 (h :: rest)) cs)) := by
  simp only [lineOf, waitAt, startFrame, lineWait, withVal_of_isSome hh]
  rfl

variable {s : State} (hs : Solo s) {handles : List Nat} {cs : List Frame} {o : Host.Outcome State Fault Refusal}
include hs

/-- The lines after the loop (R91), at an attempt the budget allows. -/
theorem comes_postConditions (hin : s.attempt ≤ s.params.maxRetry)
    (h : Comes (conclude unitVal (leavingWait (postConditions reqAck reqIdle s)) cs) o) :
    Comes (s.setSeq (.running (waitAt reqAck reqIdle 9 handles) cs)) o := by
  refine .line hs rfl ?_
  rw [if_neg (Nat.not_lt.2 hin)]
  refine .line hs rfl ?_
  rw [postConditions] at h
  split at h
  · next hack =>
    rw [if_pos hack]
    exact h
  · next hack =>
    rw [if_neg hack]
    refine .line hs rfl ?_
    split at h
    · next hidle =>
      rw [if_pos hidle]
      exact h
    · next hidle =>
      rw [if_neg hidle]
      exact .line hs rfl h

/-- The budget is spent (R90). -/
theorem comes_timeout (hout : s.params.maxRetry < s.attempt)
    (h : Comes (conclude unitVal (leavingWait (raising s .transactionTimeout)) cs) o) :
    Comes (s.setSeq (.running (waitAt reqAck reqIdle 1 handles) cs)) o := by
  refine .line hs rfl ?_
  rw [if_neg (Nat.not_le.2 hout)]
  refine .line hs rfl ?_
  rw [if_pos hout]
  exact h

/-- One attempt's lines up to its status word. -/
theorem comes_pollOnce (hin : s.attempt ≤ s.params.maxRetry)
    (h : Comes ((pollOnce s).setSeq (.running (waitAt reqAck reqIdle 6 [s.nextHandle]) cs)) o) :
    Comes (s.setSeq (.running (waitAt reqAck reqIdle 1 handles) cs)) o := by
  have hread : ((s.sleep.memRead .status).commit.resolvedValue s.nextHandle).isSome = true :=
    commit_resolvedValue_isSome (r := .status) (by simp)
  refine .line hs rfl ?_
  rw [if_pos hin]
  refine .line hs rfl <| .line hs.sleep rfl <| .line (hs.sleep.memRead ..) rfl <|
    .line (hs.sleep.memRead ..).commit (lineOf_waitAt_five reqAck reqIdle hread) h

end

theorem Solo.pollOnce {s : State} (h : Solo s) : Solo (pollOnce s) := (h.sleep.memRead .status).commit.setStatus _

/-- The loop of `WAIT` (R88 to R90) with `n` attempts left, and what follows it. -/
theorem comes_pollLoop (reqAck reqIdle : Bool) (n : Nat) {s : State} (hs : Solo s) {handles : List Nat}
    {cs : List Frame} {o : Host.Outcome State Fault Refusal} (hn : s.attempt + n = s.params.maxRetry + 1)
    (h : Comes (conclude unitVal
      (leavingWait (andThen (pollLoop n s) fun t _ => postConditions reqAck reqIdle t)) cs) o) :
    Comes (s.setSeq (.running (waitAt reqAck reqIdle 1 handles) cs)) o := by
  induction n generalizing s handles with
  | zero => exact comes_timeout reqAck reqIdle hs (by omega) h
  | succ n ih =>
    have hp : (pollOnce s).params = s.params := by simp [pollOnce]
    have ha : (pollOnce s).attempt = s.attempt := by simp [pollOnce]
    refine comes_pollOnce reqAck reqIdle hs (by omega) (.line hs.pollOnce rfl ?_)
    rw [pollLoop] at h
    split at h
    · next hal =>
      rw [if_pos hal]
      exact h
    · next hal =>
      rw [if_neg hal]
      refine .line hs.pollOnce rfl ?_
      split at h
      · next hip =>
        rw [if_pos hip]
        refine .line hs.pollOnce rfl (ih (hs.pollOnce.setAttempt _) ?_ h)
        rw [setAttempt_attempt, setAttempt_params, ha, hp]
        omega
      · next hip =>
        rw [if_neg hip]
        exact comes_postConditions reqAck reqIdle hs.pollOnce (by rw [ha, hp]; omega) h

theorem linesRun_wait (reqAck reqIdle : Bool) : LinesRun (.wait reqAck reqIdle) unitVal (waitOp reqAck reqIdle) := by
  refine ⟨fun s hs => ?_, fun s cs o hs h => ?_⟩
  · obtain ⟨_, t, -, hx, -, -, hrun⟩ := waitOp_spec reqAck reqIdle hs.between hs.valid
    exact extends_of_run hrun hx
  exact .line hs.solo rfl <| comes_pollLoop reqAck reqIdle s.params.maxRetry (hs.solo.setAttempt 1) (Nat.add_comm ..) h

/-! ## SEND_WRITE and SEND_READ -/

theorem linesRun_sendWrite {cmd : Flags} (hrd : cmd.rd = false) (data : Byte) :
    LinesRun (.sendWrite cmd data) unitVal (sendWriteOp cmd data) := by
  refine ⟨fun s hs => ?_, fun s cs o hs h => ?_⟩
  · obtain ⟨_, t, -, hx, -, -, -, -, hrun⟩ := sendWriteOp_spec cmd data hs.between hs.valid
    exact extends_of_run hrun hx
  · have hwritten := (hs.solo.memWrite .data (wordOfByte data)).memWrite .cmd (wordOfByte (writeCommand s.params cmd))
    obtain ⟨hc, -⟩ := commit_writes hs.between .data .cmd data (writeCommand s.params cmd) (by decide)
    refine .line hs.solo (if_neg (Bool.not_eq_true _ ▸ hrd)) <| .line hs.solo rfl <|
      .line (hs.solo.memWrite ..) rfl <| .line hwritten rfl <| .line hwritten.commit rfl ?_
    exact (linesRun_wait true cmd.sto).callAndReturn (hs.of_extends hc) (fun _ => rfl)
      (fun t _ ht h => .line ht.solo rfl h) h

/-- A position of `SEND_READ`. -/
def sendReadAt (cmd : Flags) (line : Nat) (handles : List Nat) : Frame :=
  { startFrame (.sendRead cmd) with line := line, handles := handles }

theorem lineOf_sendReadAt_six {cmd : Flags} {s : State} {cs : List Frame} {h : Nat} {rest : List Nat}
    (hh : (s.resolvedValue h).isSome = true) :
    lineOf (sendReadAt cmd 6 (h :: rest)) cs s = .next (s.returnTo (.byte (lowByte (s.val h))) cs) := by
  simp only [lineOf, sendReadAt, startFrame, lineSendRead, withVal_of_isSome hh]

/-- The lines after the wait: the received byte is read and returned. -/
theorem comes_readReceived {cmd : Flags} {s : State} (hs : Solo s) {cs : List Frame}
    {o : Host.Outcome State Fault Refusal} (h : Comes (conclude Val.byte (readReceived s) cs) o) :
    Comes (s.setSeq (.running (sendReadAt cmd 4 []) cs)) o := by
  have hread : ((s.memRead .rxdata).commit.resolvedValue s.nextHandle).isSome = true :=
    commit_resolvedValue_isSome (r := .rxdata) (by simp)
  exact .line hs rfl <| .line (hs.memRead ..) rfl <| .line (hs.memRead ..).commit (lineOf_sendReadAt_six hread) h

theorem linesRun_sendRead {cmd : Flags} (hwr : cmd.wr = false) : LinesRun (.sendRead cmd) Val.byte (sendReadOp cmd) := by
  refine ⟨fun s hs => ?_, fun s cs o hs h => ?_⟩
  · obtain ⟨_, t, _, _, -, hx, -, -, hrun, -⟩ := sendReadOp_spec cmd hs.between hs.valid
    exact extends_of_run hrun hx
  · obtain ⟨hc, -⟩ := commit_write hs.between .cmd (readCommand s.params cmd)
    have hp : (s.writeCommitted .cmd (readCommand s.params cmd)).params = s.params := hc.params
    rw [sendReadOp, ← show ((s.writeCommitted .cmd (readCommand s.params cmd)).params.readIdleOnStop && cmd.sto) =
      (s.params.readIdleOnStop && cmd.sto) by rw [hp]] at h
    refine .line hs.solo (if_neg (Bool.not_eq_true _ ▸ hwr)) <| .line hs.solo rfl <|
      .line (hs.solo.memWrite ..) rfl <| .line (hs.solo.memWrite ..).commit rfl ?_
    exact (linesRun_wait _ _).call (hs.of_extends hc) (fun _ => rfl) (fun t _ ht _ h => comes_readReceived ht.solo h) h

/-! ## WRITE_BLOCK -/

section
variable {addr : Nat} {bytes : List Byte} {sendStop : Bool}

/-- A position of `WRITE_BLOCK`. -/
def writeBlockAt (addr : Nat) (bytes : List Byte) (sendStop : Bool) (line index : Nat) (cmd : Flags) : Frame :=
  { startFrame (.writeBlock addr bytes sendStop) with line := line, index := index, cmd := cmd }

theorem lineOf_writeBlockAt_six {index : Nat} {cmd : Flags} {s : State} {cs : List Frame} {b : Byte}
    (hb : bytes[index]? = some b) :
    lineOf (writeBlockAt addr bytes sendStop 6 index cmd) cs s =
      .next (s.callOp (writeBlockAt addr bytes sendStop 6 index cmd) cs 7 (.sendWrite cmd b)) := by
  simp only [lineOf, writeBlockAt, startFrame, lineWriteBlock, hb]

/-- The loop's test. -/
theorem comes_writeBlockTest {s : State} (hs : Lone s) {index : Nat} {cmd : Flags} {cs : List Frame}
    {o : Host.Outcome State Fault Refusal}
    (h : Comes (s.setSeq (.running
      (writeBlockAt addr bytes sendStop (if index < bytes.length then 5 else 8) index cmd) cs)) o) :
    Comes (s.setSeq (.running (writeBlockAt addr bytes sendStop 4 index cmd) cs)) o :=
  .line hs.solo rfl h

/-- The choice of a data byte's command. -/
theorem comes_writeBlockChoice {s : State} (hs : Lone s) {index : Nat} {cmd : Flags} {cs : List Frame}
    {o : Host.Outcome State Fault Refusal}
    (h : Comes (s.setSeq (.running
      (writeBlockAt addr bytes sendStop 6 index (writeByteFlags (index + 1 == bytes.length) sendStop)) cs)) o) :
    Comes (s.setSeq (.running (writeBlockAt addr bytes sendStop 5 index cmd) cs)) o :=
  .line hs.solo rfl h

/-- The loop of `WRITE_BLOCK` with the bytes `rest` left. -/
theorem comes_writeBytes (rest sent : List Byte) (hbytes : bytes = sent ++ rest) {s : State} (hs : Lone s) {cmd : Flags}
    {cs : List Frame} {o : Host.Outcome State Fault Refusal}
    (h : Comes (conclude unitVal (writeBytes sendStop rest s) cs) o) :
    Comes (s.setSeq (.running (writeBlockAt addr bytes sendStop 4 sent.length cmd) cs)) o := by
  induction rest generalizing sent s cmd with
  | nil =>
    refine comes_writeBlockTest hs ?_
    rw [if_neg (by simp [hbytes])]
    exact .line hs.solo rfl h
  | cons b rest ih =>
    have hlast : (sent.length + 1 == bytes.length) = rest.isEmpty := by
      cases rest <;> simp [hbytes]
    refine comes_writeBlockTest hs ?_
    rw [if_pos (by simp [hbytes])]
    refine comes_writeBlockChoice hs ?_
    rw [hlast]
    refine .line hs.solo (lineOf_writeBlockAt_six (b := b) (by simp [hbytes])) ?_
    refine (linesRun_sendWrite rfl b).call hs (fun _ => rfl) (fun t _ ht _ h => ?_) h
    have hrest := ih (sent ++ [b]) (by simp [hbytes]) ht (cmd := writeByteFlags rest.isEmpty sendStop) h
    rw [List.length_append] at hrest
    exact .line ht.solo rfl hrest

theorem linesRun_writeBlock (haddr : addrFits addr = true) (hlen : bytes.isEmpty = false) :
    LinesRun (.writeBlock addr bytes sendStop) unitVal (writeBlockOp (addrOfArg addr) bytes sendStop) := by
  refine ⟨fun s hs => ?_, fun s cs o hs h => ?_⟩
  · obtain ⟨_, _, _, t, _, _, -, hx, -, hrun⟩ := writeBlockOp_spec (addrOfArg addr) bytes sendStop hs.between hs.valid
    exact extends_of_run hrun hx
  · refine .line hs.solo (if_pos haddr) <| .line hs.solo (if_neg (Bool.not_eq_true _ ▸ hlen)) <| .line hs.solo rfl ?_
    refine linesRun_reset.call hs (fun _ => rfl) (fun t _ ht _ h => .line ht.solo rfl ?_) h
    refine (linesRun_sendWrite rfl _).call ht (fun _ => rfl) (fun t _ ht _ h => ?_) h
    exact comes_writeBytes bytes [] rfl ht h

end

/-! ## READ_BLOCK -/

section
variable {addr count : Nat}

/-- A position of `READ_BLOCK`. -/
def readBlockAt (addr count line index : Nat) (cmd : Flags) (out : List Byte) (returned : Val) : Frame :=
  { startFrame (.readBlock addr count) with
    line := line, index := index, cmd := cmd, outBytes := out, returned := returned }

section
variable {s : State} (hs : Lone s) {index : Nat} {cmd : Flags} {out : List Byte} {returned : Val} {cs : List Frame}
  {o : Host.Outcome State Fault Refusal}
include hs

/-- The loop's test. -/
theorem comes_readBlockTest
    (h : Comes (s.setSeq (.running (readBlockAt addr count (if index < count then 6 else 9) index cmd out returned) cs)) o) :
    Comes (s.setSeq (.running (readBlockAt addr count 5 index cmd out returned) cs)) o :=
  .line hs.solo rfl h

/-- The choice of a byte's command. -/
theorem comes_readBlockChoice
    (h : Comes (s.setSeq (.running
      (readBlockAt addr count 7 index (readByteFlags (index + 1 == count)) out returned) cs)) o) :
    Comes (s.setSeq (.running (readBlockAt addr count 6 index cmd out returned) cs)) o :=
  .line hs.solo rfl h

end

/-- The loop of `READ_BLOCK` with `left` bytes left. -/
theorem comes_readBytes (left index : Nat) (hcount : count = index + left) {s : State} (hs : Lone s) {cmd : Flags}
    {out : List Byte} {returned : Val} {cs : List Frame} {o : Host.Outcome State Fault Refusal}
    (h : Comes (conclude Val.bytes (readBytes left out s) cs) o) :
    Comes (s.setSeq (.running (readBlockAt addr count 5 index cmd out returned) cs)) o := by
  induction left generalizing index s cmd out returned with
  | zero =>
    refine comes_readBlockTest hs ?_
    rw [if_neg (by omega)]
    exact .line hs.solo rfl h
  | succ left ih =>
    have hlast : (index + 1 == count) = (left == 0) := by
      rw [Bool.eq_iff_iff, beq_iff_eq, beq_iff_eq]
      omega
    have hwr : (readByteFlags (left == 0)).wr = false := by
      cases left == 0 <;> rfl
    refine comes_readBlockTest hs ?_
    rw [if_pos (by omega)]
    refine comes_readBlockChoice hs ?_
    rw [hlast]
    refine .line hs.solo rfl ?_
    refine (linesRun_sendRead hwr).call hs (fun _ => rfl) (fun t b ht _ h => ?_) h
    exact .line ht.solo rfl (ih (index + 1) (by omega) ht h)

theorem linesRun_readBlock (haddr : addrFits addr = true) (hlen : (count == 0) = false) :
    LinesRun (.readBlock addr count) Val.bytes (readBlockOp (addrOfArg addr) count) := by
  refine ⟨fun s hs => ?_, fun s cs o hs h => ?_⟩
  · obtain ⟨_, _, _, _, t, _, _, -, hx, -, hrun, -⟩ := readBlockOp_spec (addrOfArg addr) count hs.between hs.valid
    exact extends_of_run hrun hx
  · refine .line hs.solo (if_pos haddr) <| .line hs.solo (if_neg (Bool.not_eq_true _ ▸ hlen)) <| .line hs.solo rfl ?_
    refine linesRun_reset.call hs (fun _ => rfl) (fun t _ ht _ h => .line ht.solo rfl ?_) h
    refine (linesRun_sendWrite rfl _).call ht (fun _ => rfl) (fun t _ ht _ h => .line ht.solo rfl ?_) h
    exact comes_readBytes count 0 (Nat.zero_add _).symm ht h

end

/-! ## PING and SCAN -/

theorem linesRun_ping {addr : Nat} (haddr : addrFits addr = true) :
    LinesRun (.ping addr) Val.bool (pingOp (addrOfArg addr)) := by
  refine ⟨fun s hs => ?_, fun s cs o hs h => ?_⟩
  · obtain ⟨t, _, _, -, hx, -, hrun⟩ := pingOp_spec (addrOfArg addr) hs.between hs.valid
    exact extends_of_run hrun hx
  · refine .line hs.solo (if_pos haddr) <| .line hs.solo rfl ?_
    refine (linesRun_sendWrite rfl _).callCaught hs (fun _ => rfl) ?_ ?_ h
    · intro t _ ht h
      refine .line ht.solo rfl ((linesRun_sendRead rfl).callCaught ht (fun _ => rfl) ?_ ?_ h)
      · exact fun u _ hu h => .line hu.solo rfl h
      · exact fun u hu h => .line hu.solo rfl h
    · exact fun t ht h => .line ht.solo rfl h

/-- A position of `SCAN`. -/
def scanAt (line index : Nat) (out : List Addr7) (returned : Val) : Frame :=
  { startFrame .scan with line := line, index := index, outAddrs := out, returned := returned }

/-- The loop's test. -/
theorem comes_scanTest {s : State} (hs : Lone s) {index : Nat} {out : List Addr7} {returned : Val} {cs : List Frame}
    {o : Host.Outcome State Fault Refusal}
    (h : Comes (s.setSeq (.running
      (scanAt (if index ≤ s.params.scanLast.toNat then 2 else 4) index out returned) cs)) o) :
    Comes (s.setSeq (.running (scanAt 1 index out returned) cs)) o :=
  .line hs.solo rfl h

/-- The loop of `SCAN` with `left` addresses left. -/
theorem comes_scanLoop (left index : Nat) {s : State} (hlast : index + left = s.params.scanLast.toNat + 1) (hs : Lone s)
    {out : List Addr7} {returned : Val} {cs : List Frame} {o : Host.Outcome State Fault Refusal}
    (h : Comes (conclude Val.addrs (scanLoop (List.range' index left) out s) cs) o) :
    Comes (s.setSeq (.running (scanAt 1 index out returned) cs)) o := by
  induction left generalizing index s out returned with
  | zero =>
    refine comes_scanTest hs ?_
    rw [if_neg (by omega)]
    exact .line hs.solo rfl h
  | succ left ih =>
    have haddr : addrFits index = true := by
      have : s.params.scanLast.toNat < 128 := s.params.scanLast.isLt
      rw [addrFits, decide_eq_true_iff]
      omega
    refine comes_scanTest hs ?_
    rw [if_pos (by omega)]
    refine .line hs.solo rfl ?_
    refine (linesRun_ping haddr).call hs (fun _ => rfl) (fun t found ht hp h => .line ht.solo rfl ?_) h
    refine ih (index + 1) (by rw [hp]; omega) ht ?_
    cases found <;> exact h

theorem linesRun_scan : LinesRun .scan Val.addrs scanOp := by
  refine ⟨fun s hs => ?_, fun s cs o hs h => ?_⟩
  · obtain ⟨t, _, _, -, hx, -, hrun⟩ :=
      scanLoop_spec (List.range (s.params.scanLast.toNat + 1)) [] hs.between hs.valid
    exact extends_of_run hrun hx
  · rw [scanOp, List.range_eq_range'] at h
    exact .line hs.solo rfl (comes_scanLoop (s.params.scanLast.toNat + 1) 0 (Nat.zero_add _) hs h)

/-! ## The requests that make no register operation -/

theorem comes_configure (ratio : Ratio) {s : State} (hs : Solo s) :
    Comes (s.setSeq (.running (startFrame (.configure ratio)) [])) (.next (respond unitVal (configureOp ratio s))) :=
  .line hs rfl <| .line (hs.setPrescale _) rfl (.refl _)

theorem comes_getSlaveAddress (n : DevName) {s : State} (hs : Solo s) :
    Comes (s.setSeq (.running (startFrame (.getSlaveAddress n)) []))
      (.next (respond Val.addr (getSlaveAddressOp n s))) := by
  rw [getSlaveAddressOp]
  cases hn : lookup n s.registry with
  | none => exact .line hs (by simp only [lineOf, startFrame, lineGetSlaveAddress, hn]; rfl) (.refl _)
  | some a =>
    exact .line hs (t := s.goTo (startFrame (.getSlaveAddress n)) [] 1)
      (by simp only [lineOf, startFrame, lineGetSlaveAddress, hn]) <|
      .line hs (by simp only [lineOf, startFrame, lineGetSlaveAddress, hn]; rfl) (.refl _)

theorem comes_getSlave (n : DevName) {s : State} (hs : Solo s) :
    Comes (s.setSeq (.running (startFrame (.getSlave n)) [])) (.next (respond Val.handle (getSlaveOp n s))) := by
  rw [getSlaveOp]
  cases hn : lookup n s.slaves with
  | none => exact .line hs (by simp only [lineOf, startFrame, lineGetSlave, hn]; rfl) (.refl _)
  | some h =>
    exact .line hs (t := s.goTo (startFrame (.getSlave n)) [] 1)
      (by simp only [lineOf, startFrame, lineGetSlave, hn]) <|
      .line hs (by simp only [lineOf, startFrame, lineGetSlave, hn]; rfl) (.refl _)

/-! ## The block operations, their arguments checked, and the slave operations -/

/-- The lines of a block operation fault where the checks of its arguments do (R133), and otherwise come to where the
operation's conclusion does. -/
theorem comes_blockArgs {α : Type} {op : Instr} {wrap : α → Val} {run : Addr7 → State → Run α} {addr : Nat}
    {isEmpty : Bool} {s : State} {cs : List Frame} {o : Addr7 → Host.Outcome State Fault Refusal} (hs : Lone s)
    (hrange : addrFits addr = false → lineOf (startFrame op) cs s = .fault .addrRange)
    (hfits : addrFits addr = true → lineOf (startFrame op) cs s = .next (s.goTo (startFrame op) cs 1))
    (hempty : isEmpty = true → lineOf { startFrame op with line := 1 } cs s = .fault .emptyBlock)
    (hrun : addrFits addr = true → isEmpty = false → LinesRun op wrap (run (addrOfArg addr)))
    (hend : ∀ a, Lone (run a s).1 → Comes (conclude wrap (run a s) cs) (o a)) :
    Comes (s.setSeq (.running (startFrame op) cs)) (whenBlockArgs addr isEmpty o) := by
  rw [whenBlockArgs]
  cases ha : addrFits addr with
  | false => exact .faults hs.solo (hrange ha)
  | true =>
    cases he : isEmpty with
    | true => exact .line hs.solo (hfits ha) (.faults hs.solo (hempty he))
    | false => exact (hrun ha he).lines s cs _ hs (hend _ ((hrun ha he).lone hs))

section
variable {s : State} (hs : Lone s) {cs : List Frame} {o : Addr7 → Host.Outcome State Fault Refusal}
include hs

theorem comes_writeBlock (addr : Nat) (bytes : List Byte) (sendStop : Bool)
    (hend : ∀ a, Lone (writeBlockOp a bytes sendStop s).1 →
      Comes (conclude unitVal (writeBlockOp a bytes sendStop s) cs) (o a)) :
    Comes (s.setSeq (.running (startFrame (.writeBlock addr bytes sendStop)) cs)) (whenBlockArgs addr bytes.isEmpty o) :=
  comes_blockArgs (run := fun a => writeBlockOp a bytes sendStop) hs (fun ha => if_neg (Bool.not_eq_true _ ▸ ha))
    (fun ha => if_pos ha) (fun he => if_pos he) (fun ha he => linesRun_writeBlock ha he) hend

theorem comes_readBlock (addr count : Nat)
    (hend : ∀ a, Lone (readBlockOp a count s).1 → Comes (conclude Val.bytes (readBlockOp a count s) cs) (o a)) :
    Comes (s.setSeq (.running (startFrame (.readBlock addr count)) cs)) (whenBlockArgs addr (count == 0) o) :=
  comes_blockArgs (run := fun a => readBlockOp a count) hs (fun ha => if_neg (Bool.not_eq_true _ ▸ ha))
    (fun ha => if_pos ha) (fun he => if_pos he) (fun ha he => linesRun_readBlock ha he) hend

end

/-- The outermost operation concludes in its response. -/
theorem comes_respond {α : Type} (wrap : α → Val) (r : Run α) : Comes (conclude wrap r []) (.next (respond wrap r)) :=
  conclude_nil wrap r ▸ .refl _

/-- A slave operation returns what the block operation it called returned (R122). -/
theorem comes_slaveReturn {α : Type} (wrap : α → Val) {r : Run α} (hr : Lone r.1) {f : Frame}
    (hline : ∀ v t, lineOf { f with returned := v } [] t = .next (t.returnTo v [])) (hcatch : ∀ e, catches e f = false) :
    Comes (conclude wrap r [f]) (.next (respond wrap r)) := by
  obtain ⟨t, out⟩ := r
  cases out with
  | ok a => exact .line hr.solo (hline (wrap a) t) (.refl _)
  | error e =>
    rw [conclude, State.unwind, hcatch]
    exact .refl _

/-! ## Whole requests -/

/-- The lines of a request come to what its body does. -/
theorem comes_instrBody {i : Instr} (hi : isRequest i = true) {s : State} (hs : Lone s) :
    Comes (s.setSeq (.running (startFrame i) [])) (instrBody i s) := by
  cases i with
  | configure ratio => exact comes_configure ratio hs.solo
  | reset => exact linesRun_reset.whole hs
  | sendWrite cmd data =>
    rw [instrBody]
    split
    · next hrd => exact .faults hs.solo (if_pos hrd)
    · next hrd => exact (linesRun_sendWrite (Bool.eq_false_of_not_eq_true hrd) data).whole hs
  | sendRead cmd =>
    rw [instrBody]
    split
    · next hwr => exact .faults hs.solo (if_pos hwr)
    · next hwr => exact (linesRun_sendRead (Bool.eq_false_of_not_eq_true hwr)).whole hs
  | wait reqAck reqIdle => exact (linesRun_wait reqAck reqIdle).whole hs
  | writeBlock addr bytes sendStop => exact comes_writeBlock hs addr bytes sendStop fun _ _ => comes_respond ..
  | readBlock addr count => exact comes_readBlock hs addr count fun _ _ => comes_respond ..
  | ping addr =>
    rw [instrBody]
    split
    · next haddr => exact (linesRun_ping haddr).whole hs
    · next haddr => exact .faults hs.solo (if_neg haddr)
  | scan => exact linesRun_scan.whole hs
  | getSlaveAddress n => exact comes_getSlaveAddress n hs.solo
  | getSlave n => exact comes_getSlave n hs.solo
  | slaveWriteBlock handle bytes sendStop =>
    exact .line hs.solo rfl <| comes_writeBlock hs handle.addr.toNat bytes sendStop fun _ ht =>
      comes_slaveReturn unitVal ht (fun _ _ => rfl) fun _ => rfl
  | slaveReadBlock handle count =>
    exact .line hs.solo rfl <| comes_readBlock hs handle.addr.toNat count fun _ ht =>
      comes_slaveReturn Val.bytes ht (fun _ _ => rfl) fun _ => rfl
  | cmdZero => cases hi
  | cmdWrite sta sto ack => cases hi
  | cmdRead sta sto ack => cases hi

/-- Settles O57: the accepted state runs line by line to what the body does with it whole, operation by operation. -/
theorem linesOfARequestComeToItsOutcome : Obligations.LinesOfARequestComeToItsOutcome := by
  intro i s hi hs hport
  have hlone : Lone s.accept := ⟨⟨hs.params, hport⟩, .accept hs.queue⟩
  obtain ⟨n, hn⟩ := comes_instrBody hi hlone
  exact ⟨n, _, whenReady_of_ready hs.toReady _, hn.trans (exec_of_ready i hs.toReady).symm⟩

end Sys2Proof.Machine
end
